-- ==== Sys2Proof/Word.lean ====
section
/-!
DEFINITION. The word types of the ISAP core (spec rules R11 and R12): bytes, command words, register words, lanes, byte strings.
-/

namespace Sys2Proof

/-- One byte (R12). -/
abbrev Byte := BitVec 8

/-- A command word (R85). -/
abbrev Word32 := BitVec 32

/-- A register of the aperture, and an address of the DMA space (R10). -/
abbrev Word64 := BitVec 64

/-- A lane of the Ascon-p state (R9). -/
abbrev Lane64 := BitVec 64

/-- A lane of the Keccak-p[400] state (R9). -/
abbrev Lane16 := BitVec 16

/-- A byte string, byte 0 first (R12). -/
abbrev Bytes := List Byte

end Sys2Proof
end

