-- ==== Sys2Proof/Machine/Bytes.lean ====
section
/-!
DEFINITION. Byte strings (R12) and the two byte orders: big-endian for Ascon lanes (R60), little-endian for Keccak lanes (R62), for
the aperture (R44, R73) and for the bytes of a command word.
-/

namespace Sys2Proof.Machine

/-- `n` zero bytes (R12). -/
def zeros (n : Nat) : Bytes := List.replicate n 0

/-- Bytewise XOR; the result has the length of the shorter string (R12 uses it on equal lengths). -/
def xorBytes (x y : Bytes) : Bytes := List.zipWith (· ^^^ ·) x y

/-- The number whose least-significant byte is byte 0: `Σ X[k] · 2^(8k)` (R44, R62). -/
def leNat : Bytes → Nat
  | [] => 0
  | b :: bs => b.toNat + 256 * leNat bs

/-- The number whose most-significant byte is byte 0: `Σ X[k] · 2^(8(n−1−k))` (R60). -/
def beNat (x : Bytes) : Nat := leNat x.reverse

/-- The `n` low bytes of a number, least-significant first (R63, R73). -/
def leBytes (v n : Nat) : Bytes := (List.range n).map fun k => BitVec.ofNat 8 (v >>> (8 * k))

/-- The `n` low bytes of a number, most-significant first (R61). -/
def beBytes (v n : Nat) : Bytes := (leBytes v n).reverse

/-- Bytes `off .. off+n−1` of a byte string; a byte beyond its length counts as 0 (R44). -/
def slice (x : Bytes) (off n : Nat) : Bytes := (List.range n).map fun k => x.getD (off + k) 0

/-- A byte string as a register of `n` bytes: cut or extended with zero bytes (R133, `out ‖ zeros(34 − z)`). -/
def toReg (n : Nat) (x : Bytes) : Vector Byte n := Vector.ofFn fun i : Fin n => x.getD i.val 0

end Sys2Proof.Machine
end

