-- ==== Sys2Proof/Syntax.lean ====
section
/-!
DEFINITION. The commands of the ISAP core: one constructor for each row of spec/opcode_table.json (R88).
-/

namespace Sys2Proof

/-- The MODE field of RK (R86): which initialization vector and output length ISAP-Rk uses. -/
inductive RkMode where
  /-- MODE = 0: IV_KE, n − 16 output bytes. -/
  | enc
  /-- MODE = 1: IV_KA, 16 output bytes. -/
  | mac
deriving DecidableEq, Repr

/-- The INST field of SETINST (R86, R93): a row of the preset table (R29). -/
inductive InstanceId where
  | a128a
  | a128
  | k128a
  | k128
deriving DecidableEq, Repr

/-- The nine commands. `perm` carries its round count as a number, as the assembler writes it (R93); the field that holds it
is five bits wide, which `Instr.wellFormed` checks. -/
inductive Instr where
  /-- NOP (R185). -/
  | nop
  /-- PERM R (R115). -/
  | perm (rounds : Nat)
  /-- RK MODE (R133). -/
  | rk (mode : RkMode)
  /-- ENC (R142). -/
  | enc
  /-- MAC (R155). -/
  | mac
  /-- AEAD_ENC (R166). -/
  | aeadEnc
  /-- AEAD_DEC (R168). -/
  | aeadDec
  /-- SETINST INST (R186). -/
  | setinst (inst : InstanceId)
  /-- CLEAR (R187). -/
  | clear
deriving DecidableEq, Repr

end Sys2Proof
end

