-- ==== Sys2Proof/WellFormed.lean ====
section
/-!
DEFINITION. Which terms of `Instr` an encoding can express.
-/

namespace Sys2Proof

/-- PERM's R is a five-bit unsigned field: any value 0..31 is encodable, whether or not it is a legal round count (R87, R93). Every other
operand is a constructor of an enumerated type, so it has an encoding. -/
def Instr.wellFormed : Instr → Bool
  | .nop => true
  | .perm rounds => decide (rounds < 32)
  | .rk _ => true
  | .enc => true
  | .mac => true
  | .aeadEnc => true
  | .aeadDec => true
  | .setinst _ => true
  | .clear => true

end Sys2Proof
end

