-- ==== Sys2Proof/Decode.lean ====
section
/-!
DEFINITION. The command decoder of R91, total on words and on bytes, and the encoder of R93.
-/

namespace Sys2Proof

/-- Why a command word is no command (R90). -/
inductive Illegal where
  /-- OP is in 0x09..0xFF. -/
  | unknownOpcode
  /-- A reserved bit, or a field the command does not use, is not 0 (R89). -/
  | reservedBitSet
  /-- Fewer than the four bytes of a command word (R92: there is no shorter form). -/
  | truncated
deriving DecidableEq, Repr

/-- OP, bits 7:0 (R86). -/
def opField (w : Word32) : BitVec 8 := w.extractLsb' 0 8

/-- MODE, bit 8 (R86, R87). -/
def modeField (w : Word32) : RkMode := if w.getLsbD 8 then .mac else .enc

/-- R, bits 20:16, unsigned (R86, R87). -/
def roundsField (w : Word32) : Nat := (w.extractLsb' 16 5).toNat

/-- The preset a two-bit INST value names (R93). -/
def instanceOfField (f : BitVec 2) : InstanceId :=
  if f = 0 then .a128a else if f = 1 then .a128 else if f = 2 then .k128a else .k128

/-- INST, bits 25:24 (R86, R87). -/
def instField (w : Word32) : InstanceId := instanceOfField (w.extractLsb' 24 2)

/-- The decoder as a total function on command words (R91). -/
def decodeWord (w : Word32) : Except Illegal Instr :=
  if opField w = 0x00 then (if w = 0x00000000 then .ok .nop else .error .reservedBitSet)
  else if opField w = 0x01 then
    (if w &&& 0xFFE0FF00 = 0 then .ok (.perm (roundsField w)) else .error .reservedBitSet)
  else if opField w = 0x02 then
    (if w &&& 0xFFFFFE00 = 0 then .ok (.rk (modeField w)) else .error .reservedBitSet)
  else if opField w = 0x03 then (if w = 0x00000003 then .ok .enc else .error .reservedBitSet)
  else if opField w = 0x04 then (if w = 0x00000004 then .ok .mac else .error .reservedBitSet)
  else if opField w = 0x05 then (if w = 0x00000005 then .ok .aeadEnc else .error .reservedBitSet)
  else if opField w = 0x06 then (if w = 0x00000006 then .ok .aeadDec else .error .reservedBitSet)
  else if opField w = 0x07 then
    (if w &&& 0xFCFFFF00 = 0 then .ok (.setinst (instField w)) else .error .reservedBitSet)
  else if opField w = 0x08 then (if w = 0x00000008 then .ok .clear else .error .reservedBitSet)
  else .error .unknownOpcode

/-- The decoder on the bytes of a command word as they lie in the aperture, byte 0 at offset 0x008 (R25, R73). Bytes after the
fourth are bits 63:32 of CMD, which are ignored (R25). -/
def decode (bytes : Bytes) : Except Illegal Instr :=
  if bytes.length < 4 then .error .truncated
  else decodeWord (BitVec.ofNat 32 (Machine.leNat (bytes.take 4)))

/-- The word of the low `nbits` bits of `w`, as CMD bits 31:0 take it (R25). -/
def tableWord (nbits w : Nat) : Word32 := BitVec.ofNat 32 (w % 2 ^ nbits)

/-- The instruction the decoder reads from an opcode-table word: its four bytes, laid out little-endian, given to `decode`. -/
def decodeTableWord (nbits w : Nat) : Option Instr :=
  match decode (Machine.leBytes (tableWord nbits w).toNat 4) with
  | .ok i => some i
  | .error _ => none

/-- The MODE bit in its place (R86). -/
def encodeMode : RkMode → Word32
  | .enc => 0x00000000
  | .mac => 0x00000100

/-- The INST field in its place (R86, R93). -/
def encodeInst : InstanceId → Word32
  | .a128a => 0x00000000
  | .a128 => 0x01000000
  | .k128a => 0x02000000
  | .k128 => 0x03000000

/-- The word of a well-formed command (R93). -/
def encode : Instr → Word32
  | .nop => 0x00000000
  | .perm rounds => 0x00000001 ||| (BitVec.ofNat 32 rounds <<< 16)
  | .rk mode => 0x00000002 ||| encodeMode mode
  | .enc => 0x00000003
  | .mac => 0x00000004
  | .aeadEnc => 0x00000005
  | .aeadDec => 0x00000006
  | .setinst inst => 0x00000007 ||| encodeInst inst
  | .clear => 0x00000008

/-- The mask of a command's row of the opcode map (R88). -/
def rowMask : Instr → Word32
  | .nop => 0xFFFFFFFF
  | .perm _ => 0xFFE0FFFF
  | .rk _ => 0xFFFFFEFF
  | .enc => 0xFFFFFFFF
  | .mac => 0xFFFFFFFF
  | .aeadEnc => 0xFFFFFFFF
  | .aeadDec => 0xFFFFFFFF
  | .setinst _ => 0xFCFFFFFF
  | .clear => 0xFFFFFFFF

/-- The match word of a command's row of the opcode map (R88). -/
def rowMatch : Instr → Word32
  | .nop => 0x00000000
  | .perm _ => 0x00000001
  | .rk _ => 0x00000002
  | .enc => 0x00000003
  | .mac => 0x00000004
  | .aeadEnc => 0x00000005
  | .aeadDec => 0x00000006
  | .setinst _ => 0x00000007
  | .clear => 0x00000008

end Sys2Proof
end

