-- ==== Sys2Proof/Config.lean ====
section
/-!
DEFINITION. What a platform fixes (R10, and U10 to U14 of spec/93_implementation_defined.md), and the free values the spec leaves open.
-/

namespace Sys2Proof

/-- PARAM.PERM (R27): the permutation every command uses. -/
inductive PermSel where
  | ascon
  | keccak
deriving DecidableEq, Repr

/-- One row of `instancePresets` (R29): the five fields of PARAM. -/
structure Preset where
  perm : PermSel
  sb : BitVec 5
  sk : BitVec 5
  se : BitVec 5
  sh : BitVec 5
deriving DecidableEq, Repr

/-- The preset table (R29), one row for each INST value. -/
structure PresetTable where
  a128a : Preset
  a128 : Preset
  k128a : Preset
  k128 : Preset
deriving DecidableEq, Repr

/-- The byte addresses `lo, lo+1, …, lo+len−1` of the DMA space. -/
structure AddrRange where
  lo : Nat
  len : Nat
deriving DecidableEq, Repr

/-- What the platform around the engine fixes. No step changes it. -/
structure Platform where
  /-- BASE divided by 0x200, so that BASE is aligned by construction (R22, U12). -/
  basePage : BitVec 55
  /-- ADDR_W, the DMA address width, at most 64 (R10, U14). -/
  addrW : Fin 65
  /-- BUS_ERROR: the DMA addresses that answer with an error response (R194, U11). -/
  busError : List AddrRange
  /-- The DMA addresses that never answer (R189, U10). -/
  noResponse : List AddrRange
  /-- instancePresets (R29, U13). -/
  presets : PresetTable
deriving DecidableEq, Repr

/-- FREE VALUE: the n-th unspecified byte. A byte of the OUT range holds one after ERR_BUS (R194, U5) and after a reset while BUSY
(R211, U6). Nothing constrains it. -/
opaque Config.freeByte : Nat → Byte

/-- FREE VALUE: the n-th free choice. Reduced modulo the number of admissible values, it picks the one a raced access sees
(R216 to R218, U7 to U9). Nothing constrains it. -/
opaque Config.freeChoice : Nat → Nat

/-- FREE VALUE: when the engine makes a read. `Config.readMoment t j` says after how many host writes to the DMA space, counted from acceptance, the command
with ticket `t` makes its `j`-th byte read (R216, U7: the reads are independent) (log 7). Nothing constrains it. -/
opaque Config.readMoment : Nat → Nat → Nat

end Sys2Proof
end

