-- ==== Sys2Proof/Machine/Param.lean ====
section
/-!
DEFINITION. The PARAM register's fields (R27), the preset table (R29), and the constants that follow from PARAM.PERM (R9).
-/

namespace Sys2Proof.Machine

/-- The implemented bits of PARAM: PERM, SB, SK, SE, SH (R27). -/
def paramMask : Word64 := 0x0000001F1F1F1F01

/-- PARAM.PERM, bit 0 (R27). -/
def paramPerm (p : Word64) : PermSel := if p.getLsbD 0 then .keccak else .ascon

/-- PARAM.SB, bits 12:8: s_b (R27). -/
def paramSb (p : Word64) : Nat := (p.extractLsb' 8 5).toNat

/-- PARAM.SK, bits 20:16: s_k (R27). -/
def paramSk (p : Word64) : Nat := (p.extractLsb' 16 5).toNat

/-- PARAM.SE, bits 28:24: s_e (R27). -/
def paramSe (p : Word64) : Nat := (p.extractLsb' 24 5).toNat

/-- PARAM.SH, bits 36:32: s_h (R27). -/
def paramSh (p : Word64) : Nat := (p.extractLsb' 32 5).toNat

/-- The PERM bit of a permutation (R27). -/
def permBit : PermSel → Word64
  | .ascon => 0
  | .keccak => 1

/-- The PARAM value SETINST composes from a preset row (R186). -/
def presetParam (row : Preset) : Word64 :=
  (row.sh.setWidth 64 <<< 32) ||| (row.se.setWidth 64 <<< 24) ||| (row.sk.setWidth 64 <<< 16) |||
    (row.sb.setWidth 64 <<< 8) ||| permBit row.perm

/-- The row of the preset table that INST names (R29). -/
def presetRow (table : PresetTable) : InstanceId → Preset
  | .a128a => table.a128a
  | .a128 => table.a128
  | .k128a => table.k128a
  | .k128 => table.k128

/-- The default `instancePresets` (R29; the choice of the Keccak rows is spec/90_conflicts.md C2). -/
def instancePresets : PresetTable where
  a128a := { perm := .ascon, sb := 1, sk := 12, se := 6, sh := 12 }
  a128 := { perm := .ascon, sb := 12, sk := 12, se := 12, sh := 12 }
  k128a := { perm := .keccak, sb := 1, sk := 8, se := 8, sh := 16 }
  k128 := { perm := .keccak, sb := 12, sk := 12, se := 12, sh := 20 }

/-- The platform of `State.reset`: ADDR_W = 64 (R10), no bus error (U11), the preset table of R29. BASE = 0 and "every address
answers" are DESIGN CHOICE (log 4), unsafe only for a statement about these values; no statement is. -/
def defaultPlatform : Platform where
  basePage := 0
  addrW := 64
  busError := []
  noResponse := []
  presets := instancePresets

/-- What the ISAP functions take from PARAM: the permutation and the four round counts (R27). -/
structure Params where
  perm : PermSel
  sb : Nat
  sk : Nat
  se : Nat
  sh : Nat
deriving DecidableEq, Repr

/-- The parameters a PARAM value holds. -/
def paramsOf (p : Word64) : Params where
  perm := paramPerm p
  sb := paramSb p
  sk := paramSk p
  se := paramSe p
  sh := paramSh p

/-- RMAX: 12 for Ascon-p, 20 for Keccak-p[400] (R9, R28). -/
def rmax : PermSel → Nat
  | .ascon => 12
  | .keccak => 20

/-- n, the state size in bytes (R9). -/
def stateBytes : PermSel → Nat
  | .ascon => 40
  | .keccak => 50

/-- r_H = n − 32, the rate in bytes (R9). -/
def rateBytes (perm : PermSel) : Nat := stateBytes perm - 32

/-- z, the output length of ISAP-Rk: n − 16 in ENC mode, 16 in MAC mode (R9, R132). -/
def rkBytes (perm : PermSel) : RkMode → Nat
  | .enc => stateBytes perm - 16
  | .mac => 16

/-- One legal round count: 1 ≤ r ≤ RMAX (R28). -/
def legalRounds (perm : PermSel) (r : Nat) : Bool := decide (1 ≤ r ∧ r ≤ rmax perm)

/-- All four round counts are legal (R28, R182). -/
def Params.legal (ps : Params) : Bool :=
  legalRounds ps.perm ps.sb && legalRounds ps.perm ps.sk && legalRounds ps.perm ps.se && legalRounds ps.perm ps.sh

end Sys2Proof.Machine
end

