-- ==== Sys2Proof/Machine/State.lean ====
section
/-!
DEFINITION. The state of the ISAP core: its registers (R22 to R41), its hidden state (R46), the DMA space (R66), the platform's
parameters, and the environment's pending actions; and the state after reset (R49).
-/

namespace Sys2Proof.Machine

/-- The DMA space (R66): the bytes that are not `unwrittenByte`, sorted by address. -/
abbrev Memory := List Host.Cell

/-- STATUS without BUSY, which is the hidden mode (R26, R46). -/
structure Status where
  /-- ERR, bit 1. -/
  err : Bool
  /-- VERIFY, bit 2. -/
  verify : Bool
  /-- ERRCODE, bits 15:8. -/
  errcode : BitVec 8
deriving DecidableEq, Repr

/-- A command that was accepted and has not completed (R46). The registers it reads are their own snapshot: nothing writes them while
BUSY (R180) (DEDUCED, log 3, safe). -/
structure Running where
  /-- The accepted command. -/
  cmd : Instr
  /-- The race record (R216, R218): for each DMA byte written by a host since acceptance, its address and the value it held before, newest
  write first. -/
  raced : List Host.Cell
  /-- A DMA transaction of the command never got its response: BUSY until reset (R189, U10). -/
  hung : Bool
  /-- The model's own name for this execution of the command, to which `Config.readMoment` is applied (log 7). -/
  ticket : Nat
deriving DecidableEq, Repr

/-- One action of the environment; each is one step (R75) (DESIGN CHOICE, log 1). -/
inductive Input where
  /-- A host reads `size` bytes at a bus address (R72). -/
  | read (addr : Word64) (size : Nat)
  /-- A host writes the low `size` bytes of `data` at a bus address (R72). -/
  | write (addr : Word64) (size : Nat) (data : Word64)
  /-- A host write and a step of the engine fall together (R31: an engine set wins). -/
  | writeWithEngine (addr : Word64) (size : Nat) (data : Word64)
  /-- A host or another master reads one byte of the DMA space (R217). -/
  | dmaRead (addr : Word64)
  /-- A host or another master writes one byte of the DMA space (R216, R218). -/
  | dmaWrite (addr : Word64) (value : Byte)
  /-- The environment does nothing and the engine takes a step (R188). -/
  | engine
  /-- `rst` is asserted and released (R210). -/
  | rst
deriving DecidableEq, Repr

/-- The answer to the last host action. -/
inductive Response where
  /-- No host access has been answered since reset, or the last action was no access (DESIGN CHOICE, log 13, safe). -/
  | none
  /-- OKAY, with the data of a read (0 for a write). -/
  | okay (data : Word64)
  /-- SLVERR (R72, R202); a read returns 0. -/
  | slverr
  /-- The address is not in the engine's aperture, so the engine does not answer (R22) (log 15). -/
  | unclaimed
deriving DecidableEq, Repr

/-- Everything the spec gives the machine. -/
structure State where
  /-- What the platform fixes; no step changes it (DESIGN CHOICE, log 4). -/
  platform : Platform
  /-- STATUS, without BUSY (R26). -/
  status : Status
  /-- PARAM (R27); its unimplemented bits are 0. -/
  param : Word64
  /-- INT_EN: bit 0 DONE_IE, bit 1 OVR_IE (R30). -/
  intEn : BitVec 2
  /-- INT_STAT: bit 0 DONE, bit 1 OVERRUN (R31). -/
  intStat : BitVec 2
  /-- AD_ADDR (R33). -/
  adAddr : Word64
  /-- AD_LEN (R33). -/
  adLen : Word64
  /-- IN_ADDR (R34). -/
  inAddr : Word64
  /-- IN_LEN (R34). -/
  inLen : Word64
  /-- OUT_ADDR (R35). -/
  outAddr : Word64
  /-- KEY (R36). -/
  key : Vector Byte 16
  /-- NONCE (R37). -/
  nonce : Vector Byte 16
  /-- TAG (R38). -/
  tag : Vector Byte 16
  /-- Y (R39). -/
  y : Vector Byte 16
  /-- SUBKEY (R40). -/
  subkey : Vector Byte 34
  /-- STATE, the byte view of the permutation state (R41, R42). -/
  permState : Vector Byte 50
  /-- The hidden mode and the accepted command: `none` is IDLE (R46). -/
  running : Option Running
  /-- The DMA space (R66). -/
  memory : Memory
  /-- The environment's pending actions, the next one first (DESIGN CHOICE, log 1). -/
  inputs : List Input
  /-- The answer to the last host action (log 13). -/
  response : Response
  /-- How many free values have been drawn, an accepted command's ticket being one (the model's own counter, log 6). -/
  draws : Nat
deriving DecidableEq, Repr

/-- Why a step stops. -/
inductive Fault where
  /-- A host access to a DMA address at or above 2^ADDR_W, which does not exist (R66). Raised by `hostDmaRead` and `hostDmaWrite`. SAFE:
  the model stops where a platform might do something else. It cannot be raised when ADDR_W is 64. -/
  | outsideDmaSpace
deriving DecidableEq, Repr

/-- Why an instruction has no meaning. -/
inductive Refusal where
  /-- An instruction without a meaning yet. Raised only by an arm of `exec`; no arm does. SAFE: the model stops. -/
  | notModelled (mnemonic : String)
deriving DecidableEq, Repr

/-- The machine right after reset (R49, R210). Every register has a reset value in the spec. The platform's parameters, the
empty list of actions, the response and the draw counter are the model's own (DESIGN CHOICE, log 1, 4, 6, 13). -/
def State.reset : State where
  platform := defaultPlatform
  status := { err := false, verify := false, errcode := 0x00 }
  param := 0x0000000C060C0100
  intEn := 0
  intStat := 0
  adAddr := 0
  adLen := 0
  inAddr := 0
  inLen := 0
  outAddr := 0
  key := Vector.replicate 16 0
  nonce := Vector.replicate 16 0
  tag := Vector.replicate 16 0
  y := Vector.replicate 16 0
  subkey := Vector.replicate 34 0
  permState := Vector.replicate 50 0
  running := none
  memory := []
  inputs := []
  response := .none
  draws := 0

end Sys2Proof.Machine
end

