-- ==== Sys2Proof/Machine/Operands.lean ====
section
/-!
DEFINITION. The operands of the commands. R, MODE and INST come from the command word (R87, `Decode.lean`); every other operand is a
named register (R87) or a DMA buffer that address and length registers give (R33 to R35).
-/

namespace Sys2Proof.Machine

/-- STATUS.BUSY: the hidden mode (R26, R46). -/
def State.busy (s : State) : Bool := s.running.isSome

/-- The parameters PARAM holds (R27). -/
def State.params (s : State) : Params := paramsOf s.param

/-- A buffer of the DMA space: its start address and its length in bytes. -/
structure Buffer where
  start : Nat
  len : Nat
deriving DecidableEq, Repr

/-- The associated data: AD_ADDR, AD_LEN (R33). -/
def State.adBuf (s : State) : Buffer := { start := s.adAddr.toNat, len := s.adLen.toNat }

/-- The input: IN_ADDR, IN_LEN (R34). -/
def State.inBuf (s : State) : Buffer := { start := s.inAddr.toNat, len := s.inLen.toNat }

/-- The output: OUT_ADDR, and always IN_LEN bytes (R35). -/
def State.outBuf (s : State) : Buffer := { start := s.outAddr.toNat, len := s.inLen.toNat }

/-- The address `a` is one of the buffer's bytes. -/
def Buffer.has (b : Buffer) (a : Nat) : Bool := decide (b.start ≤ a ∧ a < b.start + b.len)

/-- Two buffers share a byte (R71): both are non-empty, and each starts below the other's end. -/
def Buffer.sharesByte (b c : Buffer) : Bool :=
  decide (0 < b.len ∧ 0 < c.len ∧ b.start < c.start + c.len ∧ c.start < b.start + b.len)

end Sys2Proof.Machine
end

