-- ==== Sys2Proof/Machine/Flags.lean ====
section
/-!
DEFINITION. STATUS (R26), the error codes (R191), what a completion writes (R184), INT_STAT (R31) and irq (R32).
-/

namespace Sys2Proof.Machine

/-- The errors a command can end with (R191). -/
inductive ErrorCode where
  /-- The word is no command (R90). -/
  | illegal
  /-- An illegal round count (R115, R182). -/
  | rounds
  /-- A buffer runs past 2^ADDR_W (R70). -/
  | range
  /-- OUT shares a byte with IN or AD (R71). -/
  | overlap
  /-- A DMA transaction answered with an error (R194). -/
  | bus
deriving DecidableEq, Repr

/-- The code STATUS.ERRCODE holds (R191). -/
def ErrorCode.code : ErrorCode → BitVec 8
  | .illegal => 0x01
  | .rounds => 0x02
  | .range => 0x03
  | .overlap => 0x04
  | .bus => 0x05

/-- STATUS after a completion without an error; VERIFY is 1 only for an AEAD_DEC whose tag matched (R184). -/
def okStatus (verify : Bool) : Status := { err := false, verify := verify, errcode := 0x00 }

/-- STATUS after a completion with an error (R184, R190). -/
def errorStatus (e : ErrorCode) : Status := { err := true, verify := false, errcode := e.code }

/-- A one-bit flag in its place in a register. -/
def flagBit (b : Bool) (place : Nat) : Word64 := if b then 1#64 <<< place else 0

/-- STATUS as a host reads it (R26). -/
def State.statusWord (s : State) : Word64 :=
  flagBit s.busy 0 ||| flagBit s.status.err 1 ||| flagBit s.status.verify 2 ||| (s.status.errcode.setWidth 64 <<< 8)

/-- INT_STAT.DONE (R31). -/
def intDone : BitVec 2 := 0b01

/-- INT_STAT.OVERRUN (R31). -/
def intOverrun : BitVec 2 := 0b10

/-- A write-one-to-clear register after a host write: each bit written 1 is cleared (R23, R31). -/
def clearOnes (old written : BitVec 2) : BitVec 2 := old &&& ~~~written

/-- The interrupt output: the OR of the enabled pending bits (R32, R199). -/
def State.irq (s : State) : Bool := decide (s.intStat &&& s.intEn ≠ 0)

/-- A host write that the busy engine ignored sets INT_STAT.OVERRUN and nothing else (R180). -/
def setOverrun (s : State) : State := { s with intStat := s.intStat ||| intOverrun }

end Sys2Proof.Machine
end

