-- ==== Sys2Proof/Machine/Ops.lean ====
section
/-!
DEFINITION. The named operations that the commands share: the DMA space (R66 to R69) with its races (R216, R218), the acceptance checks (R181),
completion (R47, R184), completion with an error (R190: this engine's only form of taking an exception), and the two phases of a
command (R175).
-/

namespace Sys2Proof.Machine

/-! ### The DMA space -/

/-- What a byte that nothing has written reads as (DESIGN CHOICE, log 5, unsafe: the spec gives the DMA space no reset contents, R49). -/
def unwrittenByte : Byte := 0x00

/-- The canonical form of the DMA space: addresses strictly rising, no listed byte equal to `unwrittenByte`. -/
abbrev Memory.wf (m : Memory) : Prop := m.Pairwise (fun c d => c.1 < d.1) ∧ ∀ c ∈ m, c.2 ≠ unwrittenByte

/-- The byte at an address (R69). A read changes nothing, at any address: R69 leaves a side effect on the platform to the platform, and here there is none
(DESIGN CHOICE, log 25, unsafe). -/
def readByte : Memory → Nat → Byte
  | [], _ => unwrittenByte
  | (b, v) :: m, a => if a = b then v else readByte m a

/-- Stores a byte at an address (R69), keeping the canonical form. -/
def writeByte : Memory → Nat → Byte → Memory
  | [], a, v => if v = unwrittenByte then [] else [(a, v)]
  | (b, w) :: m, a, v =>
    if a < b then (if v = unwrittenByte then (b, w) :: m else (a, v) :: (b, w) :: m)
    else if a = b then (if v = unwrittenByte then m else (a, v) :: m)
    else (b, w) :: writeByte m a v

/-- MemRead(a, n) of R69, in a memory nobody else touches. -/
def readBytes (m : Memory) (a : Nat) : Nat → Bytes
  | 0 => []
  | n + 1 => readByte m a :: readBytes m (a + 1) n

/-- MemWrite of R69. -/
def writeBytes (m : Memory) (a : Nat) : Bytes → Memory
  | [] => m
  | b :: bs => writeBytes (writeByte m a b) (a + 1) bs

/-! ### Free choices and races -/

/-- One of `x :: others`, and the next draw. With no other candidate there is no draw; otherwise the free choice decides (log 6). -/
def pick (x : Byte) (others : List Byte) (d : Nat) : Byte × Nat :=
  if others = [] then (x, d)
  else ((x :: others).getD (Config.freeChoice d % (others.length + 1)) x, d + 1)

/-- The values the byte at `a` held earlier in the running command (R216). -/
def heldBefore (raced : List Host.Cell) (a : Nat) : List Byte := (raced.filter fun c => c.1 = a).map (·.2)

/-- The value the byte at `a` held after the first `n` host writes of a race record, if it holds `v` now: every later write is undone (R216). -/
def heldAfter (a : Nat) (v : Byte) : List Host.Cell → Nat → Byte
  | [], _ => v
  | c :: earlier, n =>
    if earlier.length < n then v else heldAfter a (if c.1 = a then c.2 else v) earlier n

/-- The command has made its `j`-th byte read: the host writes up to now include every one that came before it (log 7). -/
def readDone (r : Running) (j : Nat) : Bool := decide (Config.readMoment r.ticket j ≤ r.raced.length)

/-- The engine's MemRead by a running command; `j` is the number of its first byte read. Each byte has the value it held at that read's own moment, which is
free: so each read returns any value the byte held from acceptance to now, and the reads are independent (R216, U7) (DEDUCED, log 7, safe). Reading changes neither
the DMA space nor anything else (R69; DESIGN CHOICE on the platform's side, log 25, unsafe). -/
def engineRead (r : Running) (m : Memory) (a : Nat) : Nat → Nat → Bytes
  | 0, _ => []
  | n + 1, j => heldAfter a (readByte m a) r.raced (Config.readMoment r.ticket j) :: engineRead r m (a + 1) n (j + 1)

/-- The engine's MemWrite as completion leaves it: a byte a host wrote during the command holds the host's value or the engine's (R218, U9)
(DEDUCED, log 9, safe). -/
def engineWrite (raced : List Host.Cell) (m : Memory) (a : Nat) : Bytes → Nat → Memory × Nat
  | [], d => (m, d)
  | b :: bs, d =>
    let here := if heldBefore raced a = [] then (b, d) else pick b [readByte m a] d
    engineWrite raced (writeByte m a here.1) (a + 1) bs here.2

/-- Every byte of a range takes an unspecified value (R194, R211): a free value each. -/
def spoilBytes (m : Memory) (a : Nat) : Nat → Nat → Memory × Nat
  | 0, d => (m, d)
  | n + 1, d => spoilBytes (writeByte m a (Config.freeByte d)) (a + 1) n (d + 1)

/-! ### How a command's DMA ends -/

/-- How the DMA transactions of a command end. -/
inductive DmaEnd where
  /-- Every transaction was answered without an error. -/
  | done
  /-- A transaction answered with an error; no later one is issued (R194). -/
  | error
  /-- A transaction is never answered (R189). -/
  | silent
deriving DecidableEq, Repr

/-- The address lies in one of the ranges. -/
def inRanges (rs : List AddrRange) (a : Nat) : Bool := rs.any fun r => decide (r.lo ≤ a ∧ a < r.lo + r.len)

/-- BUS_ERROR(a) (R194, U11). -/
def busErrorAt (pl : Platform) (a : Nat) : Bool := inRanges pl.busError a

/-- A transaction at `a` is never answered (R189, U10). -/
def silentAt (pl : Platform) (a : Nat) : Bool := inRanges pl.noResponse a

/-- How a sequence of one-byte transactions ends: the first that does not answer well decides (R194, R189) (log 10). -/
def dmaEnd (pl : Platform) : List Nat → DmaEnd
  | [] => .done
  | a :: rest => if busErrorAt pl a then .error else if silentAt pl a then .silent else dmaEnd pl rest

/-- The transactions that a sequence comes to: up to and with the first that does not answer well; no later one is issued (R194, R189) (log 10). -/
def issued (pl : Platform) : List Nat → List Nat
  | [] => []
  | a :: rest => if busErrorAt pl a || silentAt pl a then [a] else a :: issued pl rest

/-- The addresses of `n` bytes from `a`, rising. -/
def addrsFrom (a n : Nat) : List Nat := (List.range n).map (a + ·)

/-- The addresses of a buffer, in the order a read of the whole buffer takes them (R79). -/
def Buffer.addrs (b : Buffer) : List Nat := addrsFrom b.start b.len

/-- The number of r_H-byte blocks of a string of `len` bytes, the last possibly short (R143). -/
def blockCount (rate len : Nat) : Nat := (len + rate - 1) / rate

/-- The addresses of an Enc phase: block by block, the IN bytes of a block before its OUT bytes (R79). -/
def encAddrs (rate : Nat) (inp out : Buffer) : List Nat :=
  (List.range (blockCount rate inp.len)).flatMap fun b =>
    let n := min rate (inp.len - b * rate)
    addrsFrom (inp.start + b * rate) n ++ addrsFrom (out.start + b * rate) n

/-! ### Completion -/

/-- The register writes of every completion: the engine is IDLE again, STATUS and INT_STAT.DONE (R47, R184). -/
def complete (status : Status) (s : State) : State :=
  { s with running := none, status := status, intStat := s.intStat ||| intDone }

/-- `raise Error(code)` (R190): the command completes with ERR = 1 and the code. This is all the engine has of taking an exception: no
register saves anything, no handler runs, and there is no return (R190, R200). A host clears the error with its next command (R197). -/
def completeError (e : ErrorCode) (s : State) : State := complete (errorStatus e) s

/-- Zeroization of STATE and SUBKEY (R183). -/
def zeroizeWork (s : State) : State :=
  { s with permState := Vector.replicate 50 0, subkey := Vector.replicate 34 0 }

/-! ### Acceptance -/

/-- The first error of a list of checks (R181: later ones are not evaluated). -/
def firstError : List (Option ErrorCode) → Option ErrorCode
  | [] => none
  | some e :: _ => some e
  | none :: rest => firstError rest

/-- PERM's own check: 1 ≤ R ≤ RMAX of the selected permutation (R115). -/
def checkPermRounds (rounds : Nat) (s : State) : Option ErrorCode :=
  if legalRounds s.params.perm rounds then none else some .rounds

/-- `check_rounds()` (R182). -/
def checkRounds (s : State) : Option ErrorCode := if s.params.legal then none else some .rounds

/-- `check_range` (R70): a buffer of length 0 always passes; the sum does not wrap. -/
def checkRange (b : Buffer) (s : State) : Option ErrorCode :=
  if b.len = 0 ∨ b.start + b.len ≤ 2 ^ s.platform.addrW.val then none else some .range

/-- `check_disjoint` (R71). -/
def checkDisjoint (b c : Buffer) : Option ErrorCode := if b.sharesByte c then some .overlap else none

/-- The acceptance checks of each command, in R181's order: rounds, then range, then overlap. -/
def acceptanceError (i : Instr) (s : State) : Option ErrorCode :=
  match i with
  | .nop => none
  | .perm rounds => checkPermRounds rounds s
  | .rk _ => checkRounds s
  | .enc =>
    firstError [checkRounds s, checkRange s.inBuf s, checkRange s.outBuf s, checkDisjoint s.outBuf s.inBuf]
  | .mac => firstError [checkRounds s, checkRange s.inBuf s, checkRange s.adBuf s]
  | .aeadEnc =>
    firstError [checkRounds s, checkRange s.inBuf s, checkRange s.adBuf s, checkRange s.outBuf s,
      checkDisjoint s.outBuf s.inBuf, checkDisjoint s.outBuf s.adBuf]
  | .aeadDec =>
    firstError [checkRounds s, checkRange s.inBuf s, checkRange s.adBuf s, checkRange s.outBuf s,
      checkDisjoint s.outBuf s.inBuf, checkDisjoint s.outBuf s.adBuf]
  | .setinst _ => none
  | .clear => none

/-- Acceptance of a command that runs: the engine becomes BUSY and VERIFY is 0; ERR, ERRCODE and INT_STAT keep their values (R179). R26 says that VERIFY is
written by a completion and else cleared only by reset; the two rules disagree on VERIFY between acceptance and completion, and the model follows R179
(DESIGN CHOICE, log 23, unsafe). The ticket is the model's own (log 7). -/
def accept (i : Instr) (s : State) : State :=
  { s with
    running := some { cmd := i, raced := [], hung := false, ticket := s.draws }
    status := { s.status with verify := false }
    draws := s.draws + 1 }

/-! ### The two phases of a command (R175, log 20) -/

/-- A command that completes at acceptance: NOP, SETINST, CLEAR (R175 stage 3). While the engine is BUSY the word is ignored (R180). -/
def runAtOnce (effect : State → State) (s : State) : Host.Outcome State Fault Refusal :=
  match s.running with
  | none => .next (complete (okStatus false) (effect s))
  | some _ => .next (setOverrun s)

/-- A command that runs: PERM, RK, ENC, MAC, AEAD_ENC, AEAD_DEC. While the engine is IDLE: its acceptance, which an error completes at once
(R192) and which otherwise makes the engine BUSY (R179). While the engine is BUSY with this command: its completion step (R47), unless a DMA transaction of
it was never answered (R189). While the engine is BUSY with another command: the word is ignored (R180). -/
def runPhases (i : Instr) (completion : Running → State → State) (s : State) : Host.Outcome State Fault Refusal :=
  match s.running with
  | none =>
    match acceptanceError i s with
    | some e => .next (completeError e s)
    | none => .next (accept i s)
  | some r =>
    if r.cmd = i then .next (if r.hung then s else completion r s)
    else .next (setOverrun s)

/-! ### Completion of a command that uses DMA -/

/-- What a DMA command computed when its completion step comes (R176). -/
structure Plan where
  /-- How its DMA transactions ended. -/
  dma : DmaEnd
  /-- The bytes it writes at OUT_ADDR; `none` if it writes no OUT byte at all (MAC; AEAD_DEC without a matching tag, R170). -/
  out : Option Bytes
  /-- The tag it writes to TAG. -/
  tag : Option (Vector Byte 16)
  /-- STATUS.VERIFY at a completion without an error. -/
  verify : Bool
deriving DecidableEq, Repr

/-- The engine's writes to OUT. -/
def storeOut (r : Running) (out : Option Bytes) (s : State) : State :=
  match out with
  | none => s
  | some bytes =>
    let w := engineWrite r.raced s.memory s.outAddr.toNat bytes s.draws
    { s with memory := w.1, draws := w.2 }

/-- The whole OUT range takes unspecified values (R194, R211). -/
def spoilOut (s : State) : State :=
  let w := spoilBytes s.memory s.outAddr.toNat s.inLen.toNat s.draws
  { s with memory := w.1, draws := w.2 }

/-- TAG takes the computed tag, if the command writes one (R38). -/
def storeTag (tag : Option (Vector Byte 16)) (s : State) : State :=
  match tag with
  | none => s
  | some t => { s with tag := t }

/-- The completion step of a DMA command. Normal: OUT, TAG, zeroization, flags (R47, R183, R184). After a bus error: STATE and SUBKEY zeroized, TAG kept,
OUT unspecified unless the command was to write no OUT byte (R193, R194). A transaction that is never answered: BUSY for ever (R189). -/
def finish (p : Plan) (r : Running) (s : State) : State :=
  match p.dma with
  | .done => complete (okStatus p.verify) (zeroizeWork (storeTag p.tag (storeOut r p.out s)))
  | .error => completeError .bus (zeroizeWork (if p.out.isSome then spoilOut s else s))
  | .silent => { s with running := some { r with hung := true } }

end Sys2Proof.Machine
end

