-- ==== Sys2Proof/Machine/Aperture.lean ====
section
/-!
DEFINITION. The register aperture (R22 to R45): which register an access reaches (R72, R73), what a read returns (R23, R43), what a write does to a
register, and the busy rule for writes (R180).
-/

namespace Sys2Proof.Machine

/-- The registers of the aperture (R22); the number is the 64-bit word of a byte-string register. -/
inductive Reg where
  | id
  | cmd
  | status
  | param
  | intEn
  | intStat
  | adAddr
  | adLen
  | inAddr
  | inLen
  | outAddr
  | key (w : Nat)
  | nonce (w : Nat)
  | tag (w : Nat)
  | y (w : Nat)
  | subkey (w : Nat)
  | permState (w : Nat)
  | reserved
deriving DecidableEq, Repr

/-- The register at offset `8 * k` of the aperture (R22, R45). -/
def regAt (k : Nat) : Reg :=
  if k = 0 then .id
  else if k = 1 then .cmd
  else if k = 2 then .status
  else if k = 3 then .param
  else if k = 4 then .intEn
  else if k = 5 then .intStat
  else if k = 6 then .adAddr
  else if k = 7 then .adLen
  else if k = 8 then .inAddr
  else if k = 9 then .inLen
  else if k = 10 then .outAddr
  else if k = 11 then .reserved
  else if k < 14 then .key (k - 12)
  else if k < 16 then .nonce (k - 14)
  else if k < 18 then .tag (k - 16)
  else if k < 20 then .y (k - 18)
  else if k < 25 then .subkey (k - 20)
  else if k < 32 then .reserved
  else if k < 39 then .permState (k - 32)
  else .reserved

/-- The constant ID holds (R24). -/
def idValue : Word64 := 0x0003010050415349

/-- Word `w` of a byte-string register: `Σ X[8w + k] · 2^(8k)`, a byte beyond the string counting as 0 (R44). -/
def regWord (x : Bytes) (w : Nat) : Word64 := BitVec.ofNat 64 (leNat (slice x (8 * w) 8))

/-- A byte-string register after its word `w` is set (R44). -/
def setRegWord {n : Nat} (x : Vector Byte n) (w : Nat) (v : Word64) : Vector Byte n :=
  Vector.ofFn fun i : Fin n => if i.val / 8 = w then (v >>> (8 * (i.val % 8))).setWidth 8 else x[i.val]

/-- The implemented bits of a register (R22's width used, R26, R27, R40, R41). -/
def Reg.implemented : Reg → Word64
  | .id => 0xFFFFFFFFFFFFFFFF
  | .cmd => 0x00000000FFFFFFFF
  | .status => 0x000000000000FF07
  | .param => paramMask
  | .intEn => 0x0000000000000003
  | .intStat => 0x0000000000000003
  | .adAddr => 0xFFFFFFFFFFFFFFFF
  | .adLen => 0xFFFFFFFFFFFFFFFF
  | .inAddr => 0xFFFFFFFFFFFFFFFF
  | .inLen => 0xFFFFFFFFFFFFFFFF
  | .outAddr => 0xFFFFFFFFFFFFFFFF
  | .key _ => 0xFFFFFFFFFFFFFFFF
  | .nonce _ => 0xFFFFFFFFFFFFFFFF
  | .tag _ => 0xFFFFFFFFFFFFFFFF
  | .y _ => 0xFFFFFFFFFFFFFFFF
  | .subkey w => if w < 4 then 0xFFFFFFFFFFFFFFFF else 0x000000000000FFFF
  | .permState w => if w < 6 then 0xFFFFFFFFFFFFFFFF else 0x000000000000FFFF
  | .reserved => 0

/-- What a register holds (R24 to R41). CMD has no storage (R25). -/
def Reg.stored (r : Reg) (s : State) : Word64 :=
  match r with
  | .id => idValue
  | .cmd => 0
  | .status => s.statusWord
  | .param => s.param
  | .intEn => s.intEn.setWidth 64
  | .intStat => s.intStat.setWidth 64
  | .adAddr => s.adAddr
  | .adLen => s.adLen
  | .inAddr => s.inAddr
  | .inLen => s.inLen
  | .outAddr => s.outAddr
  | .key w => regWord s.key.toList w
  | .nonce w => regWord s.nonce.toList w
  | .tag w => regWord s.tag.toList w
  | .y w => regWord s.y.toList w
  | .subkey w => regWord s.subkey.toList w
  | .permState w => regWord s.permState.toList w
  | .reserved => 0

/-- What a host read of a register returns: KEY and CMD are write-only (R25, R36), STATE and SUBKEY read 0 while BUSY (R43), a reserved
offset reads 0 (R45). -/
def Reg.visible (r : Reg) (s : State) : Word64 :=
  match r with
  | .key _ => 0
  | .subkey w => if s.busy then 0 else Reg.stored (.subkey w) s
  | .permState w => if s.busy then 0 else Reg.stored (.permState w) s
  | r => r.stored s

/-- Sets a register that a host may write; the read-only ones ignore it (R23). CMD and INT_STAT are not set this way. -/
def Reg.set (r : Reg) (v : Word64) (s : State) : State :=
  match r with
  | .id => s
  | .cmd => s
  | .status => s
  | .param => { s with param := v }
  | .intEn => { s with intEn := v.setWidth 2 }
  | .intStat => s
  | .adAddr => { s with adAddr := v }
  | .adLen => { s with adLen := v }
  | .inAddr => { s with inAddr := v }
  | .inLen => { s with inLen := v }
  | .outAddr => { s with outAddr := v }
  | .key w => { s with key := setRegWord s.key w v }
  | .nonce w => { s with nonce := setRegWord s.nonce w v }
  | .tag w => { s with tag := setRegWord s.tag w v }
  | .y w => { s with y := setRegWord s.y w v }
  | .subkey _ => s
  | .permState w => { s with permState := setRegWord s.permState w v }
  | .reserved => s

/-- What an access of the right size and alignment reaches: a register and the bits of it (R73). -/
structure Access where
  reg : Reg
  /-- How far the data lies from bit 0 of the register: 0 or 32. -/
  shift : Nat
  /-- The bits of the register the access reaches. -/
  lanes : Word64
deriving DecidableEq, Repr

/-- Which access an offset and a size make: 8 bytes at a multiple of 8, or 4 bytes at a multiple of 4; no other (R72). -/
def accessAt (off size : Nat) : Option Access :=
  if size = 8 ∧ off % 8 = 0 then
    some { reg := regAt (off / 8), shift := 0, lanes := 0xFFFFFFFFFFFFFFFF }
  else if size = 4 ∧ off % 4 = 0 then
    some { reg := regAt (off / 8), shift := 8 * (off % 8), lanes := 0x00000000FFFFFFFF <<< (8 * (off % 8)) }
  else none

/-- The data a host read returns: an answer that is not OKAY returns 0 (R72). -/
def Response.data : Response → Word64
  | .none => 0
  | .okay data => data
  | .slverr => 0
  | .unclaimed => 0

/-- The engine decodes the address: it lies in the aperture at BASE (R22). -/
def inAperture (pl : Platform) (addr : Word64) : Bool := decide (addr.extractLsb' 9 55 = pl.basePage)

/-- The offset of an address in the aperture (R22). -/
def apertureOffset (addr : Word64) : Nat := (addr.extractLsb' 0 9).toNat

/-- The bus address of an offset of the aperture (R22). -/
def busAddr (pl : Platform) (off : BitVec 9) : Word64 := (pl.basePage.setWidth 64 <<< 9) ||| off.setWidth 64

/-- A register value after a write of the bits `lanes` (R23, R73): the others are kept, unimplemented bits are 0. -/
def mergeWrite (old data lanes implemented : Word64) : Word64 :=
  ((old &&& ~~~lanes) ||| (data &&& lanes)) &&& implemented

/-- A host write that reaches a register other than CMD while IDLE. INT_EN and INT_STAT may be written at any time (R30, R31). While BUSY every other
write is ignored and sets OVERRUN (R180), unless it reaches no implemented bit (U15; DEDUCED, log 14). -/
def writeReg (a : Access) (data : Word64) (s : State) : State :=
  match a.reg with
  | .intEn => Reg.set .intEn (mergeWrite (Reg.stored .intEn s) data a.lanes (Reg.implemented .intEn)) s
  | .intStat => { s with intStat := clearOnes s.intStat ((data &&& a.lanes).setWidth 2) }
  | r =>
    if s.busy then (if a.lanes &&& r.implemented = 0 then s else setOverrun s)
    else r.set (mergeWrite (r.stored s) data a.lanes r.implemented) s

/-- A host read (R72 to R74). Its only effect is the response. -/
def hostRead (addr : Word64) (size : Nat) (s : State) : State :=
  if inAperture s.platform addr then
    match accessAt (apertureOffset addr) size with
    | none => { s with response := .slverr }
    | some a => { s with response := .okay ((a.reg.visible s &&& a.lanes) >>> a.shift) }
  else { s with response := .unclaimed }

/-- A host write (R72 to R75). A write that covers CMD bits 31:0 while the engine is IDLE presents them as a command word (R25, R178); bits 63:32 of CMD have no
effect (R25). -/
def hostWrite (present : Word32 → State → Host.Outcome State Fault Refusal) (addr : Word64) (size : Nat) (data : Word64)
    (s : State) : Host.Outcome State Fault Refusal :=
  if inAperture s.platform addr then
    match accessAt (apertureOffset addr) size with
    | none => .next { s with response := .slverr }
    | some a =>
      let s := { s with response := .okay 0 }
      if a.reg = .cmd ∧ s.busy = false then
        (if a.shift = 0 then present (data.setWidth 32) s else .next s)
      else .next (writeReg a (data <<< a.shift) s)
  else .next { s with response := .unclaimed }

end Sys2Proof.Machine
end

