-- ==== Sys2Proof/Machine/Ascon.lean ====
section
/-!
DEFINITION. Ascon-p (R100 to R106) and the conversions between its 40-byte state and its five lanes (R60, R61).
-/

namespace Sys2Proof.Machine

/-- The five lanes of Ascon-p (R100). -/
structure AsconState where
  x0 : Lane64
  x1 : Lane64
  x2 : Lane64
  x3 : Lane64
  x4 : Lane64
deriving DecidableEq, Repr

/-- `rotr64(x, k)` for 0 < k < 64 (R13). -/
def rotr64 (x : Lane64) (k : Nat) : Lane64 := (x >>> k) ||| (x <<< (64 - k))

/-- The round constants RC_A (R101). -/
def asconRoundConstants : List Byte :=
  [0xf0, 0xe1, 0xd2, 0xc3, 0xb4, 0xa5, 0x96, 0x87, 0x78, 0x69, 0x5a, 0x4b]

/-- The constant addition p_C of round `i` (R102). -/
def asconPC (i : Nat) (x : AsconState) : AsconState :=
  { x with x2 := x.x2 ^^^ (asconRoundConstants.getD i 0).setWidth 64 }

/-- The substitution layer p_S (R103): all five products are taken from the values before the update. -/
def asconPS (x : AsconState) : AsconState :=
  let a0 := x.x0 ^^^ x.x4
  let a1 := x.x1
  let a2 := x.x2 ^^^ x.x1
  let a3 := x.x3
  let a4 := x.x4 ^^^ x.x3
  let t0 := ~~~a0 &&& a1
  let t1 := ~~~a1 &&& a2
  let t2 := ~~~a2 &&& a3
  let t3 := ~~~a3 &&& a4
  let t4 := ~~~a4 &&& a0
  let b0 := a0 ^^^ t1
  let b1 := a1 ^^^ t2
  let b2 := a2 ^^^ t3
  let b3 := a3 ^^^ t4
  let b4 := a4 ^^^ t0
  { x0 := b0 ^^^ b4, x1 := b1 ^^^ b0, x2 := ~~~b2, x3 := b3 ^^^ b2, x4 := b4 }

/-- The column of bit position `b` over the five lanes, lane x0 most significant (R104). -/
def asconColumn (x : AsconState) (b : Nat) : Nat :=
  16 * (x.x0.getLsbD b).toNat + 8 * (x.x1.getLsbD b).toNat + 4 * (x.x2.getLsbD b).toNat + 2 * (x.x3.getLsbD b).toNat +
    (x.x4.getLsbD b).toNat

/-- The S-box as a lookup table (R104). -/
def asconSBox : List Nat :=
  [0x04, 0x0b, 0x1f, 0x14, 0x1a, 0x15, 0x09, 0x02, 0x1b, 0x05, 0x08, 0x12, 0x1d, 0x03, 0x06, 0x1c,
   0x1e, 0x13, 0x07, 0x0e, 0x00, 0x0d, 0x11, 0x18, 0x10, 0x0c, 0x01, 0x19, 0x16, 0x0a, 0x0f, 0x17]

/-- One lane of the diffusion layer (R105). -/
def asconMix (x : Lane64) (a b : Nat) : Lane64 := x ^^^ rotr64 x a ^^^ rotr64 x b

/-- The linear diffusion layer p_L (R105). -/
def asconPL (x : AsconState) : AsconState where
  x0 := asconMix x.x0 19 28
  x1 := asconMix x.x1 61 39
  x2 := asconMix x.x2 1 6
  x3 := asconMix x.x3 10 17
  x4 := asconMix x.x4 7 41

/-- Round `i` (R100). -/
def asconRound (x : AsconState) (i : Nat) : AsconState := asconPL (asconPS (asconPC i x))

/-- The indices of the last `rounds` of `total` rounds, rising (R106, R113). -/
def tailRounds (total rounds : Nat) : List Nat := (List.range rounds).map (total - rounds + ·)

/-- Ascon-p with R rounds, 1 ≤ R ≤ 12 (R106). -/
def asconP (x : AsconState) (rounds : Nat) : AsconState := (tailRounds 12 rounds).foldl asconRound x

/-- Lane `j` of the byte state, big-endian (R60). -/
def asconLane (x : Bytes) (j : Nat) : Lane64 := BitVec.ofNat 64 (beNat (slice x (8 * j) 8))

/-- Bytes to lanes (R60). -/
def bytesToLanesA (x : Bytes) : AsconState where
  x0 := asconLane x 0
  x1 := asconLane x 1
  x2 := asconLane x 2
  x3 := asconLane x 3
  x4 := asconLane x 4

/-- Lanes to bytes (R61). -/
def lanesToBytesA (x : AsconState) : Bytes :=
  beBytes x.x0.toNat 8 ++ beBytes x.x1.toNat 8 ++ beBytes x.x2.toNat 8 ++ beBytes x.x3.toNat 8 ++ beBytes x.x4.toNat 8

end Sys2Proof.Machine
end

