-- ==== Sys2Proof/Machine/Keccak.lean ====
section
/-!
DEFINITION. Keccak-p[400] (R107 to R113) and the conversions between its 50-byte state and its twenty-five lanes (R62 to R64). The spec
marks θ, π, χ and the direction of rotation as general knowledge (PRESUMED by the spec, log 18); the model follows its rules.
-/

namespace Sys2Proof.Machine

/-- The twenty-five lanes of Keccak-p[400], in index order (R107). -/
abbrev KeccakState := Vector Lane16 25

/-- The lane at coordinates (x, y), each taken mod 5: lane 5y + x (R64). -/
def keccakLane (a : KeccakState) (x y : Nat) : Lane16 := a[5 * (y % 5) + x % 5]'(by omega)

/-- The state whose lane at (x, y) is `f x y` (R64). -/
def keccakBuild (f : Nat → Nat → Lane16) : KeccakState := Vector.ofFn fun i : Fin 25 => f (i.val % 5) (i.val / 5)

/-- `rotl16(x, k)` for 0 ≤ k < 16 (R13). -/
def rotl16 (x : Lane16) (k : Nat) : Lane16 := (x <<< k) ||| (x >>> (16 - k))

/-- The column parity C[x] of θ (R108). -/
def keccakParity (a : KeccakState) (x : Nat) : Lane16 :=
  keccakLane a x 0 ^^^ keccakLane a x 1 ^^^ keccakLane a x 2 ^^^ keccakLane a x 3 ^^^ keccakLane a x 4

/-- θ (R108). -/
def keccakTheta (a : KeccakState) : KeccakState :=
  keccakBuild fun x y => keccakLane a x y ^^^ (keccakParity a (x + 4) ^^^ rotl16 (keccakParity a (x + 1)) 1)

/-- The ρ offsets r[x, y] mod 16 in lane-index order (R109, which corrects the source's list: spec/90_conflicts.md C1). -/
def keccakOffsets : List Nat :=
  [0, 1, 14, 12, 11,
   4, 12, 6, 7, 4,
   3, 10, 11, 9, 7,
   9, 13, 15, 5, 8,
   2, 2, 13, 8, 14]

/-- The coordinates the standard ρ offsets are laid along: (x, y) ← (y, 2x + 3y mod 5), from (1, 0) (R109). -/
def rhoWalk : Nat → Nat × Nat
  | 0 => (1, 0)
  | t + 1 => ((rhoWalk t).2, (2 * (rhoWalk t).1 + 3 * (rhoWalk t).2) % 5)

/-- ρ (R109). -/
def keccakRho (a : KeccakState) : KeccakState :=
  keccakBuild fun x y => rotl16 (keccakLane a x y) (keccakOffsets.getD (5 * y + x) 0)

/-- π (R110). -/
def keccakPi (a : KeccakState) : KeccakState := keccakBuild fun x y => keccakLane a (x + 3 * y) x

/-- χ (R111). -/
def keccakChi (a : KeccakState) : KeccakState :=
  keccakBuild fun x y => keccakLane a x y ^^^ (~~~keccakLane a (x + 1) y &&& keccakLane a (x + 2) y)

/-- The round constants RC_K (R112). -/
def keccakRoundConstants : List Lane16 :=
  [0x0001, 0x8082, 0x808a, 0x8000, 0x808b, 0x0001, 0x8081, 0x8009, 0x008a, 0x0088,
   0x8009, 0x000a, 0x808b, 0x008b, 0x8089, 0x8003, 0x8002, 0x0080, 0x800a, 0x000a]

/-- ι of round `ir` (R112). -/
def keccakIota (a : KeccakState) (ir : Nat) : KeccakState := a.set 0 (a[0] ^^^ keccakRoundConstants.getD ir 0)

/-- Round `ir` (R107). -/
def keccakRound (a : KeccakState) (ir : Nat) : KeccakState :=
  keccakIota (keccakChi (keccakPi (keccakRho (keccakTheta a)))) ir

/-- Keccak-p[400] with R rounds, 1 ≤ R ≤ 20 (R113). -/
def keccakP400 (a : KeccakState) (rounds : Nat) : KeccakState := (tailRounds 20 rounds).foldl keccakRound a

/-- Bytes to lanes, little-endian (R62). -/
def bytesToLanesK (x : Bytes) : KeccakState := Vector.ofFn fun i : Fin 25 => BitVec.ofNat 16 (leNat (slice x (2 * i.val) 2))

/-- Lanes to bytes (R63). -/
def lanesToBytesK (a : KeccakState) : Bytes := a.toList.flatMap fun lane => leBytes lane.toNat 2

end Sys2Proof.Machine
end

