-- ==== Sys2Proof/Machine/Permutation.lean ====
section
/-!
DEFINITION. The byte-level permutation p (R114) and the meaning of PERM (R115).
-/

namespace Sys2Proof.Machine

/-- `p(X, R)`: the selected permutation on the byte string of the state (R114). -/
def permute (perm : PermSel) (x : Bytes) (rounds : Nat) : Bytes :=
  match perm with
  | .ascon => lanesToBytesA (asconP (bytesToLanesA x) rounds)
  | .keccak => lanesToBytesK (keccakP400 (bytesToLanesK x) rounds)

/-- What PERM leaves in STATE: `p` on the first n bytes, the others unchanged (R115). -/
def permResult (perm : PermSel) (rounds : Nat) (st : Vector Byte 50) : Vector Byte 50 :=
  let n := stateBytes perm
  toReg 50 (permute perm (st.toList.take n) rounds ++ st.toList.drop n)

/-- PERM (R115). It reads none of SB, SK, SE, SH and makes no DMA access. -/
def execPerm (rounds : Nat) (s : State) : Host.Outcome State Fault Refusal :=
  runPhases (.perm rounds)
    (fun _ s => complete (okStatus false) { s with permState := permResult s.params.perm rounds s.permState }) s

end Sys2Proof.Machine
end

