-- ==== Sys2Proof/Machine/Rekeying.lean ====
section
/-!
DEFINITION. The initialization vectors (R125), ISAP-Rk (R127 to R132) and the meaning of RK (R133).
-/

namespace Sys2Proof.Machine

/-- `IV(type)`, computed from the current parameters (R125, R126). -/
def isapIV (ps : Params) (type : Byte) : Bytes :=
  [type, 0x80, BitVec.ofNat 8 (8 * rateBytes ps.perm), 0x01,
   BitVec.ofNat 8 ps.sh, BitVec.ofNat 8 ps.sb, BitVec.ofNat 8 ps.se, BitVec.ofNat 8 ps.sk]

/-- IV_A, used by Mac (R125). -/
def ivA (ps : Params) : Bytes := isapIV ps 0x01

/-- IV_KA in MAC mode, IV_KE in ENC mode (R125, R128). -/
def ivK (ps : Params) : RkMode → Bytes
  | .mac => isapIV ps 0x02
  | .enc => isapIV ps 0x03

/-- Bit `i` of Y, MSB-first within each byte (R129; spec/90_conflicts.md C4). -/
def yBit (y : Bytes) (i : Nat) : Bool := (y.getD (i / 8) 0).getLsbD (7 - i % 8)

/-- XORs a bit into the most-significant bit of byte 0 (R130; spec/90_conflicts.md C3). -/
def absorbBit (x : Bytes) (bit : Bool) : Bytes :=
  match x with
  | [] => []
  | b :: rest => (b ^^^ (if bit then 0x80 else 0x00)) :: rest

/-- The rounds that follow bit `i` of Y: s_b, and s_k after the last (R131). -/
def rkRounds (ps : Params) (i : Nat) : Nat := if i < 127 then ps.sb else ps.sk

/-- The state after Rk's initialization (R128). -/
def rkInit (ps : Params) (k : Bytes) (mode : RkMode) : Bytes :=
  permute ps.perm (k ++ ivK ps mode ++ zeros (stateBytes ps.perm - 24)) ps.sk

/-- One absorb step of Rk: bit `i` of Y, then the permutation (R130, R131). -/
def rkStep (ps : Params) (y : Bytes) (x : Bytes) (i : Nat) : Bytes :=
  permute ps.perm (absorbBit x (yBit y i)) (rkRounds ps i)

/-- ISAP-Rk (R127). -/
def isapRk (ps : Params) (k y : Bytes) (mode : RkMode) : Bytes :=
  ((List.range 128).foldl (rkStep ps y) (rkInit ps k mode)).take (rkBytes ps.perm mode)

/-- RK (R133): SUBKEY takes the result, extended with zero bytes; STATE is zeroized (R134). -/
def execRk (mode : RkMode) (s : State) : Host.Outcome State Fault Refusal :=
  runPhases (.rk mode)
    (fun _ s => complete (okStatus false)
      { s with
        subkey := toReg 34 (isapRk s.params s.key.toList s.y.toList mode)
        permState := Vector.replicate 50 0 }) s

end Sys2Proof.Machine
end

