-- ==== Sys2Proof/Machine/Keystream.lean ====
section
/-!
DEFINITION. ISAP-Enc (R140 to R145) and the meaning of ENC (R142).
-/

namespace Sys2Proof.Machine

/-- The state ISAP-Enc starts from: K* and the nonce (R141). -/
def encInit (ps : Params) (k nonce : Bytes) : Bytes := isapRk ps k nonce .enc ++ nonce

/-- `blocks` blocks of keystream: the permutation with s_e rounds, then the first r_H bytes of the state (R143). The state is not changed by
the XOR. -/
def keystreamFrom (ps : Params) (x : Bytes) : Nat → Bytes
  | 0 => []
  | blocks + 1 =>
    let x' := permute ps.perm x ps.se
    x'.take (rateBytes ps.perm) ++ keystreamFrom ps x' blocks

/-- The keystream for an input of `len` bytes (R140, R143, R144). -/
def keystream (ps : Params) (k nonce : Bytes) (len : Nat) : Bytes :=
  keystreamFrom ps (encInit ps k nonce) (blockCount (rateBytes ps.perm) len)

/-- ISAP-Enc (R140): a short last block uses the front of its keystream block, because the XOR stops with the input. -/
def isapEnc (ps : Params) (k nonce x : Bytes) : Bytes := xorBytes x (keystream ps k nonce x.length)

/-- The DMA addresses of an Enc phase, in order (R79). -/
def encPhaseAddrs (s : State) : List Nat := encAddrs (rateBytes s.params.perm) s.inBuf s.outBuf

/-- What ENC computed when its completion step comes (R142). -/
def encPlan (r : Running) (s : State) : Plan :=
  let x := engineRead r s.memory s.inBuf.start s.inBuf.len 0
  { dma := dmaEnd s.platform (encPhaseAddrs s)
    out := some (isapEnc s.params s.key.toList s.nonce.toList x)
    tag := none
    verify := false }

/-- ENC (R142). -/
def execEnc (s : State) : Host.Outcome State Fault Refusal :=
  runPhases .enc (fun r s => finish (encPlan r s) r s) s

end Sys2Proof.Machine
end

