-- ==== Sys2Proof/Machine/Mac.lean ====
section
/-!
DEFINITION. ISAP-Mac (R150 to R158) and the meaning of MAC (R155).
-/

namespace Sys2Proof.Machine

/-- XORs a string into the front of the state (R152: only the first r_H bytes are touched). -/
def xorFront (x d : Bytes) : Bytes := xorBytes (x.take d.length) d ++ x.drop d.length

/-- One absorb step of Mac: a block of r_H bytes, then the permutation with s_h rounds (R152). -/
def absorbBlock (ps : Params) (x block : Bytes) : Bytes := permute ps.perm (xorFront x block) ps.sh

/-- The last block of Absorb: the leftover bytes, 0x80, zero bytes up to r_H (R153). -/
def padBlock (rate : Nat) (leftover : Bytes) : Bytes := leftover ++ [0x80] ++ zeros (rate - leftover.length - 1)

/-- Absorb(S, D) over `full` full blocks and the padded last one (R152). -/
def absorbBlocks (ps : Params) (x d : Bytes) : Nat → Bytes
  | 0 => absorbBlock ps x (padBlock (rateBytes ps.perm) d)
  | full + 1 =>
    absorbBlocks ps (absorbBlock ps x (d.take (rateBytes ps.perm))) (d.drop (rateBytes ps.perm)) full

/-- Absorb(S, D) (R152): the number of full blocks is d div r_H. -/
def absorb (ps : Params) (x d : Bytes) : Bytes := absorbBlocks ps x d (d.length / rateBytes ps.perm)

/-- The domain separator: the least-significant bit of the last state byte (R154). -/
def separate (ps : Params) (x : Bytes) : Bytes :=
  let last := stateBytes ps.perm - 1
  x.take last ++ [x.getD last 0 ^^^ 0x01]

/-- The state Mac starts from, after its first permutation (R151). -/
def macInit (ps : Params) (nonce : Bytes) : Bytes :=
  permute ps.perm (nonce ++ ivA ps ++ zeros (stateBytes ps.perm - 24)) ps.sh

/-- The finalization through Rk, with its window of 16 bytes (R157, R158). -/
def macFinish (ps : Params) (k x : Bytes) : Bytes :=
  (permute ps.perm (isapRk ps k (x.take 16) .mac ++ x.drop 16) ps.sh).take 16

/-- ISAP-Mac (R150). -/
def isapMac (ps : Params) (k nonce ad c : Bytes) : Bytes :=
  macFinish ps k (absorb ps (separate ps (absorb ps (macInit ps nonce) ad)) c)

/-- The DMA addresses of a Mac phase that reads both buffers: AD before IN (R79). -/
def macPhaseAddrs (s : State) : List Nat := s.adBuf.addrs ++ s.inBuf.addrs

/-- What MAC computed when its completion step comes (R155). Its byte reads are numbered AD first, then IN. -/
def macPlan (r : Running) (s : State) : Plan :=
  let ad := engineRead r s.memory s.adBuf.start s.adBuf.len 0
  let c := engineRead r s.memory s.inBuf.start s.inBuf.len s.adBuf.len
  { dma := dmaEnd s.platform (macPhaseAddrs s)
    out := none
    tag := some (toReg 16 (isapMac s.params s.key.toList s.nonce.toList ad c))
    verify := false }

/-- MAC (R155). -/
def execMac (s : State) : Host.Outcome State Fault Refusal :=
  runPhases .mac (fun r s => finish (macPlan r s) r s) s

end Sys2Proof.Machine
end

