-- ==== Sys2Proof/Machine/Aead.lean ====
section
/-!
DEFINITION. The AEAD driver (R165, R167) and the meanings of AEAD_ENC (R166) and AEAD_DEC (R168).
-/

namespace Sys2Proof.Machine

/-- The difference of two tags: the OR of all sixteen byte differences, no early exit (R167, R169). -/
def tagDifference (t t' : Bytes) : Byte := (xorBytes t t').foldl (· ||| ·) 0x00

/-- What AEAD_ENC computed when its completion step comes (R166): Enc of IN, then the tag over AD and the ciphertext as computed, not re-read
from OUT (R79). Its byte reads are numbered IN first, then AD. -/
def aeadEncPlan (r : Running) (s : State) : Plan :=
  let m := engineRead r s.memory s.inBuf.start s.inBuf.len 0
  let c := isapEnc s.params s.key.toList s.nonce.toList m
  let ad := engineRead r s.memory s.adBuf.start s.adBuf.len s.inBuf.len
  { dma := dmaEnd s.platform (encPhaseAddrs s ++ s.adBuf.addrs)
    out := some c
    tag := some (toReg 16 (isapMac s.params s.key.toList s.nonce.toList ad c))
    verify := false }

/-- AEAD_ENC (R166). -/
def execAeadEnc (s : State) : Host.Outcome State Fault Refusal :=
  runPhases .aeadEnc (fun r s => finish (aeadEncPlan r s) r s) s

/-- What AEAD_DEC computed when its completion step comes (R168). The Mac phase and the comparison come first (R79): a DMA failure before the verdict,
and a tag that differs, leave OUT unwritten (R194, R170). With a matching tag the Enc phase reads IN again. The byte
reads are numbered AD first, then IN, then IN again. -/
def aeadDecPlan (r : Running) (s : State) : Plan :=
  let ad := engineRead r s.memory s.adBuf.start s.adBuf.len 0
  let c := engineRead r s.memory s.inBuf.start s.inBuf.len s.adBuf.len
  let computed := isapMac s.params s.key.toList s.nonce.toList ad c
  match dmaEnd s.platform (macPhaseAddrs s) with
  | .done =>
    if tagDifference s.tag.toList computed = 0x00 then
      let c' := engineRead r s.memory s.inBuf.start s.inBuf.len (s.adBuf.len + s.inBuf.len)
      { dma := dmaEnd s.platform (encPhaseAddrs s)
        out := some (isapEnc s.params s.key.toList s.nonce.toList c')
        tag := none
        verify := true }
    else { dma := .done, out := none, tag := none, verify := false }
  | failed => { dma := failed, out := none, tag := none, verify := false }

/-- AEAD_DEC (R168). TAG is never written (R170). -/
def execAeadDec (s : State) : Host.Outcome State Fault Refusal :=
  runPhases .aeadDec (fun r s => finish (aeadDecPlan r s) r s) s

end Sys2Proof.Machine
end

