-- ==== Sys2Proof/Machine/Control.lean ====
section
/-!
DEFINITION. The control commands NOP (R185), SETINST (R186) and CLEAR (R187). They complete at acceptance (R175).
-/

namespace Sys2Proof.Machine

/-- NOP (R185). -/
def execNop (s : State) : Host.Outcome State Fault Refusal := runAtOnce (fun s => s) s

/-- SETINST (R186): PARAM takes the preset's value. -/
def execSetinst (inst : InstanceId) (s : State) : Host.Outcome State Fault Refusal :=
  runAtOnce (fun s => { s with param := presetParam (presetRow s.platform.presets inst) }) s

/-- The registers CLEAR zeroizes (R187). -/
def clearSecrets (s : State) : State :=
  { s with
    key := Vector.replicate 16 0
    nonce := Vector.replicate 16 0
    tag := Vector.replicate 16 0
    y := Vector.replicate 16 0
    subkey := Vector.replicate 34 0
    permState := Vector.replicate 50 0 }

/-- CLEAR (R187). -/
def execClear (s : State) : Host.Outcome State Fault Refusal := runAtOnce clearSecrets s

end Sys2Proof.Machine
end

