-- ==== Sys2Proof/Machine/Dispatch.lean ====
section
/-!
DEFINITION. The meaning of every command (R88): one arm per row of the opcode map.
-/

namespace Sys2Proof.Machine

def exec (i : Instr) (s : State) : Host.Outcome State Fault Refusal :=
  match i with
  | .nop => Sys2Proof.Machine.execNop s
  | .perm rounds => Sys2Proof.Machine.execPerm rounds s
  | .rk mode => Sys2Proof.Machine.execRk mode s
  | .enc => Sys2Proof.Machine.execEnc s
  | .mac => Sys2Proof.Machine.execMac s
  | .aeadEnc => Sys2Proof.Machine.execAeadEnc s
  | .aeadDec => Sys2Proof.Machine.execAeadDec s
  | .setinst inst => Sys2Proof.Machine.execSetinst inst s
  | .clear => Sys2Proof.Machine.execClear s

end Sys2Proof.Machine
end

