-- ==== Sys2Proof/Machine/Hazards.lean ====
section
/-!
DEFINITION. What hosts and other masters do to the DMA space, also while a command runs (R216 to R218), and reset (R210, R211).
-/

namespace Sys2Proof.Machine

/-- What a running DMA command would write if its completion step came now. -/
def runningPlan (r : Running) (s : State) : Option Plan :=
  match r.cmd with
  | .nop => none
  | .perm _ => none
  | .rk _ => none
  | .enc => some (encPlan r s)
  | .mac => some (macPlan r s)
  | .aeadEnc => some (aeadEncPlan r s)
  | .aeadDec => some (aeadDecPlan r s)
  | .setinst _ => none
  | .clear => none

/-- The running command may have written OUT bytes: ENC and AEAD_ENC from the start, AEAD_DEC once every read of its Mac phase is made, so that its verdict is
fixed (R79, R170). -/
def mayHaveWritten (r : Running) (s : State) : Bool :=
  match r.cmd with
  | .nop => false
  | .perm _ => false
  | .rk _ => false
  | .enc => true
  | .mac => false
  | .aeadEnc => true
  | .aeadDec => (List.range (s.adBuf.len + s.inBuf.len)).all (readDone r)
  | .setinst _ => false
  | .clear => false

/-- The number of the byte read whose value goes into OUT byte `k`: AEAD_DEC's Enc phase reads IN after its Mac phase (R79). -/
def readForOut (r : Running) (s : State) (k : Nat) : Nat :=
  match r.cmd with
  | .nop => k
  | .perm _ => k
  | .rk _ => k
  | .enc => k
  | .mac => k
  | .aeadEnc => k
  | .aeadDec => s.adBuf.len + s.inBuf.len + k
  | .setinst _ => k
  | .clear => k

/-- The value the command writes to OUT byte `k` is fixed, and may have been written: every read that decides it is made, so no later host write changes it
(R217: what a host may see is the value the command writes). -/
def outSettled (r : Running) (s : State) (k : Nat) : Bool := mayHaveWritten r s && readDone r (readForOut r s k)

/-- The command comes to its write of the OUT byte at `a`: no DMA transaction before it fails or goes unanswered (R194, R189) (log 10). Every command that writes
OUT writes it in its Enc phase (R79). -/
def outIssued (s : State) (a : Nat) : Bool := (issued s.platform (encPhaseAddrs s)).contains a

/-- The value a read of an OUT byte of a running command sees, and the next draw (R217, U8) (DEDUCED, log 8, safe but for log 10). The byte's present value, or, once the value
that the command writes there is fixed, that value, if the command comes to that write. That is so too when the command is to end with ERR_BUS, because R194 frees OUT only at that
completion, and when it is to wait for ever. If it writes no OUT byte, as after a tag that differs (R170), only the present value. -/
def outByteSeen (r : Running) (p : Plan) (s : State) (a : Nat) : Byte × Nat :=
  match p.out with
  | none => (readByte s.memory a, s.draws)
  | some bytes =>
    if outIssued s a && outSettled r s (a - s.outBuf.start)
    then pick (readByte s.memory a) [bytes.getD (a - s.outBuf.start) 0] s.draws
    else (readByte s.memory a, s.draws)

/-- The value a host read of the DMA byte at `a` returns, and the next draw (R217). -/
def dmaByteSeen (s : State) (a : Nat) : Byte × Nat :=
  match s.running with
  | none => (readByte s.memory a, s.draws)
  | some r =>
    match runningPlan r s with
    | none => (readByte s.memory a, s.draws)
    | some p => if s.outBuf.has a then outByteSeen r p s a else (readByte s.memory a, s.draws)

/-- A host or another master reads a byte of the DMA space. It is answered OKAY at every address, also where BUS_ERROR holds or the engine's transaction would never be
answered: R194 and R189 give those for the engine's transactions only (DESIGN CHOICE, log 24, unsafe). The read changes no byte (log 25). -/
def hostDmaRead (addr : Word64) (s : State) : Host.Outcome State Fault Refusal :=
  if 2 ^ s.platform.addrW.val ≤ addr.toNat then .fault .outsideDmaSpace
  else
    let seen := dmaByteSeen s addr.toNat
    .next { s with response := .okay (seen.1.setWidth 64), draws := seen.2 }

/-- The race record after a write to `a` (R216). -/
def noteRace (m : Memory) (a : Nat) (r : Running) : Running := { r with raced := (a, readByte m a) :: r.raced }

/-- A host or another master writes a byte of the DMA space; while a command runs, the value the byte held is kept as one its reads may see (R216). The write is
answered OKAY and stored at every address, also where BUS_ERROR holds or the engine's transaction would never be answered (DESIGN CHOICE, log 24, unsafe). -/
def hostDmaWrite (addr : Word64) (value : Byte) (s : State) : Host.Outcome State Fault Refusal :=
  if 2 ^ s.platform.addrW.val ≤ addr.toNat then .fault .outsideDmaSpace
  else
    .next { s with
      memory := writeByte s.memory addr.toNat value
      running := s.running.map (noteRace s.memory addr.toNat)
      response := .okay 0 }

/-- The command has an OUT buffer (R35, R67). -/
def writesOut : Instr → Bool
  | .nop => false
  | .perm _ => false
  | .rk _ => false
  | .enc => true
  | .mac => false
  | .aeadEnc => true
  | .aeadDec => true
  | .setinst _ => false
  | .clear => false

/-- What a reset leaves of the DMA space: a command abandoned while BUSY leaves its OUT range unspecified (R211, U6) (log 12). -/
def abandonOut (s : State) : State :=
  match s.running with
  | none => s
  | some r => if writesOut r.cmd then spoilOut s else s

/-- `rst` asserted and released (R210): every register takes its reset value, the mode is IDLE. The DMA space is not reset (R49); the platform and the environment's
remaining actions are outside the engine. -/
def resetEngine (s : State) : State :=
  let m := abandonOut s
  { State.reset with platform := s.platform, memory := m.memory, inputs := s.inputs, draws := m.draws }

end Sys2Proof.Machine
end

