-- ==== Sys2Proof/Machine/Environment.lean ====
section
/-!
DEFINITION. One action of the environment, and one step of the engine (R75, R178, R188).
-/

namespace Sys2Proof.Machine

/-- A command word presented to the IDLE engine (R178): the decoded command is executed; an illegal word completes at once with ERR_ILLEGAL (R90, R192). -/
def presentWord (w : Word32) (s : State) : Host.Outcome State Fault Refusal :=
  match decodeWord w with
  | .ok i => exec i s
  | .error _ => .next (completeError .illegal s)

/-- A step of the engine alone (R188, R189): while BUSY, the completion step of the accepted command; while IDLE, nothing. -/
def engineStep (s : State) : Host.Outcome State Fault Refusal :=
  match s.running with
  | none => .next s
  | some r => exec r.cmd s

/-- A host write and then, if the engine was BUSY, its step, in one step of the machine: where both touch INT_STAT, the engine's set wins (R31)
(log 17). -/
def writeWithEngine (addr : Word64) (size : Nat) (data : Word64) (s : State) : Host.Outcome State Fault Refusal :=
  match hostWrite presentWord addr size data s with
  | .next t => if s.busy then engineStep t else .next t
  | .fault f => .fault f
  | .refused r => .refused r

/-- One action of the environment (R75: each is one indivisible step). -/
def act (e : Input) (s : State) : Host.Outcome State Fault Refusal :=
  match e with
  | .read addr size => .next (hostRead addr size s)
  | .write addr size data => hostWrite presentWord addr size data s
  | .writeWithEngine addr size data => writeWithEngine addr size data s
  | .dmaRead addr => hostDmaRead addr s
  | .dmaWrite addr value => hostDmaWrite addr value s
  | .engine => engineStep s
  | .rst => .next (resetEngine s)

end Sys2Proof.Machine
end

