-- ==== Sys2Proof/Machine/Step.lean ====
section
/-!
DEFINITION. The step of the machine: the environment's next action, or, when it has none left, a step of the engine (R188) (DESIGN CHOICE, log 1).
-/

namespace Sys2Proof.Machine

/-- One step. -/
def step (s : State) : Host.Outcome State Fault Refusal :=
  match s.inputs with
  | [] => engineStep s
  | e :: rest => act e { s with inputs := rest }

/-- `s` with the engine IDLE and a host's 32-bit write of the word to CMD as the next action (R25, R178): the very next step presents the word to the
engine. This stands for the host that writes CMD (log 1). -/
def State.withFetchWord (s : State) (nbits w : Nat) : State :=
  { s with
    running := none
    inputs := .write (busAddr s.platform 0x008) 4 ((tableWord nbits w).setWidth 64) :: s.inputs }

end Sys2Proof.Machine
end

