-- ==== Sys2Proof/Laws/Bytes.lean ====
section
/-!
SUPPORT. Lengths of the byte strings of the ISAP functions, and the XOR laws.
-/

namespace Sys2Proof.Machine

@[simp] theorem zeros_length (n : Nat) : (zeros n).length = n := by simp [zeros]

@[simp] theorem xorBytes_length (x y : Bytes) : (xorBytes x y).length = min x.length y.length := by simp [xorBytes]

@[simp] theorem leBytes_length (v n : Nat) : (leBytes v n).length = n := by simp [leBytes]

@[simp] theorem beBytes_length (v n : Nat) : (beBytes v n).length = n := by simp [beBytes]

@[simp] theorem slice_length (x : Bytes) (off n : Nat) : (slice x off n).length = n := by simp [slice]

/-- XOR with the same string twice is the identity, if that string is long enough. -/
theorem xorBytes_cancel (x y : Bytes) (h : x.length ≤ y.length) : xorBytes (xorBytes x y) y = x := by
  induction x generalizing y with
  | nil => rfl
  | cons b x ih =>
    cases y with
    | nil => simp at h
    | cons c y =>
      have := ih y (by simpa using h)
      simp only [xorBytes, List.zipWith_cons_cons, List.cons.injEq] at this ⊢
      exact ⟨by rw [BitVec.xor_assoc, BitVec.xor_self, BitVec.xor_zero], this⟩

@[simp] theorem lanesToBytesA_length (x : AsconState) : (lanesToBytesA x).length = 40 := by simp [lanesToBytesA]

@[simp] theorem lanesToBytesK_length (a : KeccakState) : (lanesToBytesK a).length = 50 := by
  simp [lanesToBytesK, List.length_flatMap]

/-- p preserves the state's size (R114). -/
@[simp] theorem permute_length (perm : PermSel) (x : Bytes) (n : Nat) : (permute perm x n).length = stateBytes perm := by
  cases perm <;> simp [permute, stateBytes]

/-- Each block of keystream has r_H bytes (R143). -/
theorem keystreamFrom_length (ps : Params) (x : Bytes) (n : Nat) :
    (keystreamFrom ps x n).length = n * rateBytes ps.perm := by
  induction n generalizing x with
  | zero => simp [keystreamFrom]
  | succ n ih =>
    have : min (rateBytes ps.perm) (stateBytes ps.perm) = rateBytes ps.perm := by
      cases ps.perm <;> rfl
    simp [keystreamFrom, ih, this, Nat.succ_mul, Nat.add_comm]

theorem rateBytes_pos (perm : PermSel) : 0 < rateBytes perm := by cases perm <;> decide

/-- The blocks cover the input (R143). -/
theorem le_blockCount_mul (rate len : Nat) (h : 0 < rate) : len ≤ blockCount rate len * rate := by
  have h1 := Nat.div_add_mod (len + rate - 1) rate
  have h2 := Nat.mod_lt (len + rate - 1) h
  rw [blockCount, Nat.mul_comm]
  omega

/-- The keystream is as long as the input (R140). -/
theorem keystream_length_ge (ps : Params) (k nonce : Bytes) (len : Nat) : len ≤ (keystream ps k nonce len).length := by
  rw [keystream, keystreamFrom_length]
  exact le_blockCount_mul _ _ (rateBytes_pos _)

theorem xorBytes_getD {x y : Bytes} (j : Nat) (h : j < x.length) (hy : j < y.length) :
    (xorBytes x y).getD j 0 = x.getD j 0 ^^^ y.getD j 0 := by
  simp [xorBytes, h, hy]

/-- Byte `j` of the output depends on byte `j` of the input and on the length alone (R144). -/
theorem isapEnc_getD_congr (ps : Params) (k nonce : Bytes) {x y : Bytes} (j : Nat) (hj : j < x.length) (hl : x.length = y.length)
    (h : x.getD j 0 = y.getD j 0) : (isapEnc ps k nonce x).getD j 0 = (isapEnc ps k nonce y).getD j 0 := by
  have hk := keystream_length_ge ps k nonce y.length
  rw [isapEnc, isapEnc, hl, xorBytes_getD j hj (by omega), xorBytes_getD j (by omega) (by omega), h]

theorem or_eq_zero_iff {a b : Byte} : a ||| b = 0 ↔ a = 0 ∧ b = 0 := by
  refine ⟨fun h => ?_, fun h => by simp [h.1, h.2]⟩
  constructor <;> refine BitVec.eq_of_getLsbD_eq fun i hi => ?_
  all_goals
    have := congrArg (fun v : Byte => v.getLsbD i) h
    simp_all

theorem foldl_or_eq_zero (l : Bytes) (a : Byte) : l.foldl (· ||| ·) a = 0 ↔ a = 0 ∧ ∀ b ∈ l, b = 0 := by
  induction l generalizing a with
  | nil => simp
  | cons c l ih => rw [List.foldl_cons, ih, or_eq_zero_iff, List.forall_mem_cons, and_assoc]

/-- The comparison finds no difference exactly when the tags are equal (R167). -/
theorem tagDifference_eq_zero {t u : Bytes} (h : t.length = u.length) : tagDifference t u = 0 ↔ t = u := by
  rw [tagDifference, foldl_or_eq_zero]
  simp only [true_and]
  induction t generalizing u with
  | nil => cases u <;> simp_all [xorBytes]
  | cons a t ih =>
    cases u with
    | nil => simp at h
    | cons b u =>
      have := @ih u (by simpa using h)
      simp only [xorBytes, List.zipWith_cons_cons, List.mem_cons, forall_eq_or_imp, List.cons.injEq] at this ⊢
      rw [this]
      exact and_congr_left' BitVec.xor_eq_zero_iff

end Sys2Proof.Machine
end

