-- ==== Sys2Proof/Safety.lean ====
section
/-!
DEFINITION. What a safe run and a sound state are, in the terms the statements use.
-/

namespace Sys2Proof.Machine

/-- The outcome is a next state: the machine goes on. -/
def goesOn (o : Host.Outcome State Fault Refusal) : Prop := ∃ t, o = .next t

/-- STATUS is one a completion can leave: ERR is 1 exactly when ERRCODE is not 0 (R184), ERRCODE is one of R191's codes, and VERIFY is not 1
together with ERR (R184). -/
def Status.sound (st : Status) : Prop :=
  (st.err = true ↔ st.errcode ≠ 0x00) ∧ st.errcode.toNat ≤ 5 ∧ (st.verify = true → st.err = false)

/-- The command runs after acceptance: it is none of NOP, SETINST, CLEAR (R179). -/
def runsAfterAcceptance : Instr → Bool
  | .nop => false
  | .perm _ => true
  | .rk _ => true
  | .enc => true
  | .mac => true
  | .aeadEnc => true
  | .aeadDec => true
  | .setinst _ => false
  | .clear => false

/-- Every listed byte of the DMA space lies below 2^ADDR_W (R66). -/
def withinDmaSpace (m : Memory) (addrW : Nat) : Prop := ∀ c ∈ m, c.1 < 2 ^ addrW

/-- A running command is one that runs, has passed its acceptance checks (R181), and VERIFY is 0 while it runs (R179; log 23). -/
def runningSound (s : State) : Prop :=
  ∀ r, s.running = some r → runsAfterAcceptance r.cmd = true ∧ acceptanceError r.cmd s = none ∧ s.status.verify = false

/-- The invariant of the machine: the DMA space is in canonical form and within its address width, PARAM's unimplemented bits read 0 (R27), STATUS is one a
completion leaves (R184, R191), and a running command is one that was accepted (R181). -/
structure Inv (s : State) : Prop where
  canonical : Memory.wf s.memory
  within : withinDmaSpace s.memory s.platform.addrW.val
  paramReserved : s.param &&& ~~~paramMask = 0
  status : s.status.sound
  running : runningSound s

/-- No DMA address the platform knows answers with an error or stays silent. -/
def answersAll (pl : Platform) : Prop := pl.busError = [] ∧ pl.noResponse = []

/-- Every DMA transaction of the list is answered without an error. -/
def answersWell (s : State) (addrs : List Nat) : Prop :=
  ∀ a ∈ addrs, busErrorAt s.platform a = false ∧ silentAt s.platform a = false

/-- A register that a host may write and read back (R22's RW registers). -/
def readsBack : Reg → Bool
  | .param => true
  | .intEn => true
  | .adAddr => true
  | .adLen => true
  | .inAddr => true
  | .inLen => true
  | .outAddr => true
  | .nonce _ => true
  | .tag _ => true
  | .y _ => true
  | .permState _ => true
  | .id => false
  | .cmd => false
  | .status => false
  | .intStat => false
  | .key _ => false
  | .subkey _ => false
  | .reserved => false

/-- A buffer lies in the DMA space, or is empty (R70). -/
def fits (b : Buffer) (s : State) : Prop := b.len = 0 ∨ b.start + b.len ≤ 2 ^ s.platform.addrW.val

/-- Two buffers have no byte in common (R71). -/
def apart (b c : Buffer) : Prop := ∀ a, ¬(b.has a = true ∧ c.has a = true)

/-- The engine is BUSY with the command, and no hazard has occurred since its acceptance (R176). -/
def busyWith (i : Instr) (s : State) : Prop := ∃ ticket, s.running = some { cmd := i, raced := [], hung := false, ticket := ticket }

/-- The state right after the acceptance of a command that runs (R179; VERIFY: log 23). The ticket and the draw counter are the model's own (log 7). -/
def acceptedState (i : Instr) (s : State) : State :=
  { s with
    running := some { cmd := i, raced := [], hung := false, ticket := s.draws }
    status := { s.status with verify := false }
    draws := s.draws + 1 }

/-- The state right after a command is turned away with an error code (R192). -/
def rejectedState (code : BitVec 8) (s : State) : State :=
  { s with status := { err := true, verify := false, errcode := code }, intStat := s.intStat ||| 0b01 }

/-- The registers after a command ended with ERR_BUS (R193). -/
def busErrorState (s : State) : State :=
  { s with
    permState := Vector.replicate 50 0
    subkey := Vector.replicate 34 0
    running := none
    status := { err := true, verify := false, errcode := 0x05 }
    intStat := s.intStat ||| 0b01 }

/-- The associated data as it lies in the DMA space. -/
def adBytes (s : State) : Bytes := readBytes s.memory s.adBuf.start s.adBuf.len

/-- The input as it lies in the DMA space. -/
def inBytes (s : State) : Bytes := readBytes s.memory s.inBuf.start s.inBuf.len

/-- The DMA space of `t` is that of `s` with the OUT range holding `bytes` (R69). -/
def outHolds (s t : State) (bytes : Bytes) : Prop :=
  ∀ a, readByte t.memory a = if s.outBuf.has a then bytes.getD (a - s.outBuf.start) 0 else readByte s.memory a

/-- The DMA space of `t` is that of `s` with the OUT range holding `bytes`, but that a byte which a host wrote while the command ran may hold the host's value
(R218). -/
def outHoldsRaced (r : Running) (s t : State) (bytes : Bytes) : Prop :=
  ∀ a, if s.outBuf.has a
    then readByte t.memory a = bytes.getD (a - s.outBuf.start) 0 ∨
      (heldBefore r.raced a ≠ [] ∧ readByte t.memory a = readByte s.memory a)
    else readByte t.memory a = readByte s.memory a

/-- A host write answered OKAY that changes at most the register at offset 8k (R74): every other register of the aperture, the mode, the DMA space and all that lies
outside the engine are as before. -/
def onlyRegisterChanged (k : Nat) (s t : State) : Prop :=
  (∀ j, j < 64 → j ≠ k → (regAt j).stored t = (regAt j).stored s) ∧
  t.status = s.status ∧ t.running = s.running ∧ t.memory = s.memory ∧ t.platform = s.platform ∧ t.inputs = s.inputs ∧
  t.draws = s.draws ∧ t.response = .okay 0

/-- No host has written the DMA space since the command was accepted, so none of the races of R216 to R218 occurs. -/
def Running.unraced (r : Running) : Prop := r.raced = []

end Sys2Proof.Machine
end

