-- ==== Sys2Proof/Laws/Memory.lean ====
section
/-!
SUPPORT. The laws of the DMA space: what a byte reads after a write, and that every memory operation keeps the canonical form and the address bound.
-/

namespace Sys2Proof.Machine

theorem wf_nil : Memory.wf [] := ⟨List.Pairwise.nil, by simp⟩

theorem wf_tail {c : Host.Cell} {m : Memory} (h : Memory.wf (c :: m)) : Memory.wf m :=
  ⟨(List.pairwise_cons.mp h.1).2, fun d hd => h.2 d (List.mem_cons_of_mem _ hd)⟩

/-- In canonical form an address below every listed one is unlisted. -/
theorem readByte_of_lt {m : Memory} {a : Nat} (h : ∀ c ∈ m, a < c.1) : readByte m a = unwrittenByte := by
  induction m with
  | nil => rfl
  | cons c m ih =>
    obtain ⟨b, v⟩ := c
    have hb : a < b := h (b, v) List.mem_cons_self
    have hne : a ≠ b := Nat.ne_of_lt hb
    simp only [readByte, if_neg hne]
    exact ih fun d hd => h d (List.mem_cons_of_mem _ hd)

/-- The addresses a write can list: those listed before, and the address written. -/
theorem mem_writeByte {m : Memory} {a : Nat} {v : Byte} {c : Host.Cell} (h : c ∈ writeByte m a v) :
    c ∈ m ∨ (c = (a, v) ∧ v ≠ unwrittenByte) := by
  induction m with
  | nil =>
    simp only [writeByte] at h
    split at h
    · exact absurd h (by simp)
    · exact Or.inr ⟨by simpa using h, by assumption⟩
  | cons d m ih =>
    obtain ⟨b, w⟩ := d
    simp only [writeByte] at h
    split at h
    · split at h
      · exact Or.inl h
      · rcases List.mem_cons.mp h with rfl | h
        · exact Or.inr ⟨rfl, by assumption⟩
        · exact Or.inl h
    · split at h
      · split at h
        · exact Or.inl (List.mem_cons_of_mem _ h)
        · rcases List.mem_cons.mp h with rfl | h
          · exact Or.inr ⟨rfl, by assumption⟩
          · exact Or.inl (List.mem_cons_of_mem _ h)
      · rcases List.mem_cons.mp h with rfl | h
        · exact Or.inl List.mem_cons_self
        · rcases ih h with h | h
          · exact Or.inl (List.mem_cons_of_mem _ h)
          · exact Or.inr h

/-- A write keeps the canonical form. -/
theorem writeByte_wf {m : Memory} (a : Nat) (v : Byte) (h : Memory.wf m) : Memory.wf (writeByte m a v) := by
  induction m with
  | nil =>
    simp only [writeByte]
    split
    · exact h
    · next hv => exact ⟨List.pairwise_singleton _ _, fun c hc => by simpa [List.mem_singleton.mp hc] using hv⟩
  | cons d m ih =>
    obtain ⟨b, w⟩ := d
    have hp := List.pairwise_cons.mp h.1
    simp only [writeByte]
    split
    · next hab =>
      split
      · exact h
      · next hv =>
        refine ⟨List.pairwise_cons.mpr ⟨fun c hc => ?_, h.1⟩, fun c hc => ?_⟩
        · rcases List.mem_cons.mp hc with rfl | hc
          · exact hab
          · exact Nat.lt_trans hab (hp.1 c hc)
        · rcases List.mem_cons.mp hc with rfl | hc
          · exact hv
          · exact h.2 c hc
    · split
      · next hab =>
        subst hab
        split
        · exact wf_tail h
        · next hv =>
          refine ⟨List.pairwise_cons.mpr ⟨hp.1, hp.2⟩, fun c hc => ?_⟩
          rcases List.mem_cons.mp hc with rfl | hc
          · exact hv
          · exact h.2 c (List.mem_cons_of_mem _ hc)
      · next hlt hne =>
        have ih' := ih (wf_tail h)
        refine ⟨List.pairwise_cons.mpr ⟨fun c hc => ?_, ih'.1⟩, fun c hc => ?_⟩
        · rcases mem_writeByte hc with hc | ⟨rfl, -⟩
          · exact hp.1 c hc
          · show b < a
            omega
        · rcases List.mem_cons.mp hc with rfl | hc
          · exact h.2 _ List.mem_cons_self
          · exact ih'.2 c hc

/-- A byte reads as it was last written, and every other byte as before. -/
theorem readByte_writeByte {m : Memory} (h : Memory.wf m) (a : Nat) (v : Byte) (b : Nat) :
    readByte (writeByte m a v) b = if b = a then v else readByte m b := by
  induction m with
  | nil =>
    simp only [writeByte]
    split
    · next hv => simp [readByte, hv]
    · simp [readByte]
  | cons d m ih =>
    obtain ⟨c, w⟩ := d
    have hp := List.pairwise_cons.mp h.1
    simp only [writeByte]
    split
    · next hac =>
      split
      · next hv =>
        by_cases hb : b = a
        · subst hb
          have : readByte ((c, w) :: m) b = unwrittenByte := by
            refine readByte_of_lt fun x hx => ?_
            rcases List.mem_cons.mp hx with rfl | hx
            · exact hac
            · exact Nat.lt_trans hac (hp.1 x hx)
          simp [this, hv]
        · simp [hb]
      · simp only [readByte]
    · split
      · next hac =>
        subst hac
        split
        · next hv =>
          by_cases hb : b = a
          · subst hb
            simp [readByte_of_lt hp.1, hv]
          · simp [readByte, hb]
        · by_cases hb : b = a <;> simp [readByte, hb]
      · next hlt hne =>
        simp only [readByte]
        by_cases hbc : b = c
        · subst hbc
          have : b ≠ a := fun e => hne e.symm
          simp [this]
        · simp only [if_neg hbc]
          exact ih (wf_tail h)

theorem writeByte_within {m : Memory} {w a : Nat} {v : Byte} (h : withinDmaSpace m w) (ha : a < 2 ^ w) :
    withinDmaSpace (writeByte m a v) w := by
  intro c hc
  rcases mem_writeByte hc with hc | ⟨rfl, -⟩
  · exact h c hc
  · exact ha

/-! ### Byte strings -/

@[simp] theorem readBytes_length (m : Memory) (a n : Nat) : (readBytes m a n).length = n := by
  induction n generalizing a with
  | zero => rfl
  | succ n ih => simp [readBytes, ih]

/-- Byte `k` of MemRead is the byte at `a + k` (R69). -/
theorem readBytes_getD (m : Memory) (a n k : Nat) (d : Byte) (h : k < n) :
    (readBytes m a n).getD k d = readByte m (a + k) := by
  induction n generalizing a k with
  | zero => omega
  | succ n ih =>
    cases k with
    | zero => rfl
    | succ k =>
      have := ih (a + 1) k (by omega)
      simpa [readBytes, Nat.add_assoc, Nat.add_comm 1 k] using this

theorem writeBytes_wf {m : Memory} (a : Nat) (x : Bytes) (h : Memory.wf m) : Memory.wf (writeBytes m a x) := by
  induction x generalizing m a with
  | nil => exact h
  | cons b x ih => exact ih (a + 1) (writeByte_wf a b h)

/-- MemWrite stores byte `k` at `a + k` and changes no other byte (R69). -/
theorem readByte_writeBytes {m : Memory} (h : Memory.wf m) (a : Nat) (x : Bytes) (b : Nat) :
    readByte (writeBytes m a x) b = if a ≤ b ∧ b < a + x.length then x.getD (b - a) 0 else readByte m b := by
  induction x generalizing m a with
  | nil =>
    have : ¬(a ≤ b ∧ b < a + ([] : Bytes).length) := by simp
    simp only [writeBytes, if_neg this]
  | cons v x ih =>
    rw [writeBytes, ih (writeByte_wf a v h), readByte_writeByte h]
    by_cases hba : b = a
    · subst hba
      simp
    · by_cases hin : a + 1 ≤ b ∧ b < a + 1 + x.length
      · have h2 : a ≤ b ∧ b < a + (v :: x).length := by simp only [List.length_cons]; omega
        have h3 : b - a = (b - (a + 1)) + 1 := by omega
        rw [if_pos hin, if_pos h2, h3, List.getD_cons_succ]
      · have h2 : ¬(a ≤ b ∧ b < a + (v :: x).length) := by simp only [List.length_cons]; omega
        rw [if_neg hin, if_neg h2, if_neg hba]

/-! ### Races and free values -/

/-- With one candidate there is no draw. -/
@[simp] theorem pick_nil (x : Byte) (d : Nat) : pick x [] d = (x, d) := rfl

/-- A pick is one of its candidates. -/
theorem pick_mem (x : Byte) (others : List Byte) (d : Nat) : (pick x others d).1 ∈ x :: others := by
  unfold pick
  split
  · exact List.mem_cons_self
  · have hlt : Config.freeChoice d % (others.length + 1) < (x :: others).length := by
      simpa using Nat.mod_lt _ (Nat.succ_pos _)
    rw [List.getD_eq_getElem _ _ hlt]
    exact List.getElem_mem hlt

@[simp] theorem heldBefore_nil (a : Nat) : heldBefore [] a = [] := rfl

theorem heldBefore_cons (c : Host.Cell) (raced : List Host.Cell) (a : Nat) :
    heldBefore (c :: raced) a = if c.1 = a then c.2 :: heldBefore raced a else heldBefore raced a := by
  by_cases h : c.1 = a <;> simp [heldBefore, h]

@[simp] theorem heldAfter_nil (a : Nat) (v : Byte) (n : Nat) : heldAfter a v [] n = v := rfl

/-- After the last host write the byte holds what it holds now. -/
theorem heldAfter_now {a : Nat} {v : Byte} {raced : List Host.Cell} {n : Nat} (h : raced.length ≤ n) : heldAfter a v raced n = v := by
  cases raced with
  | nil => rfl
  | cons c raced =>
    simp only [List.length_cons] at h
    rw [heldAfter, if_pos (by omega)]

/-- A value held at some moment is one of those the byte held since acceptance. -/
theorem heldAfter_mem (a : Nat) (v : Byte) (raced : List Host.Cell) (n : Nat) : heldAfter a v raced n ∈ v :: heldBefore raced a := by
  induction raced generalizing v with
  | nil => exact List.mem_cons_self
  | cons c raced ih =>
    rw [heldAfter, heldBefore_cons]
    by_cases hc : c.1 = a
    · rw [if_pos hc, if_pos hc]
      split
      · exact List.mem_cons_self
      · exact List.mem_cons_of_mem _ (ih c.2)
    · rw [if_neg hc, if_neg hc]
      split
      · exact List.mem_cons_self
      · exact ih v

/-- Every value the byte held since acceptance is the one it held at some moment (R216: every such value is admitted). -/
theorem exists_heldAfter {a : Nat} {v w : Byte} {raced : List Host.Cell} (h : w ∈ v :: heldBefore raced a) :
    ∃ n, n ≤ raced.length ∧ heldAfter a v raced n = w := by
  induction raced generalizing v with
  | nil =>
    obtain rfl : w = v := by simpa using h
    exact ⟨0, Nat.le_refl _, rfl⟩
  | cons c raced ih =>
    by_cases hw : w = v
    · subst hw
      exact ⟨raced.length + 1, by simp, heldAfter_now (by simp)⟩
    · have hin : w ∈ heldBefore (c :: raced) a := (List.mem_cons.mp h).resolve_left hw
      have hu : w ∈ (if c.1 = a then c.2 else v) :: heldBefore raced a := by
        rw [heldBefore_cons] at hin
        split at hin
        · next hc => simpa [hc] using hin
        · exact List.mem_cons_of_mem _ hin
      obtain ⟨n, hn, he⟩ := ih hu
      exact ⟨n, Nat.le_succ_of_le hn, by rw [heldAfter, if_neg (by omega), he]⟩

/-- A later host write does not change what the byte held at an earlier moment. -/
theorem heldAfter_cons {a b : Nat} {v w : Byte} {raced : List Host.Cell} {n : Nat} (h : n ≤ raced.length)
    (hv : w = v ∨ b = a) : heldAfter a w ((b, v) :: raced) n = heldAfter a v raced n := by
  rw [heldAfter, if_neg (by omega)]
  rcases hv with rfl | rfl <;> simp

@[simp] theorem engineRead_length (r : Running) (m : Memory) (a n j : Nat) : (engineRead r m a n j).length = n := by
  induction n generalizing a j with
  | zero => rfl
  | succ n ih => simp [engineRead, ih]

/-- Byte `k` of the engine's MemRead is what the byte at `a + k` held at the moment of read `j + k`. -/
theorem engineRead_getD (r : Running) (m : Memory) (a n j k : Nat) (h : k < n) :
    (engineRead r m a n j).getD k 0 = heldAfter (a + k) (readByte m (a + k)) r.raced (Config.readMoment r.ticket (j + k)) := by
  induction n generalizing a j k with
  | zero => omega
  | succ n ih =>
    cases k with
    | zero => rfl
    | succ k =>
      have := ih (a + 1) (j + 1) k (by omega)
      simpa [engineRead, Nat.add_assoc, Nat.add_comm 1 k] using this

/-- Without a race the engine reads the memory as it is (R176). -/
theorem engineRead_unraced {r : Running} (h : r.raced = []) (m : Memory) (a n j : Nat) : engineRead r m a n j = readBytes m a n := by
  induction n generalizing a j with
  | zero => rfl
  | succ n ih => rw [engineRead, readBytes, ih, h, heldAfter_nil]

/-- A host write leaves a byte read that the engine has already made as it was. -/
theorem heldAfter_noteRace {r : Running} {m : Memory} (h : Memory.wf m) {j : Nat} (hj : readDone r j = true) (a b : Nat) (v : Byte) :
    heldAfter a (readByte (writeByte m b v) a) (noteRace m b r).raced (Config.readMoment (noteRace m b r).ticket j) =
      heldAfter a (readByte m a) r.raced (Config.readMoment r.ticket j) := by
  have hn : Config.readMoment r.ticket j ≤ r.raced.length := by simpa [readDone] using hj
  rw [readByte_writeByte h]
  by_cases hab : a = b
  · subst hab
    exact heldAfter_cons hn (Or.inr rfl)
  · show heldAfter a (if a = b then v else readByte m a) ((b, readByte m b) :: r.raced) (Config.readMoment r.ticket j) = _
    rw [if_neg hab, heldAfter, if_neg (by omega), if_neg (fun e => hab e.symm)]

/-- A byte read that is made stays made. -/
theorem readDone_noteRace {r : Running} {m : Memory} {a j : Nat} (h : readDone r j = true) : readDone (noteRace m a r) j = true := by
  have hn : Config.readMoment r.ticket j ≤ r.raced.length := by simpa [readDone] using h
  exact decide_eq_true (Nat.le_succ_of_le hn)

/-- The same, for one byte of a buffer read. -/
theorem engineRead_noteRace_getD {r : Running} {m : Memory} (hw : Memory.wf m) (b : Nat) (v : Byte) (a n j k : Nat) (hk : k < n)
    (h : readDone r (j + k) = true) :
    (engineRead (noteRace m b r) (writeByte m b v) a n j).getD k 0 = (engineRead r m a n j).getD k 0 := by
  rw [engineRead_getD _ _ _ _ _ _ hk, engineRead_getD _ _ _ _ _ _ hk, heldAfter_noteRace hw h]

/-- A host write leaves a buffer read whose byte reads the engine has made as it was (R217: a settled OUT byte stays what it is). -/
theorem engineRead_noteRace {r : Running} {m : Memory} (h : Memory.wf m) (b : Nat) (v : Byte) (a n j : Nat)
    (hd : ∀ k < n, readDone r (j + k) = true) :
    engineRead (noteRace m b r) (writeByte m b v) a n j = engineRead r m a n j := by
  induction n generalizing a j with
  | zero => rfl
  | succ n ih =>
    rw [engineRead, engineRead, heldAfter_noteRace h (j := j) (hd 0 (by omega)),
      ih (a + 1) (j + 1) fun k hk => by simpa [Nat.add_assoc, Nat.add_comm 1 k] using hd (k + 1) (by omega)]

/-- Without a race the engine writes its own bytes, and draws nothing (R176). -/
@[simp] theorem engineWrite_unraced (m : Memory) (a : Nat) (x : Bytes) (d : Nat) :
    engineWrite [] m a x d = (writeBytes m a x, d) := by
  induction x generalizing m a d with
  | nil => rfl
  | cons b x ih => simp [engineWrite, writeBytes, ih]

theorem engineWrite_wf (raced : List Host.Cell) {m : Memory} (a : Nat) (x : Bytes) (d : Nat) (h : Memory.wf m) :
    Memory.wf (engineWrite raced m a x d).1 := by
  induction x generalizing m a d with
  | nil => exact h
  | cons b x ih => exact ih (a + 1) _ (writeByte_wf a _ h)

/-- The engine's writes change no byte outside the range they are for. -/
theorem readByte_engineWrite_frame (raced : List Host.Cell) {m : Memory} (h : Memory.wf m) (a : Nat) (x : Bytes) (d b : Nat)
    (hb : ¬(a ≤ b ∧ b < a + x.length)) : readByte (engineWrite raced m a x d).1 b = readByte m b := by
  induction x generalizing m a d with
  | nil => rfl
  | cons v x ih =>
    simp only [List.length_cons] at hb
    rw [engineWrite, ih (writeByte_wf a _ h) (a + 1) _ (by omega), readByte_writeByte h, if_neg (by omega)]

theorem engineWrite_within (raced : List Host.Cell) {m : Memory} {w a : Nat} (x : Bytes) (d : Nat)
    (h : withinDmaSpace m w) (ha : x.length = 0 ∨ a + x.length ≤ 2 ^ w) :
    withinDmaSpace (engineWrite raced m a x d).1 w := by
  induction x generalizing m a d with
  | nil => exact h
  | cons b x ih =>
    simp only [List.length_cons] at ha
    exact ih _ (writeByte_within h (by omega)) (by omega)

theorem spoilBytes_wf {m : Memory} (a n d : Nat) (h : Memory.wf m) : Memory.wf (spoilBytes m a n d).1 := by
  induction n generalizing m a d with
  | zero => exact h
  | succ n ih => exact ih (a + 1) (d + 1) (writeByte_wf a _ h)

/-- Spoiling a range changes no byte outside it. -/
theorem readByte_spoilBytes_frame {m : Memory} (h : Memory.wf m) (a n d b : Nat) (hb : ¬(a ≤ b ∧ b < a + n)) :
    readByte (spoilBytes m a n d).1 b = readByte m b := by
  induction n generalizing m a d with
  | zero => rfl
  | succ n ih =>
    rw [spoilBytes, ih (writeByte_wf a _ h) (a + 1) (d + 1) (by omega), readByte_writeByte h, if_neg (by omega)]

theorem spoilBytes_within {m : Memory} {w a n : Nat} (d : Nat) (h : withinDmaSpace m w) (ha : n = 0 ∨ a + n ≤ 2 ^ w) :
    withinDmaSpace (spoilBytes m a n d).1 w := by
  induction n generalizing m a d with
  | zero => exact h
  | succ n ih => exact ih _ (writeByte_within h (by omega)) (by omega)

/-- Byte `k` of a spoiled range is the free byte of its draw (R194). -/
theorem readByte_spoilBytes {m : Memory} (h : Memory.wf m) (a n d k : Nat) (hk : k < n) :
    readByte (spoilBytes m a n d).1 (a + k) = Config.freeByte (d + k) := by
  induction n generalizing m a d k with
  | zero => omega
  | succ n ih =>
    cases k with
    | zero =>
      rw [spoilBytes, readByte_spoilBytes_frame (writeByte_wf a _ h) (a + 1) n (d + 1) (a + 0) (by omega),
        readByte_writeByte h]
      simp
    | succ k =>
      have := ih (writeByte_wf a (Config.freeByte d) h) (a + 1) (d + 1) k (by omega)
      rw [spoilBytes]
      simpa [Nat.add_assoc, Nat.add_comm 1 k] using this

end Sys2Proof.Machine
end

