-- ==== Sys2Proof/Laws/State.lean ====
section
/-!
SUPPORT. One lemma per field of State for each shared update, true by `rfl`, so that no later proof unfolds a record update.
-/

namespace Sys2Proof.Machine

/-! ### `complete` -/

@[simp] theorem complete_platform (st : Status) (s : State) : (complete st s).platform = s.platform := rfl
@[simp] theorem complete_status (st : Status) (s : State) : (complete st s).status = st := rfl
@[simp] theorem complete_param (st : Status) (s : State) : (complete st s).param = s.param := rfl
@[simp] theorem complete_intEn (st : Status) (s : State) : (complete st s).intEn = s.intEn := rfl
@[simp] theorem complete_intStat (st : Status) (s : State) : (complete st s).intStat = s.intStat ||| intDone := rfl
@[simp] theorem complete_adAddr (st : Status) (s : State) : (complete st s).adAddr = s.adAddr := rfl
@[simp] theorem complete_adLen (st : Status) (s : State) : (complete st s).adLen = s.adLen := rfl
@[simp] theorem complete_inAddr (st : Status) (s : State) : (complete st s).inAddr = s.inAddr := rfl
@[simp] theorem complete_inLen (st : Status) (s : State) : (complete st s).inLen = s.inLen := rfl
@[simp] theorem complete_outAddr (st : Status) (s : State) : (complete st s).outAddr = s.outAddr := rfl
@[simp] theorem complete_key (st : Status) (s : State) : (complete st s).key = s.key := rfl
@[simp] theorem complete_nonce (st : Status) (s : State) : (complete st s).nonce = s.nonce := rfl
@[simp] theorem complete_tag (st : Status) (s : State) : (complete st s).tag = s.tag := rfl
@[simp] theorem complete_y (st : Status) (s : State) : (complete st s).y = s.y := rfl
@[simp] theorem complete_subkey (st : Status) (s : State) : (complete st s).subkey = s.subkey := rfl
@[simp] theorem complete_permState (st : Status) (s : State) : (complete st s).permState = s.permState := rfl
@[simp] theorem complete_running (st : Status) (s : State) : (complete st s).running = none := rfl
@[simp] theorem complete_memory (st : Status) (s : State) : (complete st s).memory = s.memory := rfl
@[simp] theorem complete_inputs (st : Status) (s : State) : (complete st s).inputs = s.inputs := rfl
@[simp] theorem complete_response (st : Status) (s : State) : (complete st s).response = s.response := rfl
@[simp] theorem complete_draws (st : Status) (s : State) : (complete st s).draws = s.draws := rfl

/-! ### `completeError` -/

@[simp] theorem completeError_platform (e : ErrorCode) (s : State) : (completeError e s).platform = s.platform := rfl
@[simp] theorem completeError_status (e : ErrorCode) (s : State) : (completeError e s).status = errorStatus e := rfl
@[simp] theorem completeError_param (e : ErrorCode) (s : State) : (completeError e s).param = s.param := rfl
@[simp] theorem completeError_intEn (e : ErrorCode) (s : State) : (completeError e s).intEn = s.intEn := rfl
@[simp] theorem completeError_intStat (e : ErrorCode) (s : State) : (completeError e s).intStat = s.intStat ||| intDone := rfl
@[simp] theorem completeError_adAddr (e : ErrorCode) (s : State) : (completeError e s).adAddr = s.adAddr := rfl
@[simp] theorem completeError_adLen (e : ErrorCode) (s : State) : (completeError e s).adLen = s.adLen := rfl
@[simp] theorem completeError_inAddr (e : ErrorCode) (s : State) : (completeError e s).inAddr = s.inAddr := rfl
@[simp] theorem completeError_inLen (e : ErrorCode) (s : State) : (completeError e s).inLen = s.inLen := rfl
@[simp] theorem completeError_outAddr (e : ErrorCode) (s : State) : (completeError e s).outAddr = s.outAddr := rfl
@[simp] theorem completeError_key (e : ErrorCode) (s : State) : (completeError e s).key = s.key := rfl
@[simp] theorem completeError_nonce (e : ErrorCode) (s : State) : (completeError e s).nonce = s.nonce := rfl
@[simp] theorem completeError_tag (e : ErrorCode) (s : State) : (completeError e s).tag = s.tag := rfl
@[simp] theorem completeError_y (e : ErrorCode) (s : State) : (completeError e s).y = s.y := rfl
@[simp] theorem completeError_subkey (e : ErrorCode) (s : State) : (completeError e s).subkey = s.subkey := rfl
@[simp] theorem completeError_permState (e : ErrorCode) (s : State) : (completeError e s).permState = s.permState := rfl
@[simp] theorem completeError_running (e : ErrorCode) (s : State) : (completeError e s).running = none := rfl
@[simp] theorem completeError_memory (e : ErrorCode) (s : State) : (completeError e s).memory = s.memory := rfl
@[simp] theorem completeError_inputs (e : ErrorCode) (s : State) : (completeError e s).inputs = s.inputs := rfl
@[simp] theorem completeError_response (e : ErrorCode) (s : State) : (completeError e s).response = s.response := rfl
@[simp] theorem completeError_draws (e : ErrorCode) (s : State) : (completeError e s).draws = s.draws := rfl

/-! ### `accept` -/

@[simp] theorem accept_platform (i : Instr) (s : State) : (accept i s).platform = s.platform := rfl
@[simp] theorem accept_status (i : Instr) (s : State) : (accept i s).status = { s.status with verify := false } := rfl
@[simp] theorem accept_param (i : Instr) (s : State) : (accept i s).param = s.param := rfl
@[simp] theorem accept_intEn (i : Instr) (s : State) : (accept i s).intEn = s.intEn := rfl
@[simp] theorem accept_intStat (i : Instr) (s : State) : (accept i s).intStat = s.intStat := rfl
@[simp] theorem accept_adAddr (i : Instr) (s : State) : (accept i s).adAddr = s.adAddr := rfl
@[simp] theorem accept_adLen (i : Instr) (s : State) : (accept i s).adLen = s.adLen := rfl
@[simp] theorem accept_inAddr (i : Instr) (s : State) : (accept i s).inAddr = s.inAddr := rfl
@[simp] theorem accept_inLen (i : Instr) (s : State) : (accept i s).inLen = s.inLen := rfl
@[simp] theorem accept_outAddr (i : Instr) (s : State) : (accept i s).outAddr = s.outAddr := rfl
@[simp] theorem accept_key (i : Instr) (s : State) : (accept i s).key = s.key := rfl
@[simp] theorem accept_nonce (i : Instr) (s : State) : (accept i s).nonce = s.nonce := rfl
@[simp] theorem accept_tag (i : Instr) (s : State) : (accept i s).tag = s.tag := rfl
@[simp] theorem accept_y (i : Instr) (s : State) : (accept i s).y = s.y := rfl
@[simp] theorem accept_subkey (i : Instr) (s : State) : (accept i s).subkey = s.subkey := rfl
@[simp] theorem accept_permState (i : Instr) (s : State) : (accept i s).permState = s.permState := rfl
@[simp] theorem accept_running (i : Instr) (s : State) : (accept i s).running = some { cmd := i, raced := [], hung := false, ticket := s.draws } := rfl
@[simp] theorem accept_memory (i : Instr) (s : State) : (accept i s).memory = s.memory := rfl
@[simp] theorem accept_inputs (i : Instr) (s : State) : (accept i s).inputs = s.inputs := rfl
@[simp] theorem accept_response (i : Instr) (s : State) : (accept i s).response = s.response := rfl
@[simp] theorem accept_draws (i : Instr) (s : State) : (accept i s).draws = s.draws + 1 := rfl

/-! ### `setOverrun` -/

@[simp] theorem setOverrun_platform (s : State) : (setOverrun s).platform = s.platform := rfl
@[simp] theorem setOverrun_status (s : State) : (setOverrun s).status = s.status := rfl
@[simp] theorem setOverrun_param (s : State) : (setOverrun s).param = s.param := rfl
@[simp] theorem setOverrun_intEn (s : State) : (setOverrun s).intEn = s.intEn := rfl
@[simp] theorem setOverrun_intStat (s : State) : (setOverrun s).intStat = s.intStat ||| intOverrun := rfl
@[simp] theorem setOverrun_adAddr (s : State) : (setOverrun s).adAddr = s.adAddr := rfl
@[simp] theorem setOverrun_adLen (s : State) : (setOverrun s).adLen = s.adLen := rfl
@[simp] theorem setOverrun_inAddr (s : State) : (setOverrun s).inAddr = s.inAddr := rfl
@[simp] theorem setOverrun_inLen (s : State) : (setOverrun s).inLen = s.inLen := rfl
@[simp] theorem setOverrun_outAddr (s : State) : (setOverrun s).outAddr = s.outAddr := rfl
@[simp] theorem setOverrun_key (s : State) : (setOverrun s).key = s.key := rfl
@[simp] theorem setOverrun_nonce (s : State) : (setOverrun s).nonce = s.nonce := rfl
@[simp] theorem setOverrun_tag (s : State) : (setOverrun s).tag = s.tag := rfl
@[simp] theorem setOverrun_y (s : State) : (setOverrun s).y = s.y := rfl
@[simp] theorem setOverrun_subkey (s : State) : (setOverrun s).subkey = s.subkey := rfl
@[simp] theorem setOverrun_permState (s : State) : (setOverrun s).permState = s.permState := rfl
@[simp] theorem setOverrun_running (s : State) : (setOverrun s).running = s.running := rfl
@[simp] theorem setOverrun_memory (s : State) : (setOverrun s).memory = s.memory := rfl
@[simp] theorem setOverrun_inputs (s : State) : (setOverrun s).inputs = s.inputs := rfl
@[simp] theorem setOverrun_response (s : State) : (setOverrun s).response = s.response := rfl
@[simp] theorem setOverrun_draws (s : State) : (setOverrun s).draws = s.draws := rfl

/-! ### `zeroizeWork` -/

@[simp] theorem zeroizeWork_platform (s : State) : (zeroizeWork s).platform = s.platform := rfl
@[simp] theorem zeroizeWork_status (s : State) : (zeroizeWork s).status = s.status := rfl
@[simp] theorem zeroizeWork_param (s : State) : (zeroizeWork s).param = s.param := rfl
@[simp] theorem zeroizeWork_intEn (s : State) : (zeroizeWork s).intEn = s.intEn := rfl
@[simp] theorem zeroizeWork_intStat (s : State) : (zeroizeWork s).intStat = s.intStat := rfl
@[simp] theorem zeroizeWork_adAddr (s : State) : (zeroizeWork s).adAddr = s.adAddr := rfl
@[simp] theorem zeroizeWork_adLen (s : State) : (zeroizeWork s).adLen = s.adLen := rfl
@[simp] theorem zeroizeWork_inAddr (s : State) : (zeroizeWork s).inAddr = s.inAddr := rfl
@[simp] theorem zeroizeWork_inLen (s : State) : (zeroizeWork s).inLen = s.inLen := rfl
@[simp] theorem zeroizeWork_outAddr (s : State) : (zeroizeWork s).outAddr = s.outAddr := rfl
@[simp] theorem zeroizeWork_key (s : State) : (zeroizeWork s).key = s.key := rfl
@[simp] theorem zeroizeWork_nonce (s : State) : (zeroizeWork s).nonce = s.nonce := rfl
@[simp] theorem zeroizeWork_tag (s : State) : (zeroizeWork s).tag = s.tag := rfl
@[simp] theorem zeroizeWork_y (s : State) : (zeroizeWork s).y = s.y := rfl
@[simp] theorem zeroizeWork_subkey (s : State) : (zeroizeWork s).subkey = Vector.replicate 34 0 := rfl
@[simp] theorem zeroizeWork_permState (s : State) : (zeroizeWork s).permState = Vector.replicate 50 0 := rfl
@[simp] theorem zeroizeWork_running (s : State) : (zeroizeWork s).running = s.running := rfl
@[simp] theorem zeroizeWork_memory (s : State) : (zeroizeWork s).memory = s.memory := rfl
@[simp] theorem zeroizeWork_inputs (s : State) : (zeroizeWork s).inputs = s.inputs := rfl
@[simp] theorem zeroizeWork_response (s : State) : (zeroizeWork s).response = s.response := rfl
@[simp] theorem zeroizeWork_draws (s : State) : (zeroizeWork s).draws = s.draws := rfl

/-! ### `clearSecrets` -/

@[simp] theorem clearSecrets_platform (s : State) : (clearSecrets s).platform = s.platform := rfl
@[simp] theorem clearSecrets_status (s : State) : (clearSecrets s).status = s.status := rfl
@[simp] theorem clearSecrets_param (s : State) : (clearSecrets s).param = s.param := rfl
@[simp] theorem clearSecrets_intEn (s : State) : (clearSecrets s).intEn = s.intEn := rfl
@[simp] theorem clearSecrets_intStat (s : State) : (clearSecrets s).intStat = s.intStat := rfl
@[simp] theorem clearSecrets_adAddr (s : State) : (clearSecrets s).adAddr = s.adAddr := rfl
@[simp] theorem clearSecrets_adLen (s : State) : (clearSecrets s).adLen = s.adLen := rfl
@[simp] theorem clearSecrets_inAddr (s : State) : (clearSecrets s).inAddr = s.inAddr := rfl
@[simp] theorem clearSecrets_inLen (s : State) : (clearSecrets s).inLen = s.inLen := rfl
@[simp] theorem clearSecrets_outAddr (s : State) : (clearSecrets s).outAddr = s.outAddr := rfl
@[simp] theorem clearSecrets_key (s : State) : (clearSecrets s).key = Vector.replicate 16 0 := rfl
@[simp] theorem clearSecrets_nonce (s : State) : (clearSecrets s).nonce = Vector.replicate 16 0 := rfl
@[simp] theorem clearSecrets_tag (s : State) : (clearSecrets s).tag = Vector.replicate 16 0 := rfl
@[simp] theorem clearSecrets_y (s : State) : (clearSecrets s).y = Vector.replicate 16 0 := rfl
@[simp] theorem clearSecrets_subkey (s : State) : (clearSecrets s).subkey = Vector.replicate 34 0 := rfl
@[simp] theorem clearSecrets_permState (s : State) : (clearSecrets s).permState = Vector.replicate 50 0 := rfl
@[simp] theorem clearSecrets_running (s : State) : (clearSecrets s).running = s.running := rfl
@[simp] theorem clearSecrets_memory (s : State) : (clearSecrets s).memory = s.memory := rfl
@[simp] theorem clearSecrets_inputs (s : State) : (clearSecrets s).inputs = s.inputs := rfl
@[simp] theorem clearSecrets_response (s : State) : (clearSecrets s).response = s.response := rfl
@[simp] theorem clearSecrets_draws (s : State) : (clearSecrets s).draws = s.draws := rfl

/-! ### `spoilOut` -/

@[simp] theorem spoilOut_platform (s : State) : (spoilOut s).platform = s.platform := rfl
@[simp] theorem spoilOut_status (s : State) : (spoilOut s).status = s.status := rfl
@[simp] theorem spoilOut_param (s : State) : (spoilOut s).param = s.param := rfl
@[simp] theorem spoilOut_intEn (s : State) : (spoilOut s).intEn = s.intEn := rfl
@[simp] theorem spoilOut_intStat (s : State) : (spoilOut s).intStat = s.intStat := rfl
@[simp] theorem spoilOut_adAddr (s : State) : (spoilOut s).adAddr = s.adAddr := rfl
@[simp] theorem spoilOut_adLen (s : State) : (spoilOut s).adLen = s.adLen := rfl
@[simp] theorem spoilOut_inAddr (s : State) : (spoilOut s).inAddr = s.inAddr := rfl
@[simp] theorem spoilOut_inLen (s : State) : (spoilOut s).inLen = s.inLen := rfl
@[simp] theorem spoilOut_outAddr (s : State) : (spoilOut s).outAddr = s.outAddr := rfl
@[simp] theorem spoilOut_key (s : State) : (spoilOut s).key = s.key := rfl
@[simp] theorem spoilOut_nonce (s : State) : (spoilOut s).nonce = s.nonce := rfl
@[simp] theorem spoilOut_tag (s : State) : (spoilOut s).tag = s.tag := rfl
@[simp] theorem spoilOut_y (s : State) : (spoilOut s).y = s.y := rfl
@[simp] theorem spoilOut_subkey (s : State) : (spoilOut s).subkey = s.subkey := rfl
@[simp] theorem spoilOut_permState (s : State) : (spoilOut s).permState = s.permState := rfl
@[simp] theorem spoilOut_running (s : State) : (spoilOut s).running = s.running := rfl
@[simp] theorem spoilOut_memory (s : State) : (spoilOut s).memory = (spoilBytes s.memory s.outAddr.toNat s.inLen.toNat s.draws).1 := rfl
@[simp] theorem spoilOut_inputs (s : State) : (spoilOut s).inputs = s.inputs := rfl
@[simp] theorem spoilOut_response (s : State) : (spoilOut s).response = s.response := rfl
@[simp] theorem spoilOut_draws (s : State) : (spoilOut s).draws = (spoilBytes s.memory s.outAddr.toNat s.inLen.toNat s.draws).2 := rfl

/-! ### `resetEngine` -/

@[simp] theorem resetEngine_platform (s : State) : (resetEngine s).platform = s.platform := rfl
@[simp] theorem resetEngine_status (s : State) : (resetEngine s).status = State.reset.status := rfl
@[simp] theorem resetEngine_param (s : State) : (resetEngine s).param = State.reset.param := rfl
@[simp] theorem resetEngine_intEn (s : State) : (resetEngine s).intEn = State.reset.intEn := rfl
@[simp] theorem resetEngine_intStat (s : State) : (resetEngine s).intStat = State.reset.intStat := rfl
@[simp] theorem resetEngine_adAddr (s : State) : (resetEngine s).adAddr = State.reset.adAddr := rfl
@[simp] theorem resetEngine_adLen (s : State) : (resetEngine s).adLen = State.reset.adLen := rfl
@[simp] theorem resetEngine_inAddr (s : State) : (resetEngine s).inAddr = State.reset.inAddr := rfl
@[simp] theorem resetEngine_inLen (s : State) : (resetEngine s).inLen = State.reset.inLen := rfl
@[simp] theorem resetEngine_outAddr (s : State) : (resetEngine s).outAddr = State.reset.outAddr := rfl
@[simp] theorem resetEngine_key (s : State) : (resetEngine s).key = State.reset.key := rfl
@[simp] theorem resetEngine_nonce (s : State) : (resetEngine s).nonce = State.reset.nonce := rfl
@[simp] theorem resetEngine_tag (s : State) : (resetEngine s).tag = State.reset.tag := rfl
@[simp] theorem resetEngine_y (s : State) : (resetEngine s).y = State.reset.y := rfl
@[simp] theorem resetEngine_subkey (s : State) : (resetEngine s).subkey = State.reset.subkey := rfl
@[simp] theorem resetEngine_permState (s : State) : (resetEngine s).permState = State.reset.permState := rfl
@[simp] theorem resetEngine_running (s : State) : (resetEngine s).running = State.reset.running := rfl
@[simp] theorem resetEngine_memory (s : State) : (resetEngine s).memory = (abandonOut s).memory := rfl
@[simp] theorem resetEngine_inputs (s : State) : (resetEngine s).inputs = s.inputs := rfl
@[simp] theorem resetEngine_response (s : State) : (resetEngine s).response = State.reset.response := rfl
@[simp] theorem resetEngine_draws (s : State) : (resetEngine s).draws = (abandonOut s).draws := rfl

/-! ### `storeTag` and `storeOut`: by cases on what is stored -/

@[simp] theorem storeTag_platform (t : Option (Vector Byte 16)) (s : State) : (storeTag t s).platform = s.platform := by
  cases t <;> rfl
@[simp] theorem storeTag_status (t : Option (Vector Byte 16)) (s : State) : (storeTag t s).status = s.status := by
  cases t <;> rfl
@[simp] theorem storeTag_param (t : Option (Vector Byte 16)) (s : State) : (storeTag t s).param = s.param := by
  cases t <;> rfl
@[simp] theorem storeTag_intEn (t : Option (Vector Byte 16)) (s : State) : (storeTag t s).intEn = s.intEn := by
  cases t <;> rfl
@[simp] theorem storeTag_intStat (t : Option (Vector Byte 16)) (s : State) : (storeTag t s).intStat = s.intStat := by
  cases t <;> rfl
@[simp] theorem storeTag_adAddr (t : Option (Vector Byte 16)) (s : State) : (storeTag t s).adAddr = s.adAddr := by
  cases t <;> rfl
@[simp] theorem storeTag_adLen (t : Option (Vector Byte 16)) (s : State) : (storeTag t s).adLen = s.adLen := by
  cases t <;> rfl
@[simp] theorem storeTag_inAddr (t : Option (Vector Byte 16)) (s : State) : (storeTag t s).inAddr = s.inAddr := by
  cases t <;> rfl
@[simp] theorem storeTag_inLen (t : Option (Vector Byte 16)) (s : State) : (storeTag t s).inLen = s.inLen := by
  cases t <;> rfl
@[simp] theorem storeTag_outAddr (t : Option (Vector Byte 16)) (s : State) : (storeTag t s).outAddr = s.outAddr := by
  cases t <;> rfl
@[simp] theorem storeTag_key (t : Option (Vector Byte 16)) (s : State) : (storeTag t s).key = s.key := by
  cases t <;> rfl
@[simp] theorem storeTag_nonce (t : Option (Vector Byte 16)) (s : State) : (storeTag t s).nonce = s.nonce := by
  cases t <;> rfl
@[simp] theorem storeTag_y (t : Option (Vector Byte 16)) (s : State) : (storeTag t s).y = s.y := by
  cases t <;> rfl
@[simp] theorem storeTag_subkey (t : Option (Vector Byte 16)) (s : State) : (storeTag t s).subkey = s.subkey := by
  cases t <;> rfl
@[simp] theorem storeTag_permState (t : Option (Vector Byte 16)) (s : State) : (storeTag t s).permState = s.permState := by
  cases t <;> rfl
@[simp] theorem storeTag_running (t : Option (Vector Byte 16)) (s : State) : (storeTag t s).running = s.running := by
  cases t <;> rfl
@[simp] theorem storeTag_memory (t : Option (Vector Byte 16)) (s : State) : (storeTag t s).memory = s.memory := by
  cases t <;> rfl
@[simp] theorem storeTag_inputs (t : Option (Vector Byte 16)) (s : State) : (storeTag t s).inputs = s.inputs := by
  cases t <;> rfl
@[simp] theorem storeTag_response (t : Option (Vector Byte 16)) (s : State) : (storeTag t s).response = s.response := by
  cases t <;> rfl
@[simp] theorem storeTag_draws (t : Option (Vector Byte 16)) (s : State) : (storeTag t s).draws = s.draws := by
  cases t <;> rfl
@[simp] theorem storeTag_none_tag (s : State) : (storeTag none s).tag = s.tag := rfl
@[simp] theorem storeTag_some_tag (t : Vector Byte 16) (s : State) : (storeTag (some t) s).tag = t := rfl
@[simp] theorem storeOut_platform (r : Running) (o : Option Bytes) (s : State) : (storeOut r o s).platform = s.platform := by
  cases o <;> rfl
@[simp] theorem storeOut_status (r : Running) (o : Option Bytes) (s : State) : (storeOut r o s).status = s.status := by
  cases o <;> rfl
@[simp] theorem storeOut_param (r : Running) (o : Option Bytes) (s : State) : (storeOut r o s).param = s.param := by
  cases o <;> rfl
@[simp] theorem storeOut_intEn (r : Running) (o : Option Bytes) (s : State) : (storeOut r o s).intEn = s.intEn := by
  cases o <;> rfl
@[simp] theorem storeOut_intStat (r : Running) (o : Option Bytes) (s : State) : (storeOut r o s).intStat = s.intStat := by
  cases o <;> rfl
@[simp] theorem storeOut_adAddr (r : Running) (o : Option Bytes) (s : State) : (storeOut r o s).adAddr = s.adAddr := by
  cases o <;> rfl
@[simp] theorem storeOut_adLen (r : Running) (o : Option Bytes) (s : State) : (storeOut r o s).adLen = s.adLen := by
  cases o <;> rfl
@[simp] theorem storeOut_inAddr (r : Running) (o : Option Bytes) (s : State) : (storeOut r o s).inAddr = s.inAddr := by
  cases o <;> rfl
@[simp] theorem storeOut_inLen (r : Running) (o : Option Bytes) (s : State) : (storeOut r o s).inLen = s.inLen := by
  cases o <;> rfl
@[simp] theorem storeOut_outAddr (r : Running) (o : Option Bytes) (s : State) : (storeOut r o s).outAddr = s.outAddr := by
  cases o <;> rfl
@[simp] theorem storeOut_key (r : Running) (o : Option Bytes) (s : State) : (storeOut r o s).key = s.key := by
  cases o <;> rfl
@[simp] theorem storeOut_nonce (r : Running) (o : Option Bytes) (s : State) : (storeOut r o s).nonce = s.nonce := by
  cases o <;> rfl
@[simp] theorem storeOut_tag (r : Running) (o : Option Bytes) (s : State) : (storeOut r o s).tag = s.tag := by
  cases o <;> rfl
@[simp] theorem storeOut_y (r : Running) (o : Option Bytes) (s : State) : (storeOut r o s).y = s.y := by
  cases o <;> rfl
@[simp] theorem storeOut_subkey (r : Running) (o : Option Bytes) (s : State) : (storeOut r o s).subkey = s.subkey := by
  cases o <;> rfl
@[simp] theorem storeOut_permState (r : Running) (o : Option Bytes) (s : State) : (storeOut r o s).permState = s.permState := by
  cases o <;> rfl
@[simp] theorem storeOut_running (r : Running) (o : Option Bytes) (s : State) : (storeOut r o s).running = s.running := by
  cases o <;> rfl
@[simp] theorem storeOut_inputs (r : Running) (o : Option Bytes) (s : State) : (storeOut r o s).inputs = s.inputs := by
  cases o <;> rfl
@[simp] theorem storeOut_response (r : Running) (o : Option Bytes) (s : State) : (storeOut r o s).response = s.response := by
  cases o <;> rfl
@[simp] theorem storeOut_none (r : Running) (s : State) : storeOut r none s = s := rfl
@[simp] theorem storeOut_some_memory (r : Running) (b : Bytes) (s : State) :
    (storeOut r (some b) s).memory = (engineWrite r.raced s.memory s.outAddr.toNat b s.draws).1 := rfl
@[simp] theorem storeOut_some_draws (r : Running) (b : Bytes) (s : State) :
    (storeOut r (some b) s).draws = (engineWrite r.raced s.memory s.outAddr.toNat b s.draws).2 := rfl

/-! ### The mode -/

@[simp] theorem busy_complete (st : Status) (s : State) : (complete st s).busy = false := rfl
@[simp] theorem busy_accept (i : Instr) (s : State) : (accept i s).busy = true := rfl

end Sys2Proof.Machine
end

