-- ==== Sys2Proof/Laws/Ops.lean ====
section
/-!
SUPPORT. What each shared operation can do, said once: a command that completes at acceptance, a command with two phases, the completion of a DMA command,
and the acceptance checks.
-/

namespace Sys2Proof.Machine

/-! ### The acceptance checks -/

@[simp] theorem firstError_nil : firstError [] = none := rfl
@[simp] theorem firstError_some (e : ErrorCode) (l : List (Option ErrorCode)) : firstError (some e :: l) = some e := rfl
@[simp] theorem firstError_none (l : List (Option ErrorCode)) : firstError (none :: l) = firstError l := rfl

/-- A list of checks passes when each check passes. -/
theorem firstError_eq_none {l : List (Option ErrorCode)} : firstError l = none ↔ ∀ c ∈ l, c = none := by
  induction l with
  | nil => simp
  | cons c l ih => cases c <;> simp [ih]

theorem checkRounds_eq_none {s : State} : checkRounds s = none ↔ s.params.legal = true := by
  unfold checkRounds; split <;> simp_all

theorem checkPermRounds_eq_none {n : Nat} {s : State} :
    checkPermRounds n s = none ↔ 1 ≤ n ∧ n ≤ rmax s.params.perm := by
  simp [checkPermRounds, legalRounds]

theorem checkRange_eq_none {b : Buffer} {s : State} :
    checkRange b s = none ↔ b.len = 0 ∨ b.start + b.len ≤ 2 ^ s.platform.addrW.val := by
  unfold checkRange; split <;> simp_all

theorem checkDisjoint_eq_none {b c : Buffer} : checkDisjoint b c = none ↔ b.sharesByte c = false := by
  unfold checkDisjoint; split <;> simp_all

/-- The checks read only the parameters, the platform and the buffer registers. -/
theorem acceptanceError_congr {s t : State} (i : Instr) (hp : t.param = s.param) (hw : t.platform = s.platform)
    (ha : t.adAddr = s.adAddr) (hal : t.adLen = s.adLen) (hi : t.inAddr = s.inAddr) (hil : t.inLen = s.inLen)
    (ho : t.outAddr = s.outAddr) : acceptanceError i t = acceptanceError i s := by
  cases s; cases t
  simp only at hp hw ha hal hi hil ho
  subst hp hw ha hal hi hil ho
  cases i <;> rfl

/-! ### The two forms of a command -/

/-- Everything a command that completes at acceptance can do. -/
theorem runAtOnce_cases {f : State → State} {s t : State} (h : runAtOnce f s = .next t) :
    (s.running = none ∧ t = complete (okStatus false) (f s)) ∨ (∃ r, s.running = some r ∧ t = setOverrun s) := by
  unfold runAtOnce at h
  split at h
  · next hr => exact Or.inl ⟨hr, by cases h; rfl⟩
  · next r hr => exact Or.inr ⟨r, hr, by cases h; rfl⟩

/-- Everything a command with two phases can do. -/
theorem runPhases_cases {i : Instr} {f : Running → State → State} {s t : State} (h : runPhases i f s = .next t) :
    (∃ e, s.running = none ∧ acceptanceError i s = some e ∧ t = completeError e s) ∨
    (s.running = none ∧ acceptanceError i s = none ∧ t = accept i s) ∨
    (∃ r, s.running = some r ∧ r.cmd = i ∧ r.hung = true ∧ t = s) ∨
    (∃ r, s.running = some r ∧ r.cmd = i ∧ r.hung = false ∧ t = f r s) ∨
    (∃ r, s.running = some r ∧ r.cmd ≠ i ∧ t = setOverrun s) := by
  unfold runPhases at h
  split at h
  · next hr =>
    split at h
    · next e he => exact Or.inl ⟨e, hr, he, by cases h; rfl⟩
    · next he => exact Or.inr (Or.inl ⟨hr, he, by cases h; rfl⟩)
  · next r hr =>
    split at h
    · next hc =>
      cases hh : r.hung with
      | true => exact Or.inr (Or.inr (Or.inl ⟨r, hr, hc, hh, by simp [hh] at h; exact h.symm⟩))
      | false => exact Or.inr (Or.inr (Or.inr (Or.inl ⟨r, hr, hc, hh, by simp [hh] at h; exact h.symm⟩)))
    · next hc => exact Or.inr (Or.inr (Or.inr (Or.inr ⟨r, hr, hc, by cases h; rfl⟩)))

/-- Neither form stops. -/
theorem runAtOnce_goesOn (f : State → State) (s : State) : goesOn (runAtOnce f s) := by
  unfold runAtOnce goesOn; split <;> exact ⟨_, rfl⟩

theorem runPhases_goesOn (i : Instr) (f : Running → State → State) (s : State) : goesOn (runPhases i f s) := by
  unfold runPhases goesOn
  split
  · split <;> exact ⟨_, rfl⟩
  · split <;> exact ⟨_, rfl⟩

theorem runPhases_accept {i : Instr} {f : Running → State → State} {s : State} (hr : s.running = none)
    (he : acceptanceError i s = none) : runPhases i f s = .next (accept i s) := by
  simp [runPhases, hr, he]

theorem runPhases_reject {i : Instr} {f : Running → State → State} {s : State} {e : ErrorCode} (hr : s.running = none)
    (he : acceptanceError i s = some e) : runPhases i f s = .next (completeError e s) := by
  simp [runPhases, hr, he]

theorem runPhases_complete {i : Instr} {f : Running → State → State} {s : State} {r : Running} (hr : s.running = some r)
    (hc : r.cmd = i) (hh : r.hung = false) : runPhases i f s = .next (f r s) := by
  simp [runPhases, hr, hc, hh]

theorem runPhases_hung {i : Instr} {f : Running → State → State} {s : State} {r : Running} (hr : s.running = some r)
    (hc : r.cmd = i) (hh : r.hung = true) : runPhases i f s = .next s := by
  simp [runPhases, hr, hc, hh]

/-! ### The completion of a DMA command -/

/-- Everything the completion step of a DMA command can do: complete normally, complete with ERR_BUS, or hang. -/
theorem finish_cases (p : Plan) (r : Running) (s : State) :
    (p.dma = .done ∧
      finish p r s = complete (okStatus p.verify) (zeroizeWork (storeTag p.tag (storeOut r p.out s)))) ∨
    (p.dma = .error ∧ p.out = none ∧ finish p r s = completeError .bus (zeroizeWork s)) ∨
    (p.dma = .error ∧ p.out ≠ none ∧ finish p r s = completeError .bus (zeroizeWork (spoilOut s))) ∨
    (p.dma = .silent ∧ finish p r s = { s with running := some { r with hung := true } }) := by
  unfold finish
  cases hd : p.dma with
  | done => exact Or.inl ⟨rfl, rfl⟩
  | error =>
    cases ho : p.out with
    | none => exact Or.inr (Or.inl ⟨rfl, rfl, by simp⟩)
    | some b => exact Or.inr (Or.inr (Or.inl ⟨rfl, by simp, by simp⟩))
  | silent => exact Or.inr (Or.inr (Or.inr ⟨rfl, rfl⟩))

/-- A sequence of transactions ends well exactly when each of its addresses answers well (R194, R189). -/
theorem dmaEnd_eq_done {pl : Platform} {l : List Nat} :
    dmaEnd pl l = .done ↔ ∀ a ∈ l, busErrorAt pl a = false ∧ silentAt pl a = false := by
  induction l with
  | nil => simp [dmaEnd]
  | cons a l ih =>
    cases he : busErrorAt pl a <;> cases hs : silentAt pl a <;> simp [dmaEnd, he, hs, ih]

/-- On a platform where every address answers, every sequence of transactions ends well. -/
theorem dmaEnd_answersAll {pl : Platform} (h : answersAll pl) (l : List Nat) : dmaEnd pl l = .done :=
  dmaEnd_eq_done.mpr fun a _ => by simp [busErrorAt, silentAt, inRanges, h.1, h.2]

/-- The field lemmas of `finish` that hold however the DMA ends. -/
theorem finish_keeps (p : Plan) (r : Running) (s : State) :
    (finish p r s).platform = s.platform ∧ (finish p r s).param = s.param ∧ (finish p r s).intEn = s.intEn ∧
    (finish p r s).adAddr = s.adAddr ∧ (finish p r s).adLen = s.adLen ∧ (finish p r s).inAddr = s.inAddr ∧
    (finish p r s).inLen = s.inLen ∧ (finish p r s).outAddr = s.outAddr ∧ (finish p r s).key = s.key ∧
    (finish p r s).nonce = s.nonce ∧ (finish p r s).y = s.y ∧ (finish p r s).inputs = s.inputs ∧
    (finish p r s).response = s.response := by
  rcases finish_cases p r s with ⟨-, h⟩ | ⟨-, -, h⟩ | ⟨-, -, h⟩ | ⟨-, h⟩ <;> simp [h]

end Sys2Proof.Machine
end

