-- ==== Sys2Proof/Laws/Aperture.lean ====
section
/-!
SUPPORT. What a host access can do (R72 to R75, R180), said once.
-/

namespace Sys2Proof.Machine

/-- A host read changes nothing but the response (R74). -/
theorem hostRead_eq (addr : Word64) (size : Nat) (s : State) : ∃ resp, hostRead addr size s = { s with response := resp } := by
  unfold hostRead
  split
  · split <;> exact ⟨_, rfl⟩
  · exact ⟨_, rfl⟩

/-- Everything a host write can do: no effect, a presented command word, or a register write. -/
theorem hostWrite_cases {present : Word32 → State → Host.Outcome State Fault Refusal} {addr : Word64} {size : Nat} {data : Word64}
    {s : State} {o : Host.Outcome State Fault Refusal} (h : hostWrite present addr size data s = o) :
    (∃ resp, o = .next { s with response := resp }) ∨
    (∃ w, s.busy = false ∧ o = present w { s with response := .okay 0 }) ∨
    (∃ a d, o = .next (writeReg a d { s with response := .okay 0 }) ∧ (a.reg ≠ .cmd ∨ s.busy = true)) := by
  unfold hostWrite at h
  split at h
  · split at h
    · exact Or.inl ⟨_, h.symm⟩
    · next a ha =>
      simp only at h
      split at h
      · next hc =>
        split at h
        · exact Or.inr (Or.inl ⟨_, hc.2, h.symm⟩)
        · exact Or.inl ⟨_, h.symm⟩
      · next hc =>
        refine Or.inr (Or.inr ⟨_, _, h.symm, ?_⟩)
        by_cases hr : a.reg = .cmd
        · right
          cases hb : s.busy with
          | true => rfl
          | false => exact absurd ⟨hr, hb⟩ hc
        · exact Or.inl hr
  · exact Or.inl ⟨_, h.symm⟩

/-- Everything a register write can do: INT_EN, INT_STAT, the busy rule (R180), or the register itself. -/
theorem writeReg_cases (a : Access) (d : Word64) (s : State) :
    (∃ v, writeReg a d s = Reg.set .intEn (mergeWrite (Reg.stored .intEn s) v a.lanes 0x3) s) ∨
    (writeReg a d s = { s with intStat := clearOnes s.intStat ((d &&& a.lanes).setWidth 2) }) ∨
    (s.busy = true ∧ writeReg a d s = s) ∨
    (s.busy = true ∧ writeReg a d s = setOverrun s) ∨
    (s.busy = false ∧ ∃ v, writeReg a d s = a.reg.set (v &&& a.reg.implemented) s) := by
  unfold writeReg
  split
  · exact Or.inl ⟨d, rfl⟩
  · exact Or.inr (Or.inl rfl)
  · next r h1 h2 =>
    by_cases hb : s.busy = true
    · rw [if_pos hb]
      split
      · exact Or.inr (Or.inr (Or.inl ⟨hb, rfl⟩))
      · exact Or.inr (Or.inr (Or.inr (Or.inl ⟨hb, rfl⟩)))
    · rw [if_neg hb]
      exact Or.inr (Or.inr (Or.inr (Or.inr ⟨Bool.eq_false_iff.mpr hb, _, rfl⟩)))

end Sys2Proof.Machine
end

