-- ==== Sys2Proof/Laws/Step.lean ====
section
/-!
SUPPORT. What a step can do, said once for each action of the environment.
-/

namespace Sys2Proof.Machine

/-! ### Each command as one of the two forms -/

theorem exec_nop (s : State) : exec .nop s = runAtOnce (fun s => s) s := rfl

theorem exec_perm (n : Nat) (s : State) : exec (.perm n) s = runPhases (.perm n)
    (fun _ s => complete (okStatus false) { s with permState := permResult s.params.perm n s.permState }) s := rfl

theorem exec_rk (mode : RkMode) (s : State) : exec (.rk mode) s = runPhases (.rk mode)
    (fun _ s => complete (okStatus false)
      { s with
        subkey := toReg 34 (isapRk s.params s.key.toList s.y.toList mode)
        permState := Vector.replicate 50 0 }) s := rfl

theorem exec_enc (s : State) : exec .enc s = runPhases .enc (fun r s => finish (encPlan r s) r s) s := rfl

theorem exec_mac (s : State) : exec .mac s = runPhases .mac (fun r s => finish (macPlan r s) r s) s := rfl

theorem exec_aeadEnc (s : State) : exec .aeadEnc s = runPhases .aeadEnc (fun r s => finish (aeadEncPlan r s) r s) s := rfl

theorem exec_aeadDec (s : State) : exec .aeadDec s = runPhases .aeadDec (fun r s => finish (aeadDecPlan r s) r s) s := rfl

theorem exec_setinst (p : InstanceId) (s : State) : exec (.setinst p) s =
    runAtOnce (fun s => { s with param := presetParam (presetRow s.platform.presets p) }) s := rfl

theorem exec_clear (s : State) : exec .clear s = runAtOnce clearSecrets s := rfl

/-- No command stops the machine. -/
theorem exec_goesOn (i : Instr) (s : State) : goesOn (exec i s) := by
  cases i with
  | nop => rw [exec_nop]; exact runAtOnce_goesOn _ _
  | perm n => rw [exec_perm]; exact runPhases_goesOn _ _ _
  | rk m => rw [exec_rk]; exact runPhases_goesOn _ _ _
  | enc => rw [exec_enc]; exact runPhases_goesOn _ _ _
  | mac => rw [exec_mac]; exact runPhases_goesOn _ _ _
  | aeadEnc => rw [exec_aeadEnc]; exact runPhases_goesOn _ _ _
  | aeadDec => rw [exec_aeadDec]; exact runPhases_goesOn _ _ _
  | setinst p => rw [exec_setinst]; exact runAtOnce_goesOn _ _
  | clear => rw [exec_clear]; exact runAtOnce_goesOn _ _

theorem presentWord_goesOn (w : Word32) (s : State) : goesOn (presentWord w s) := by
  unfold presentWord
  split
  · exact exec_goesOn _ _
  · exact ⟨_, rfl⟩

theorem engineStep_goesOn (s : State) : goesOn (engineStep s) := by
  unfold engineStep
  split
  · exact ⟨_, rfl⟩
  · exact exec_goesOn _ _

@[simp] theorem step_nil {s : State} (h : s.inputs = []) : step s = engineStep s := by
  simp [step, h]

@[simp] theorem step_cons {s : State} {e : Input} {rest : List Input} (h : s.inputs = e :: rest) :
    step s = act e { s with inputs := rest } := by
  simp [step, h]

/-- The bus address of an offset lies in the aperture, at that offset (R22). -/
theorem inAperture_busAddr (pl : Platform) (off : BitVec 9) : inAperture pl (busAddr pl off) = true := by
  unfold inAperture busAddr
  rw [decide_eq_true_eq]
  refine BitVec.eq_of_getLsbD_eq fun i hi => ?_
  have h9 : ¬(9 + i < 9) := by omega
  have h64 : 9 + i < 64 := by omega
  simp [hi, h9, h64]

theorem apertureOffset_busAddr (pl : Platform) (off : BitVec 9) : apertureOffset (busAddr pl off) = off.toNat := by
  unfold apertureOffset busAddr
  congr 1
  refine BitVec.eq_of_getLsbD_eq fun i hi => ?_
  have h64 : i < 64 := by omega
  simp [hi, h64]

/-- The four bytes of a word, in aperture order, decode as the word. -/
theorem leNat_leBytes_word (w : Word32) : BitVec.ofNat 32 (leNat (leBytes w.toNat 4)) = w := by
  have hw := w.isLt
  have : leBytes w.toNat 4 =
      [BitVec.ofNat 8 (w.toNat >>> 0), BitVec.ofNat 8 (w.toNat >>> 8), BitVec.ofNat 8 (w.toNat >>> 16),
        BitVec.ofNat 8 (w.toNat >>> 24)] := rfl
  rw [this]
  apply BitVec.eq_of_toNat_eq
  simp only [leNat, BitVec.toNat_ofNat, Nat.shiftRight_eq_div_pow]
  omega

theorem decode_leBytes (w : Word32) : decode (leBytes w.toNat 4) = decodeWord w := by
  have h : ¬(leBytes w.toNat 4).length < 4 := by simp [leBytes]
  have ht : (leBytes w.toNat 4).take 4 = leBytes w.toNat 4 := List.take_of_length_le (by simp [leBytes])
  rw [decode, if_neg h, ht, leNat_leBytes_word]

end Sys2Proof.Machine
end

