-- ==== Sys2Proof/Laws/Hazards.lean ====
section
/-!
SUPPORT. What a host's access to the DMA space can do while a command runs (R216 to R218), and the completion step of the DMA commands, said once.
-/

namespace Sys2Proof.Machine

/-! ### The plan of a running command -/

theorem runningPlan_enc {r : Running} {s : State} (h : r.cmd = .enc) : runningPlan r s = some (encPlan r s) := by
  simp [runningPlan, h]

theorem runningPlan_mac {r : Running} {s : State} (h : r.cmd = .mac) : runningPlan r s = some (macPlan r s) := by
  simp [runningPlan, h]

theorem runningPlan_aeadEnc {r : Running} {s : State} (h : r.cmd = .aeadEnc) : runningPlan r s = some (aeadEncPlan r s) := by
  simp [runningPlan, h]

theorem runningPlan_aeadDec {r : Running} {s : State} (h : r.cmd = .aeadDec) : runningPlan r s = some (aeadDecPlan r s) := by
  simp [runningPlan, h]

/-- The completion step of a command with a plan carries that plan out. -/
theorem exec_runningPlan {s : State} {r : Running} {p : Plan} (hr : s.running = some r) (hh : r.hung = false)
    (hp : runningPlan r s = some p) : exec r.cmd s = .next (finish p r s) := by
  unfold runningPlan at hp
  split at hp <;> first | cases hp; done | skip
  all_goals
    rename_i hc
    obtain rfl := Option.some.inj hp
    rw [hc]
  · rw [exec_enc, runPhases_complete hr hc hh]
  · rw [exec_mac, runPhases_complete hr hc hh]
  · rw [exec_aeadEnc, runPhases_complete hr hc hh]
  · rw [exec_aeadDec, runPhases_complete hr hc hh]

/-! ### What a host does -/

/-- Everything a host write to the DMA space does while a command runs. -/
theorem hostDmaWrite_eq {s t : State} {r : Running} {addr : Word64} {v : Byte} (hr : s.running = some r)
    (h : hostDmaWrite addr v s = .next t) :
    t = { s with
      memory := writeByte s.memory addr.toNat v
      running := some (noteRace s.memory addr.toNat r)
      response := .okay 0 } := by
  unfold hostDmaWrite at h
  split at h
  · cases h
  · rw [hr] at h
    cases h
    rfl

/-- Everything a read of an OUT byte can see: the present value and no draw, or one of the present value and the value that the command writes. -/
theorem outByteSeen_cases (r : Running) (p : Plan) (s : State) (a : Nat) :
    (outByteSeen r p s a = (readByte s.memory a, s.draws) ∧
      (p.out = none ∨ outIssued s a = false ∨ outSettled r s (a - s.outBuf.start) = false)) ∨
    (∃ bytes, p.out = some bytes ∧ outIssued s a = true ∧ outSettled r s (a - s.outBuf.start) = true ∧
      outByteSeen r p s a = pick (readByte s.memory a) [bytes.getD (a - s.outBuf.start) 0] s.draws) := by
  unfold outByteSeen
  cases ho : p.out with
  | none => exact Or.inl ⟨rfl, Or.inl rfl⟩
  | some bytes => cases hi : outIssued s a <;> cases hs : outSettled r s (a - s.outBuf.start) <;> simp

/-- A sequence that ends well comes to all its transactions. -/
theorem issued_of_done {pl : Platform} {l : List Nat} (h : dmaEnd pl l = .done) : issued pl l = l := by
  induction l with
  | nil => rfl
  | cons a l ih =>
    have h' := dmaEnd_eq_done.mp h
    have ha := h' a List.mem_cons_self
    rw [issued, ha.1, ha.2, ih (dmaEnd_eq_done.mpr fun b hb => h' b (List.mem_cons_of_mem _ hb))]
    rfl

/-- An Enc phase writes every byte of its output (R79, R142). -/
theorem mem_encAddrs_out {rate : Nat} {inp out : Buffer} {a : Nat} (hr : 0 < rate) (hl : out.len = inp.len) (h : out.has a = true) :
    a ∈ encAddrs rate inp out := by
  have ha : out.start ≤ a ∧ a < out.start + out.len := by simpa only [Buffer.has, decide_eq_true_eq] using h
  have hk : a - out.start < inp.len := by omega
  have hm := Nat.div_add_mod (a - out.start) rate
  have hlt := Nat.mod_lt (a - out.start) hr
  have hb : (a - out.start) / rate < blockCount rate inp.len := by
    have hc := le_blockCount_mul rate inp.len hr
    exact Nat.div_lt_of_lt_mul (by rw [Nat.mul_comm]; omega)
  rw [encAddrs, List.mem_flatMap]
  refine ⟨(a - out.start) / rate, List.mem_range.mpr hb, ?_⟩
  simp only [List.mem_append, addrsFrom, List.mem_map, List.mem_range]
  refine Or.inr ⟨(a - out.start) % rate, ?_, ?_⟩ <;> rw [Nat.mul_comm ((a - out.start) / rate)] <;> omega

/-- What the command writes to a settled byte stays settled, whatever a host does to the DMA space. -/
theorem outSettled_noteRace {s t : State} {r : Running} {m : Memory} {a k : Nat} (hal : t.adLen = s.adLen) (hil : t.inLen = s.inLen)
    (h : outSettled r s k = true) : outSettled (noteRace m a r) t k = true := by
  have hb : t.adBuf.len = s.adBuf.len := by simp [State.adBuf, hal]
  have hi : t.inBuf.len = s.inBuf.len := by simp [State.inBuf, hil]
  have hr : readForOut (noteRace m a r) t k = readForOut r s k := by simp [readForOut, noteRace, hb, hi]
  obtain ⟨h1, h2⟩ : mayHaveWritten r s = true ∧ readDone r (readForOut r s k) = true := by simpa [outSettled] using h
  rw [outSettled, Bool.and_eq_true]
  refine ⟨?_, hr ▸ readDone_noteRace h2⟩
  have hc : (noteRace m a r).cmd = r.cmd := rfl
  unfold mayHaveWritten at h1 ⊢
  rw [hc]
  cases hcmd : r.cmd <;> rw [hcmd] at h1 <;> first | exact absurd h1 Bool.false_ne_true | exact h1 | skip
  rw [hb, hi]
  simp only [List.all_eq_true] at h1 ⊢
  exact fun j hj => readDone_noteRace (h1 j hj)

end Sys2Proof.Machine
end

