-- ==== Sys2Proof/Laws/PerInstr.lean ====
section
/-!
SUPPORT. Statements made for every command, one lemma per constructor.
-/

namespace Sys2Proof.Laws.EncodesRow

/-- The word of a well-formed command has its opcode row's fixed bits (R88). -/
def Statement (i : Instr) : Prop := i.wellFormed = true → encode i &&& rowMask i = rowMatch i

theorem nop : Statement .nop := by
  intro _; decide

theorem perm (rounds : Nat) : Statement (.perm rounds) := by
  intro h
  have hr : rounds < 32 := of_decide_eq_true h
  interval_cases rounds <;> decide

theorem rk (mode : RkMode) : Statement (.rk mode) := by
  intro _; cases mode <;> decide

theorem enc : Statement .enc := by
  intro _; decide

theorem mac : Statement .mac := by
  intro _; decide

theorem aeadEnc : Statement .aeadEnc := by
  intro _; decide

theorem aeadDec : Statement .aeadDec := by
  intro _; decide

theorem setinst (inst : InstanceId) : Statement (.setinst inst) := by
  intro _; cases inst <;> decide

theorem clear : Statement .clear := by
  intro _; decide

end Sys2Proof.Laws.EncodesRow
end

