-- ==== Sys2Proof/Machine/Work.lean ====
section
/-!
DEFINITION. The reference work of each command, in permutation rounds (R135, R159, R222). It is no timing, and no rule depends on it (R224).
-/

namespace Sys2Proof.Machine

/-- The work of one Rk (R135). -/
def rkWork (ps : Params) : Nat := 2 * ps.sk + 127 * ps.sb

/-- The work of ENC with `len` bytes (R222). -/
def encWork (ps : Params) (len : Nat) : Nat := rkWork ps + ps.se * blockCount (rateBytes ps.perm) len

/-- The work of MAC with `a` and `c` bytes (R159, R222). -/
def macWork (ps : Params) (a c : Nat) : Nat :=
  ps.sh * (a / rateBytes ps.perm + c / rateBytes ps.perm + 4) + rkWork ps

/-- The work of a command; AEAD_DEC's depends on whether the tag matched (R222). -/
def commandWork (i : Instr) (matched : Bool) (s : State) : Nat :=
  match i with
  | .nop => 0
  | .perm rounds => rounds
  | .rk _ => rkWork s.params
  | .enc => encWork s.params s.inBuf.len
  | .mac => macWork s.params s.adBuf.len s.inBuf.len
  | .aeadEnc => encWork s.params s.inBuf.len + macWork s.params s.adBuf.len s.inBuf.len
  | .aeadDec => macWork s.params s.adBuf.len s.inBuf.len + (if matched then encWork s.params s.inBuf.len else 0)
  | .setinst _ => 0
  | .clear => 0

end Sys2Proof.Machine
end

