-- ==== Sys2Proof/Certificates/Slice0/Obligations.lean ====
section
/-!
DEFINITION. The statements about the ISAP core, for the provers.
-/

open Sys2Proof Sys2Proof.Machine

/-! ### The encoding of commands -/

/-- Every well-formed command is read back from the word it is encoded as (R91, R93). -/
def Obligations.DecodeInvertsEncode : Prop :=
  ∀ i : Instr, i.wellFormed = true → decodeWord (encode i) = .ok i

/-- A word that decodes is the encoding of what it decodes to, and that command is well-formed (R89, R91): no bit of a word is ignored. -/
def Obligations.DecodedWordIsItsEncoding : Prop :=
  ∀ (w : Word32) (i : Instr), decodeWord w = .ok i → i.wellFormed = true ∧ encode i = w

/-- The decoder is the opcode map of R88, row by row; a word that matches no row decodes to nothing. -/
def Obligations.DecoderFollowsOpcodeRows : Prop :=
  ∀ w : Word32,
    (decodeWord w = .ok .nop ↔ w &&& 0xFFFFFFFF = 0x00000000) ∧
    (decodeWord w = .ok (.perm (w.extractLsb' 16 5).toNat) ↔ w &&& 0xFFE0FFFF = 0x00000001) ∧
    (decodeWord w = .ok (.rk (if w.getLsbD 8 then .mac else .enc)) ↔ w &&& 0xFFFFFEFF = 0x00000002) ∧
    (decodeWord w = .ok .enc ↔ w &&& 0xFFFFFFFF = 0x00000003) ∧
    (decodeWord w = .ok .mac ↔ w &&& 0xFFFFFFFF = 0x00000004) ∧
    (decodeWord w = .ok .aeadEnc ↔ w &&& 0xFFFFFFFF = 0x00000005) ∧
    (decodeWord w = .ok .aeadDec ↔ w &&& 0xFFFFFFFF = 0x00000006) ∧
    (decodeWord w = .ok (.setinst (instanceOfField (w.extractLsb' 24 2))) ↔ w &&& 0xFCFFFFFF = 0x00000007) ∧
    (decodeWord w = .ok .clear ↔ w &&& 0xFFFFFFFF = 0x00000008) ∧
    ((∃ e, decodeWord w = .error e) ↔ ∀ i : Instr, w &&& rowMask i ≠ rowMatch i)

/-- The examples of R96. -/
def Obligations.EncodingExamplesDecode : Prop :=
  decodeWord 0x000C0001 = .ok (.perm 12) ∧ decodeWord 0x00140001 = .ok (.perm 20) ∧
  decodeWord 0x00010001 = .ok (.perm 1) ∧ decodeWord 0x00000102 = .ok (.rk .mac) ∧
  decodeWord 0x03000007 = .ok (.setinst .k128) ∧ decodeWord 0x00000009 = .error .unknownOpcode ∧
  decodeWord 0x00000101 = .error .reservedBitSet ∧ decodeWord 0x00008003 = .error .reservedBitSet

/-! ### A step runs the decoded command -/

/-- A host write of 4 or 8 bytes at offset 0x008 while the engine is IDLE: when the word written decodes, the step is `exec` of the command, at the state in which the write has
been answered OKAY and is no longer pending (R25, R178). -/
def Obligations.StepRunsTheDecodedCommand : Prop :=
  ∀ (s : State) (i : Instr) (addr data : Word64) (size : Nat) (rest : List Input),
    s.running = none → s.inputs = .write addr size data :: rest → inAperture s.platform addr = true →
    apertureOffset addr = 0x008 → size = 4 ∨ size = 8 → decodeWord (data.setWidth 32) = .ok i →
    i.wellFormed = true ∧ step s = exec i { s with inputs := rest, response := .okay 0 }

/-- The same for a word that matches no row of R88: it completes at once with ERR_ILLEGAL, and only STATUS and INT_STAT change (beside the answered write) (R90). -/
def Obligations.IllegalWordCompletesWithError : Prop :=
  ∀ (s : State) (addr data : Word64) (size : Nat) (rest : List Input),
    s.running = none → s.inputs = .write addr size data :: rest → inAperture s.platform addr = true →
    apertureOffset addr = 0x008 → size = 4 ∨ size = 8 →
    (∀ i : Instr, data.setWidth 32 &&& rowMask i ≠ rowMatch i) →
    step s = .next { s with
      inputs := rest
      response := .okay 0
      status := { err := true, verify := false, errcode := 0x01 }
      intStat := s.intStat ||| 0b01 }

/-- A word placed by `withFetchWord` is the next command the engine runs: the model's way of placing a command (log 1). -/
def Obligations.FetchedWordIsTheNextCommand : Prop :=
  ∀ (s : State) (nbits w : Nat) (i : Instr), decodeTableWord nbits w = some i →
    step (s.withFetchWord nbits w) = exec i { s with running := none, response := .okay 0 }

/-- While BUSY, the engine's step is `exec` of the accepted command; while IDLE it leaves everything as it is (R175, R212). Either holds whether the environment yields the step or has no action left (R188; the
list of actions is the model's choice, log 1). -/
def Obligations.EngineStepRunsTheAcceptedCommand : Prop :=
  (∀ (s : State) (r : Running), s.running = some r →
    (s.inputs = [] → step s = exec r.cmd s) ∧
    (∀ rest, s.inputs = .engine :: rest → step s = exec r.cmd { s with inputs := rest })) ∧
  (∀ s : State, s.running = none →
    (s.inputs = [] → step s = .next s) ∧
    (∀ rest, s.inputs = .engine :: rest → step s = .next { s with inputs := rest }))

/-! ### What each command does -/

/-- NOP (R185): its word is 0x00000000 exactly; it changes only the flags of a completion; while BUSY it is ignored with OVERRUN. -/
def Obligations.NopCompletes : Prop :=
  (∀ w : Word32, decodeWord w = .ok .nop ↔ w = 0x00000000) ∧
  ∀ s : State,
    (s.running = none → exec .nop s = .next { s with
      running := none, status := { err := false, verify := false, errcode := 0x00 }, intStat := s.intStat ||| 0b01 }) ∧
    (s.running ≠ none → exec .nop s = .next { s with intStat := s.intStat ||| 0b10 })

/-- SETINST: its words are those of R186's mask and match; it loads PARAM with the preset row's fields, each in its place, and changes nothing else but the flags (R186); with the default table the four
values are those of R29. -/
def Obligations.SetinstLoadsThePreset : Prop :=
  (∀ w : Word32, decodeWord w = .ok (.setinst (instanceOfField (w.extractLsb' 24 2))) ↔ w &&& 0xFCFFFFFF = 0x00000007) ∧
  (∀ (s : State) (inst : InstanceId), s.running = none →
    ∃ t, exec (.setinst inst) s = .next t ∧
      t = { s with
        param := t.param
        running := none
        status := { err := false, verify := false, errcode := 0x00 }
        intStat := s.intStat ||| 0b01 } ∧
      t.params = {
        perm := (presetRow s.platform.presets inst).perm
        sb := (presetRow s.platform.presets inst).sb.toNat
        sk := (presetRow s.platform.presets inst).sk.toNat
        se := (presetRow s.platform.presets inst).se.toNat
        sh := (presetRow s.platform.presets inst).sh.toNat } ∧
      t.param &&& ~~~paramMask = 0) ∧
  presetParam (presetRow instancePresets .a128a) = 0x0000000C060C0100 ∧
  presetParam (presetRow instancePresets .a128) = 0x0000000C0C0C0C00 ∧
  presetParam (presetRow instancePresets .k128a) = 0x0000001008080101 ∧
  presetParam (presetRow instancePresets .k128) = 0x000000140C0C0C01

/-- CLEAR: its word is 0x00000008 exactly; it zeroizes the six byte-string registers and keeps everything else but the flags (R187). -/
def Obligations.ClearZeroizesSecrets : Prop :=
  (∀ w : Word32, decodeWord w = .ok .clear ↔ w = 0x00000008) ∧
  ∀ s : State, s.running = none → exec .clear s = .next { s with
    key := Vector.replicate 16 0
    nonce := Vector.replicate 16 0
    tag := Vector.replicate 16 0
    y := Vector.replicate 16 0
    subkey := Vector.replicate 34 0
    permState := Vector.replicate 50 0
    running := none
    status := { err := false, verify := false, errcode := 0x00 }
    intStat := s.intStat ||| 0b01 }

/-- PERM: its words are those of R115's mask and match; it is accepted exactly as R115 says, and at completion STATE[0..n) is `p` of STATE[0..n) while the other bytes, every other register and the DMA space keep their values,
whatever a host wrote to the DMA space meanwhile (R67). That VERIFY is 0 from acceptance on is the model's choice between R26 and R179 (log 23). -/
def Obligations.PermRuns : Prop :=
  (∀ w : Word32, decodeWord w = .ok (.perm (w.extractLsb' 16 5).toNat) ↔ w &&& 0xFFE0FFFF = 0x00000001) ∧
  (∀ (s : State) (n : Nat), s.running = none →
    (1 ≤ n ∧ n ≤ rmax s.params.perm → exec (.perm n) s = .next (acceptedState (.perm n) s)) ∧
    (n = 0 ∨ rmax s.params.perm < n → exec (.perm n) s = .next (rejectedState 0x02 s))) ∧
  (∀ (s : State) (r : Running) (n : Nat), s.running = some r → r.cmd = .perm n → r.hung = false →
    ∃ t, exec (.perm n) s = .next t ∧
      t = { s with
        permState := t.permState
        running := none
        status := { err := false, verify := false, errcode := 0x00 }
        intStat := s.intStat ||| 0b01 } ∧
      ∀ (k : Nat) (hk : k < 50), t.permState[k] =
        if k < stateBytes s.params.perm
        then (permute s.params.perm (s.permState.toList.take (stateBytes s.params.perm)) n).getD k 0
        else s.permState[k])

/-- RK: its words are those of R133's mask and match; it is accepted when the four round counts are legal and else ends with ERR_ROUNDS; at completion SUBKEY is the z bytes of Rk and then
zero bytes, STATE is zero, and every other register and the DMA space keep their values (R133, R134), whatever a host wrote to the DMA
space meanwhile (R67). That VERIFY is 0 from acceptance on is the model's choice between R26 and R179
(log 23). -/
def Obligations.RkRuns : Prop :=
  (∀ w : Word32, decodeWord w = .ok (.rk (if w.getLsbD 8 then .mac else .enc)) ↔ w &&& 0xFFFFFEFF = 0x00000002) ∧
  (∀ (s : State) (mode : RkMode), s.running = none →
    (s.params.legal = true → exec (.rk mode) s = .next (acceptedState (.rk mode) s)) ∧
    (s.params.legal = false → exec (.rk mode) s = .next (rejectedState 0x02 s))) ∧
  (∀ (s : State) (r : Running) (mode : RkMode), s.running = some r → r.cmd = .rk mode → r.hung = false →
    ∃ t, exec (.rk mode) s = .next t ∧
      t = { s with
        subkey := t.subkey
        permState := Vector.replicate 50 0
        running := none
        status := { err := false, verify := false, errcode := 0x00 }
        intStat := s.intStat ||| 0b01 } ∧
      ∀ (k : Nat) (hk : k < 34), t.subkey[k] =
        if k < rkBytes s.params.perm mode
        then (isapRk s.params s.key.toList s.y.toList mode).getD k 0
        else 0)

/-- ENC (R142): its word; at acceptance ERR_ROUNDS, else ERR_RANGE if IN or OUT does not fit, else ERR_OVERLAP if OUT has a byte in common with IN, else BUSY; at completion, if every DMA address
answers, OUT holds Enc of IN, every other byte of the DMA space is as before, STATE and SUBKEY are zero, and every other register keeps its value; with a bus error, ERR_BUS, and no byte outside
OUT changes. The transaction order that decides which failure comes first is the model's choice (log 10), and so is VERIFY at acceptance (log 23). A command raced by a host is the subject of
OutWriteRace. -/
def Obligations.EncRuns : Prop :=
  (∀ w : Word32, decodeWord w = .ok .enc ↔ w = 0x00000003) ∧
  (∀ s : State, s.running = none →
    (s.params.legal = false → exec .enc s = .next (rejectedState 0x02 s)) ∧
    (s.params.legal = true → ¬(fits s.inBuf s ∧ fits s.outBuf s) → exec .enc s = .next (rejectedState 0x03 s)) ∧
    (s.params.legal = true → fits s.inBuf s → fits s.outBuf s → ¬apart s.outBuf s.inBuf →
      exec .enc s = .next (rejectedState 0x04 s)) ∧
    (s.params.legal = true → fits s.inBuf s → fits s.outBuf s → apart s.outBuf s.inBuf →
      exec .enc s = .next (acceptedState .enc s))) ∧
  (∀ s : State, busyWith .enc s → answersWell s (encPhaseAddrs s) → Memory.wf s.memory →
    ∃ t, exec .enc s = .next t ∧
      t = { s with
        memory := t.memory
        permState := Vector.replicate 50 0
        subkey := Vector.replicate 34 0
        running := none
        status := { err := false, verify := false, errcode := 0x00 }
        intStat := s.intStat ||| 0b01 } ∧
      outHolds s t (isapEnc s.params s.key.toList s.nonce.toList (inBytes s))) ∧
  (∀ s : State, busyWith .enc s → dmaEnd s.platform (encPhaseAddrs s) = .error →
    ∃ t, exec .enc s = .next t ∧ t = { busErrorState s with memory := t.memory, draws := t.draws } ∧
      (Memory.wf s.memory → ∀ a, s.outBuf.has a = false → readByte t.memory a = readByte s.memory a))

/-- MAC (R155): its word; at acceptance ERR_ROUNDS, else ERR_RANGE if IN or AD does not fit, else BUSY; at completion, if every DMA address answers, TAG is Mac of AD and IN, STATE and SUBKEY are
zero, the DMA space and every other register keep their values; with a bus error, ERR_BUS, and TAG keeps its value too. The order of one-byte transactions that the bus-error clause rests on
is the model's choice (log 10), and so is VERIFY at acceptance (log 23). A command raced by a host is the subject of EngineReadSeesHeldValues. -/
def Obligations.MacRuns : Prop :=
  (∀ w : Word32, decodeWord w = .ok .mac ↔ w = 0x00000004) ∧
  (∀ s : State, s.running = none →
    (s.params.legal = false → exec .mac s = .next (rejectedState 0x02 s)) ∧
    (s.params.legal = true → ¬(fits s.inBuf s ∧ fits s.adBuf s) → exec .mac s = .next (rejectedState 0x03 s)) ∧
    (s.params.legal = true → fits s.inBuf s → fits s.adBuf s → exec .mac s = .next (acceptedState .mac s))) ∧
  (∀ s : State, busyWith .mac s → answersWell s (macPhaseAddrs s) →
    ∃ t, exec .mac s = .next t ∧
      t = { s with
        tag := t.tag
        permState := Vector.replicate 50 0
        subkey := Vector.replicate 34 0
        running := none
        status := { err := false, verify := false, errcode := 0x00 }
        intStat := s.intStat ||| 0b01 } ∧
      t.tag.toList = isapMac s.params s.key.toList s.nonce.toList (adBytes s) (inBytes s)) ∧
  (∀ s : State, busyWith .mac s → dmaEnd s.platform (macPhaseAddrs s) = .error →
    exec .mac s = .next (busErrorState s))

/-- AEAD_ENC (R165, R166): its word; at acceptance ERR_ROUNDS, else ERR_RANGE if IN, AD or OUT does not fit, else ERR_OVERLAP if OUT has a byte in common with IN or AD, else BUSY; at completion, if
every DMA address answers, OUT holds Enc of IN, TAG is Mac of AD and that ciphertext, and the rest is as for ENC; with a bus error, ERR_BUS, and TAG keeps its value. The order of one-byte
transactions that the bus-error clause rests on is the model's choice (log 10), and so is VERIFY at acceptance (log 23). A command raced by a host is the subject of OutWriteRace. -/
def Obligations.AeadEncRuns : Prop :=
  (∀ w : Word32, decodeWord w = .ok .aeadEnc ↔ w = 0x00000005) ∧
  (∀ s : State, s.running = none →
    (s.params.legal = false → exec .aeadEnc s = .next (rejectedState 0x02 s)) ∧
    (s.params.legal = true → ¬(fits s.inBuf s ∧ fits s.adBuf s ∧ fits s.outBuf s) → exec .aeadEnc s = .next (rejectedState 0x03 s)) ∧
    (s.params.legal = true → fits s.inBuf s → fits s.adBuf s → fits s.outBuf s → ¬(apart s.outBuf s.inBuf ∧ apart s.outBuf s.adBuf) →
      exec .aeadEnc s = .next (rejectedState 0x04 s)) ∧
    (s.params.legal = true → fits s.inBuf s → fits s.adBuf s → fits s.outBuf s → apart s.outBuf s.inBuf → apart s.outBuf s.adBuf →
      exec .aeadEnc s = .next (acceptedState .aeadEnc s))) ∧
  (∀ s : State, busyWith .aeadEnc s → answersWell s (encPhaseAddrs s ++ s.adBuf.addrs) → Memory.wf s.memory →
    ∃ t, exec .aeadEnc s = .next t ∧
      t = { s with
        memory := t.memory
        tag := t.tag
        permState := Vector.replicate 50 0
        subkey := Vector.replicate 34 0
        running := none
        status := { err := false, verify := false, errcode := 0x00 }
        intStat := s.intStat ||| 0b01 } ∧
      outHolds s t (isapEnc s.params s.key.toList s.nonce.toList (inBytes s)) ∧
      t.tag.toList = isapMac s.params s.key.toList s.nonce.toList (adBytes s)
        (isapEnc s.params s.key.toList s.nonce.toList (inBytes s))) ∧
  (∀ s : State, busyWith .aeadEnc s → dmaEnd s.platform (encPhaseAddrs s ++ s.adBuf.addrs) = .error →
    ∃ t, exec .aeadEnc s = .next t ∧ t = { busErrorState s with memory := t.memory, draws := t.draws } ∧
      (Memory.wf s.memory → ∀ a, s.outBuf.has a = false → readByte t.memory a = readByte s.memory a))

/-- AEAD_DEC (R167, R168, R170): its word; at acceptance as AEAD_ENC; at completion, if TAG is Mac of AD and IN, VERIFY is 1 and OUT holds Enc of IN; if not, VERIFY and ERR are 0 and no byte of the
DMA space changes; with a bus error before the comparison, ERR_BUS and no byte changes; with one after it, ERR_BUS and no byte outside OUT changes (R193, R194); TAG keeps its value in
every case. The order of one-byte transactions that both bus-error clauses rest on is the model's choice (log 10), and so is VERIFY at acceptance (log 23). A command raced by a host, where the second
read of IN may differ from the first, is the subject of OutWriteRace. -/
def Obligations.AeadDecRuns : Prop :=
  (∀ w : Word32, decodeWord w = .ok .aeadDec ↔ w = 0x00000006) ∧
  (∀ s : State, s.running = none →
    (s.params.legal = false → exec .aeadDec s = .next (rejectedState 0x02 s)) ∧
    (s.params.legal = true → ¬(fits s.inBuf s ∧ fits s.adBuf s ∧ fits s.outBuf s) → exec .aeadDec s = .next (rejectedState 0x03 s)) ∧
    (s.params.legal = true → fits s.inBuf s → fits s.adBuf s → fits s.outBuf s → ¬(apart s.outBuf s.inBuf ∧ apart s.outBuf s.adBuf) →
      exec .aeadDec s = .next (rejectedState 0x04 s)) ∧
    (s.params.legal = true → fits s.inBuf s → fits s.adBuf s → fits s.outBuf s → apart s.outBuf s.inBuf → apart s.outBuf s.adBuf →
      exec .aeadDec s = .next (acceptedState .aeadDec s))) ∧
  (∀ s : State, busyWith .aeadDec s → answersWell s (macPhaseAddrs s) →
    (s.tag.toList = isapMac s.params s.key.toList s.nonce.toList (adBytes s) (inBytes s) →
      (answersWell s (encPhaseAddrs s) → Memory.wf s.memory →
        ∃ t, exec .aeadDec s = .next t ∧
          t = { s with
            memory := t.memory
            permState := Vector.replicate 50 0
            subkey := Vector.replicate 34 0
            running := none
            status := { err := false, verify := true, errcode := 0x00 }
            intStat := s.intStat ||| 0b01 } ∧
          outHolds s t (isapEnc s.params s.key.toList s.nonce.toList (inBytes s))) ∧
      (dmaEnd s.platform (encPhaseAddrs s) = .error →
        ∃ t, exec .aeadDec s = .next t ∧ t = { busErrorState s with memory := t.memory, draws := t.draws } ∧
          (Memory.wf s.memory → ∀ a, s.outBuf.has a = false → readByte t.memory a = readByte s.memory a))) ∧
    (s.tag.toList ≠ isapMac s.params s.key.toList s.nonce.toList (adBytes s) (inBytes s) →
      exec .aeadDec s = .next { s with
        permState := Vector.replicate 50 0
        subkey := Vector.replicate 34 0
        running := none
        status := { err := false, verify := false, errcode := 0x00 }
        intStat := s.intStat ||| 0b01 })) ∧
  (∀ s : State, busyWith .aeadDec s → dmaEnd s.platform (macPhaseAddrs s) = .error →
    exec .aeadDec s = .next (busErrorState s))

/-! ### Errors -/

/-- A command whose acceptance check fails, and a word that is no command, complete in that step and change only STATUS and INT_STAT.DONE (R192). -/
def Obligations.RejectedCommandChangesOnlyStatus : Prop :=
  (∀ (i : Instr) (s : State) (e : ErrorCode), s.running = none → acceptanceError i s = some e →
    exec i s = .next { s with
      status := { err := true, verify := false, errcode := e.code }, intStat := s.intStat ||| 0b01 } ∧
    (e.code = 0x02 ∨ e.code = 0x03 ∨ e.code = 0x04)) ∧
  (∀ (w : Word32) (s : State), s.running = none → (∀ i : Instr, w &&& rowMask i ≠ rowMatch i) →
    presentWord w s = .next { s with
      status := { err := true, verify := false, errcode := 0x01 }, intStat := s.intStat ||| 0b01 })

/-- The rounds check of the five ISAP commands, in terms of PARAM's bits (R27, R182): it fails unless the five bits at 8, 16, 24 and 32 each hold 1 to RMAX, where RMAX is 20 if bit 0 is set and 12 if not; and
no other check can then report first. -/
def Obligations.RoundsCheckReadsParam : Prop :=
  ∀ (s : State) (i : Instr), (∃ mode, i = .rk mode) ∨ i = .enc ∨ i = .mac ∨ i = .aeadEnc ∨ i = .aeadDec →
    s.running = none →
    (exec i s = .next (rejectedState 0x02 s) ↔
      ¬∀ place ∈ [8, 16, 24, 32],
        1 ≤ ((s.param >>> place) &&& 0x1F).toNat ∧
        ((s.param >>> place) &&& 0x1F).toNat ≤ (if s.param.getLsbD 0 then 20 else 12))

/-- A command that passes its checks and is none of NOP, SETINST and CLEAR makes the engine BUSY and VERIFY 0 in that step; ERR, ERRCODE, INT_STAT and everything else keep their values (R179). R26 would
leave VERIFY as it is until completion: that the model follows R179 is its choice (log 23). The ticket and the draw counter are the model's own (log 7). -/
def Obligations.AcceptanceMakesTheEngineBusy : Prop :=
  ∀ (s : State) (i : Instr), s.running = none → (i ≠ .nop ∧ (∀ p, i ≠ .setinst p) ∧ i ≠ .clear) →
    acceptanceError i s = none →
    ∃ t, exec i s = .next t ∧ t.busy = true ∧ t.status.verify = false ∧
      t = { s with
        running := some { cmd := i, raced := [], hung := false, ticket := s.draws }
        status := { err := s.status.err, verify := false, errcode := s.status.errcode }
        draws := s.draws + 1 }

/-- The engine's arithmetic test for a shared byte says exactly that some address is in both ranges (R71). -/
def Obligations.SharedByteTest : Prop :=
  ∀ b c : Buffer, b.sharesByte c = true ↔ ∃ a, b.has a = true ∧ c.has a = true

/-- The registers after ERR_BUS (R193): STATE and SUBKEY zeroized, TAG, KEY, NONCE, Y and PARAM unchanged, VERIFY 0, ERRCODE 0x05; and every byte outside OUT, and for a
command that was to write no OUT byte every byte, is unchanged (R194). -/
def Obligations.BusErrorEndsTheCommand : Prop :=
  ∀ (s t : State) (r : Running) (p : Plan), s.running = some r → r.hung = false → runningPlan r s = some p → p.dma = .error →
    exec r.cmd s = .next t →
    t.running = none ∧ t.status = { err := true, verify := false, errcode := 0x05 } ∧ t.intStat = s.intStat ||| 0b01 ∧
    t.permState = Vector.replicate 50 0 ∧ t.subkey = Vector.replicate 34 0 ∧ t.tag = s.tag ∧ t.key = s.key ∧
    t.nonce = s.nonce ∧ t.y = s.y ∧ t.param = s.param ∧
    (p.out = none → t.memory = s.memory) ∧
    (Memory.wf s.memory → ∀ a, s.outBuf.has a = false → readByte t.memory a = readByte s.memory a)

/-! ### The flags of a completion -/

/-- Every completion sets INT_STAT.DONE and makes the engine IDLE; STATUS says either "no error" with code 0, or an error with one of R191's codes and VERIFY 0; VERIFY is 1 only
for an AEAD_DEC whose TAG is the tag of the AD and IN bytes the engine read in its Mac phase (R184). What the engine reads of a byte that a host wrote meanwhile is the model's reading of log 7. -/
def Obligations.CompletionWritesFlags : Prop :=
  ∀ (i : Instr) (s t : State), exec i s = .next t → t.running = none →
    t.intStat = s.intStat ||| 0b01 ∧
    ((t.status.err = false ∧ t.status.errcode = 0x00) ∨
      (t.status.err = true ∧ t.status.verify = false ∧ ∃ e : ErrorCode, t.status.errcode = e.code)) ∧
    (t.status.verify = true → i = .aeadDec ∧ ∃ r, s.running = some r ∧
      s.tag.toList = isapMac s.params s.key.toList s.nonce.toList
        (engineRead r s.memory s.adBuf.start s.adBuf.len 0) (engineRead r s.memory s.inBuf.start s.inBuf.len s.adBuf.len))

/-- Zeroization (R183): at completion, normal or with ERR_BUS, ENC, MAC, AEAD_ENC and AEAD_DEC leave STATE and SUBKEY zero, and RK leaves STATE zero; PERM leaves SUBKEY; a
command that fails an acceptance check leaves both. -/
def Obligations.ZeroizationAtCompletion : Prop :=
  (∀ (i : Instr) (s t : State) (r : Running), s.running = some r → exec i s = .next t → t.running = none →
    (i = .enc ∨ i = .mac ∨ i = .aeadEnc ∨ i = .aeadDec →
      t.permState = Vector.replicate 50 0 ∧ t.subkey = Vector.replicate 34 0) ∧
    ((∃ mode, i = .rk mode) → t.permState = Vector.replicate 50 0) ∧
    ((∃ n, i = .perm n) → t.subkey = s.subkey)) ∧
  (∀ (i : Instr) (s t : State) (e : ErrorCode), s.running = none → acceptanceError i s = some e → exec i s = .next t →
    t.permState = s.permState ∧ t.subkey = s.subkey)

/-! ### Frames over all commands -/

/-- No command changes a byte of the DMA space but ENC, AEAD_ENC and AEAD_DEC, and those only bytes of [OUT_ADDR, OUT_ADDR + IN_LEN), however they end and whatever a host did
meanwhile (R67). -/
def Obligations.CommandsWriteOnlyOut : Prop :=
  ∀ (i : Instr) (s t : State) (a : Nat), Memory.wf s.memory → exec i s = .next t →
    (i ≠ .enc ∧ i ≠ .aeadEnc ∧ i ≠ .aeadDec) ∨ a < s.outAddr.toNat ∨ s.outAddr.toNat + s.inLen.toNat ≤ a →
    readByte t.memory a = readByte s.memory a

/-- What no command changes, and what only the named commands change, among the registers. -/
def Obligations.RegisterFrameOfCommands : Prop :=
  ∀ (i : Instr) (s t : State), exec i s = .next t →
    t.platform = s.platform ∧ t.intEn = s.intEn ∧ t.adAddr = s.adAddr ∧ t.adLen = s.adLen ∧ t.inAddr = s.inAddr ∧
    t.inLen = s.inLen ∧ t.outAddr = s.outAddr ∧ t.inputs = s.inputs ∧ t.response = s.response ∧
    (i ≠ .clear → t.key = s.key ∧ t.nonce = s.nonce ∧ t.y = s.y) ∧
    ((∀ p, i ≠ .setinst p) → t.param = s.param) ∧
    (i ≠ .clear → i ≠ .mac → i ≠ .aeadEnc → t.tag = s.tag) ∧
    ((i = .nop ∨ (∃ n, i = .perm n) ∨ ∃ p, i = .setinst p) → t.subkey = s.subkey) ∧
    ((i = .nop ∨ ∃ p, i = .setinst p) → t.permState = s.permState)

/-! ### The aperture -/

/-- Any access that is not of 4 bytes at a multiple of 4 or of 8 bytes at a multiple of 8 is answered SLVERR, reads as 0, and has no effect (R72). -/
def Obligations.BadAccessGetsSlverr : Prop :=
  ∀ (s : State) (addr data : Word64) (size : Nat) (rest : List Input), inAperture s.platform addr = true →
    ¬(size = 4 ∧ apertureOffset addr % 4 = 0) → ¬(size = 8 ∧ apertureOffset addr % 8 = 0) →
    (s.inputs = .read addr size :: rest → step s = .next { s with inputs := rest, response := .slverr }) ∧
    (s.inputs = .write addr size data :: rest → step s = .next { s with inputs := rest, response := .slverr }) ∧
    Response.slverr.data = 0

/-- The step of a host's action. A read of the aperture changes nothing but the answer (R74), which is hostRead's; of STATUS it is BUSY in bit 0, ERR in bit 1, VERIFY in bit 2, ERRCODE in bits 15:8, and 0 in every other bit
(R26); an 8-byte read of each other register at 0x000 to 0x050 answers what the register of that offset holds (R22), CMD and KEY answering 0. A write of the aperture is hostWrite with presentWord, and an access to the DMA space is hostDmaRead or hostDmaWrite, each at the state in which the action is no longer pending: so the statements about these
functions are statements about steps (the list of actions is the model's choice, log 1). -/
def Obligations.ReadsHaveNoSideEffect : Prop :=
  ∀ (s : State) (addr : Word64) (size : Nat) (data : Word64) (v : Byte) (rest : List Input),
    (s.inputs = .read addr size :: rest →
      step s = .next { s with inputs := rest, response := (hostRead addr size s).response }) ∧
    (s.inputs = .write addr size data :: rest → step s = hostWrite presentWord addr size data { s with inputs := rest }) ∧
    (s.inputs = .dmaRead addr :: rest → step s = hostDmaRead addr { s with inputs := rest }) ∧
    (s.inputs = .dmaWrite addr v :: rest → step s = hostDmaWrite addr v { s with inputs := rest }) ∧
    (inAperture s.platform addr = true → apertureOffset addr = 0x010 → size = 4 ∨ size = 8 →
      ∃ w, (hostRead addr size s).response = .okay w ∧ w.getLsbD 0 = s.running.isSome ∧ w.getLsbD 1 = s.status.err ∧
        w.getLsbD 2 = s.status.verify ∧ w.extractLsb' 8 8 = s.status.errcode ∧ ∀ b, 2 < b → b < 8 ∨ 16 ≤ b → w.getLsbD b = false) ∧
    (inAperture s.platform addr = true →
      (apertureOffset addr = 0x000 → (hostRead addr 8 s).response = .okay 0x0003010050415349) ∧
      (apertureOffset addr = 0x008 → (hostRead addr 8 s).response = .okay 0) ∧
      (apertureOffset addr = 0x018 → (hostRead addr 8 s).response = .okay s.param) ∧
      (apertureOffset addr = 0x020 → (hostRead addr 8 s).response = .okay (s.intEn.setWidth 64)) ∧
      (apertureOffset addr = 0x028 → (hostRead addr 8 s).response = .okay (s.intStat.setWidth 64)) ∧
      (apertureOffset addr = 0x030 → (hostRead addr 8 s).response = .okay s.adAddr) ∧
      (apertureOffset addr = 0x038 → (hostRead addr 8 s).response = .okay s.adLen) ∧
      (apertureOffset addr = 0x040 → (hostRead addr 8 s).response = .okay s.inAddr) ∧
      (apertureOffset addr = 0x048 → (hostRead addr 8 s).response = .okay s.inLen) ∧
      (apertureOffset addr = 0x050 → (hostRead addr 8 s).response = .okay s.outAddr) ∧
      (apertureOffset addr = 0x060 ∨ apertureOffset addr = 0x068 → (hostRead addr 8 s).response = .okay 0))

/-- An 8-byte write while IDLE. A register that reads back, and KEY, then holds the value written in its implemented bits, and an 8-byte read of a register that reads back returns it (R23, R36, R44); every
other register, STATUS and INT_STAT among them, the DMA space and the mode are as before (R74). KEY's bytes 8w to 8w + 7 are written at 0x060 + 8w (R36). ID, STATUS and SUBKEY ignore the write with OKAY (R23). Which offsets read back, and how wide each register is, is
R22's map. -/
def Obligations.WrittenRegisterReadsBack : Prop :=
  ∀ (s : State) (addr data : Word64) (k : Nat), s.running = none → inAperture s.platform addr = true →
    apertureOffset addr = 8 * k →
    (readsBack (regAt k) = true ∨ (∃ w, regAt k = .key w) →
      ∃ t, hostWrite presentWord addr 8 data s = .next t ∧ (regAt k).stored t = data &&& (regAt k).implemented ∧
        (readsBack (regAt k) = true → (hostRead addr 8 t).response = .okay (data &&& (regAt k).implemented)) ∧
        onlyRegisterChanged k s t ∧
        ∀ w < 2, apertureOffset addr = 0x060 + 8 * w → ∀ (i : Nat) (hi : i < 16),
          t.key[i] = if i / 8 = w then data.extractLsb' (8 * (i % 8)) 8 else s.key[i]) ∧
    (readsBack (regAt k) = true ↔
      k = 3 ∨ k = 4 ∨ (6 ≤ k ∧ k ≤ 10) ∨ (14 ≤ k ∧ k ≤ 19) ∨ (32 ≤ k ∧ k ≤ 38)) ∧
    ((∃ w, regAt k = .key w) ↔ k = 12 ∨ k = 13) ∧
    (regAt k = .id ↔ k = 0) ∧ (regAt k = .status ↔ k = 2) ∧ ((∃ w, regAt k = .subkey w) ↔ 20 ≤ k ∧ k ≤ 24) ∧
    (readsBack (regAt k) = true ∨ (∃ w, regAt k = .key w) →
      (regAt k).implemented =
        if k = 3 then 0x0000001F1F1F1F01 else if k = 4 then 0x3 else if k = 38 then 0xFFFF else 0xFFFFFFFFFFFFFFFF) ∧
    (regAt k = .id ∨ regAt k = .status ∨ (∃ w, regAt k = .subkey w) →
      hostWrite presentWord addr 8 data s = .next { s with response := .okay 0 })

/-- A 4-byte access reaches the low half of the register at 8k and the high half at 8k + 4: a read returns those bits, and a write while IDLE changes only those of that register (R73) and no other register, nor the
DMA space or the mode (R74). The register may also be KEY, whose stored value no read shows. ID, STATUS and SUBKEY ignore the write with OKAY (R23), and a write of the high half of CMD has no effect (R25). -/
def Obligations.HalfAccessReachesHalf : Prop :=
  ∀ (s : State) (addr data : Word64) (k : Nat) (high : Bool), inAperture s.platform addr = true →
    apertureOffset addr = 8 * k + (if high then 4 else 0) →
    (hostRead addr 4 s).response = .okay (((regAt k).visible s >>> (if high then 32 else 0)) &&& 0xFFFFFFFF) ∧
    (s.running = none → readsBack (regAt k) = true ∨ (∃ w, regAt k = .key w) →
      ∃ t, hostWrite presentWord addr 4 data s = .next t ∧
        (regAt k).stored t =
          (if high
           then ((regAt k).stored s &&& 0x00000000FFFFFFFF) ||| (data <<< 32)
           else ((regAt k).stored s &&& 0xFFFFFFFF00000000) ||| (data &&& 0xFFFFFFFF)) &&& (regAt k).implemented ∧
        onlyRegisterChanged k s t) ∧
    (s.running = none → regAt k = .id ∨ regAt k = .status ∨ (∃ w, regAt k = .subkey w) ∨ (regAt k = .cmd ∧ high = true) →
      hostWrite presentWord addr 4 data s = .next { s with response := .okay 0 })

/-- The reserved offsets 0x058, 0x0C8 to 0x0FF and 0x138 to 0x1FF read 0; a write to one is answered OKAY and has no effect, while BUSY too, where it does not set OVERRUN (R45). -/
def Obligations.ReservedOffsetsAreInert : Prop :=
  ∀ (s : State) (addr data : Word64) (size : Nat), inAperture s.platform addr = true →
    (size = 4 ∧ apertureOffset addr % 4 = 0) ∨ (size = 8 ∧ apertureOffset addr % 8 = 0) →
    (0x058 ≤ apertureOffset addr ∧ apertureOffset addr < 0x060) ∨
      (0x0C8 ≤ apertureOffset addr ∧ apertureOffset addr < 0x100) ∨ 0x138 ≤ apertureOffset addr →
    (hostRead addr size s).response = .okay 0 ∧
    hostWrite presentWord addr size data s = .next { s with response := .okay 0 }

/-- While BUSY, a write to any register but INT_EN and INT_STAT that reaches an implemented bit sets OVERRUN and has no other effect, CMD included (R180); one that reaches none (a reserved
offset, R45; unimplemented bits, the model's reading in log 14) has no effect at all. -/
def Obligations.BusyWriteIsIgnored : Prop :=
  ∀ (s : State) (addr data : Word64) (size : Nat) (rest : List Input) (a : Access), s.running ≠ none →
    s.inputs = .write addr size data :: rest → inAperture s.platform addr = true →
    accessAt (apertureOffset addr) size = some a → a.reg ≠ .intEn → a.reg ≠ .intStat →
    (a.lanes &&& a.reg.implemented ≠ 0 →
      step s = .next { s with inputs := rest, response := .okay 0, intStat := s.intStat ||| 0b10 }) ∧
    (a.lanes &&& a.reg.implemented = 0 → step s = .next { s with inputs := rest, response := .okay 0 })

/-- INT_STAT and INT_EN may be written at any time: a 1 clears its INT_STAT bit and a 0 leaves it; INT_EN takes the low two bits (R30, R31). A
4-byte write of the upper half of either is answered OKAY and changes nothing, while IDLE and while BUSY (R73). -/
def Obligations.InterruptRegistersWritable : Prop :=
  ∀ (s : State) (addr data : Word64) (size : Nat), inAperture s.platform addr = true → size = 4 ∨ size = 8 →
    (apertureOffset addr = 0x028 → ∃ t, hostWrite presentWord addr size data s = .next t ∧
      t = { s with response := .okay 0, intStat := t.intStat } ∧
      ∀ j < 2, t.intStat.getLsbD j = (s.intStat.getLsbD j && !data.getLsbD j)) ∧
    (apertureOffset addr = 0x020 → ∃ t, hostWrite presentWord addr size data s = .next t ∧
      t = { s with response := .okay 0, intEn := t.intEn } ∧ ∀ j < 2, t.intEn.getLsbD j = data.getLsbD j) ∧
    (apertureOffset addr = 0x024 ∨ apertureOffset addr = 0x02C →
      hostWrite presentWord addr 4 data s = .next { s with response := .okay 0 })

/-- When a host write and a completion fall in one step, DONE is set after it, whatever the write clears (R31: the set wins). That the two can fall in one step is the model's action `writeWithEngine` (log 17). -/
def Obligations.EngineSetWins : Prop :=
  ∀ (s t : State) (addr data : Word64) (size : Nat) (rest : List Input), s.running ≠ none →
    s.inputs = .writeWithEngine addr size data :: rest → step s = .next t → t.running = none →
    t.intStat.getLsbD 0 = true

/-- irq is the OR of the enabled pending bits, and 0 right after reset (R32). -/
def Obligations.IrqIsTheEnabledPendingBits : Prop :=
  (∀ s : State, s.irq = ((s.intStat.getLsbD 0 && s.intEn.getLsbD 0) || (s.intStat.getLsbD 1 && s.intEn.getLsbD 1))) ∧
  State.reset.irq = false

/-- While BUSY no host read tells STATE or SUBKEY: two states that differ only there answer every read alike, and every read of them answers 0; every other register but STATUS answers as it does while
IDLE (R43). While IDLE an 8-byte read of SUBKEY or STATE gives its bytes, byte 8w + j in bits 8j + 7 to 8j of the word at 0x0A0 + 8w or
0x100 + 8w and 0 beyond the string; NONCE at 0x070, TAG at 0x080 and Y at 0x090 do so at any time (R22, R40, R41, R44). -/
def Obligations.BusyReadsHideTheState : Prop :=
  (∀ (s : State) (ps : Vector Byte 50) (sk : Vector Byte 34) (addr : Word64) (size : Nat), s.running ≠ none →
    (hostRead addr size { s with permState := ps, subkey := sk }).response = (hostRead addr size s).response) ∧
  (∀ (s : State) (addr : Word64) (size : Nat) (a : Access), s.running ≠ none → inAperture s.platform addr = true →
    accessAt (apertureOffset addr) size = some a →
    ((∃ w, a.reg = .permState w) ∨ (∃ w, a.reg = .subkey w) → (hostRead addr size s).response = .okay 0) ∧
    ((0x0A0 ≤ apertureOffset addr ∧ apertureOffset addr < 0x0C8) ∨ (0x100 ≤ apertureOffset addr ∧ apertureOffset addr < 0x138) →
      (hostRead addr size s).response = .okay 0) ∧
    ((∀ w, a.reg ≠ .permState w) → (∀ w, a.reg ≠ .subkey w) → a.reg ≠ .status →
      (hostRead addr size s).response = (hostRead addr size { s with running := none }).response)) ∧
  (∀ (s : State) (addr : Word64) (k : Nat), inAperture s.platform addr = true → apertureOffset addr = 8 * k →
    ∃ v : Word64, (hostRead addr 8 s).response = .okay v ∧ ∀ j < 8,
      (∀ w < 2, apertureOffset addr = 0x070 + 8 * w → v.extractLsb' (8 * j) 8 = s.nonce.toList.getD (8 * w + j) 0) ∧
      (∀ w < 2, apertureOffset addr = 0x080 + 8 * w → v.extractLsb' (8 * j) 8 = s.tag.toList.getD (8 * w + j) 0) ∧
      (∀ w < 2, apertureOffset addr = 0x090 + 8 * w → v.extractLsb' (8 * j) 8 = s.y.toList.getD (8 * w + j) 0) ∧
      (s.running = none → ∀ w < 5, apertureOffset addr = 0x0A0 + 8 * w → v.extractLsb' (8 * j) 8 = s.subkey.toList.getD (8 * w + j) 0) ∧
      (s.running = none → ∀ w < 7, apertureOffset addr = 0x100 + 8 * w → v.extractLsb' (8 * j) 8 = s.permState.toList.getD (8 * w + j) 0))

/-- No host read of the aperture ever tells KEY: two states that differ only there answer every such read alike, and every read of KEY, and of CMD, answers 0, while IDLE and while BUSY (R25, R36). (A read of
the DMA space may see the output of a running command, which depends on KEY: R217.) -/
def Obligations.KeyIsNotReadable : Prop :=
  (∀ (s : State) (key : Vector Byte 16) (addr : Word64) (size : Nat),
    (hostRead addr size { s with key := key }).response = (hostRead addr size s).response) ∧
  (∀ (s : State) (addr : Word64) (size : Nat) (a : Access), inAperture s.platform addr = true →
    accessAt (apertureOffset addr) size = some a → (∃ w, a.reg = .key w) ∨ a.reg = .cmd →
    (hostRead addr size s).response = .okay 0)

/-! ### Reset -/

/-- The reset values (R49), as registers and outputs; a reset of the IDLE engine leaves the DMA space. -/
def Obligations.ResetValues : Prop :=
  Reg.stored .id State.reset = 0x0003010050415349 ∧ State.reset.statusWord = 0 ∧
  State.reset.param = 0x0000000C060C0100 ∧
  State.reset.params = { perm := .ascon, sb := 1, sk := 12, se := 6, sh := 12 } ∧
  State.reset.intEn = 0 ∧ State.reset.intStat = 0 ∧
  State.reset.adAddr = 0 ∧ State.reset.adLen = 0 ∧ State.reset.inAddr = 0 ∧ State.reset.inLen = 0 ∧ State.reset.outAddr = 0 ∧
  State.reset.key = Vector.replicate 16 0 ∧ State.reset.nonce = Vector.replicate 16 0 ∧
  State.reset.tag = Vector.replicate 16 0 ∧ State.reset.y = Vector.replicate 16 0 ∧
  State.reset.subkey = Vector.replicate 34 0 ∧ State.reset.permState = Vector.replicate 50 0 ∧
  State.reset.running = none ∧ State.reset.irq = false ∧
  ∀ s : State, s.running = none → (resetEngine s).memory = s.memory

/-- A reset gives every register its reset value, at any time; it completes nothing (INT_STAT is 0); the DMA space changes only in the OUT range of a command it
abandons (R210, R211). That reset is one event, and what survives it, is the model's choice (log 12). -/
def Obligations.ResetAbandonsTheCommand : Prop :=
  ∀ (s : State) (rest : List Input), s.inputs = .rst :: rest →
    ∃ t, step s = .next t ∧
      t = { State.reset with platform := s.platform, inputs := rest, memory := t.memory, draws := t.draws } ∧
      (s.running = none → t.memory = s.memory) ∧
      (∀ r, s.running = some r → writesOut r.cmd = false → t.memory = s.memory) ∧
      (Memory.wf s.memory → ∀ a, s.outBuf.has a = false → readByte t.memory a = readByte s.memory a)

/-! ### The whole machine -/

/-- The invariant holds after reset, with the model's empty DMA space (log 5). -/
def Obligations.InvariantHoldsAtReset : Prop := Inv State.reset

/-- Every step keeps the invariant: the DMA space stays canonical and within its address width, PARAM's reserved bits stay 0, STATUS stays one that a completion leaves, a running
command stays one that passed its checks, and VERIFY stays 0 while BUSY (R179, against R26: log 23). -/
def Obligations.StepKeepsInvariant : Prop :=
  ∀ s t : State, Inv s → Sys2Proof.Machine.step s = .next t → Inv t

/-- The model's choice (log 16): a step stops only where a host accesses a DMA address that does not exist (R66), and there it does stop. With ADDR_W = 64 no step ever stops. -/
def Obligations.StepStopsOnlyOutsideDmaSpace : Prop :=
  (∀ s : State, goesOn (step s) ∨
    ∃ (addr : Word64) (rest : List Input), 2 ^ s.platform.addrW.val ≤ addr.toNat ∧ step s = .fault .outsideDmaSpace ∧
      (s.inputs = .dmaRead addr :: rest ∨ ∃ v, s.inputs = .dmaWrite addr v :: rest)) ∧
  (∀ (s : State) (addr : Word64) (v : Byte) (rest : List Input), 2 ^ s.platform.addrW.val ≤ addr.toNat →
    s.inputs = .dmaRead addr :: rest ∨ s.inputs = .dmaWrite addr v :: rest → step s = .fault .outsideDmaSpace) ∧
  (∀ s : State, s.platform.addrW.val = 64 → goesOn (step s))

/-- While the engine is BUSY nothing but a reset changes a register the running command reads: PARAM, the five buffer registers, KEY, NONCE, Y, in the step that completes it too;
and TAG, SUBKEY, STATE and STATUS keep their values until the step that completes it (R43, R180). -/
def Obligations.RunningCommandInputsAreFrozen : Prop :=
  ∀ s t : State, s.running ≠ none → (∀ rest, s.inputs ≠ .rst :: rest) → step s = .next t →
    (t.param = s.param ∧ t.adAddr = s.adAddr ∧ t.adLen = s.adLen ∧ t.inAddr = s.inAddr ∧ t.inLen = s.inLen ∧
      t.outAddr = s.outAddr ∧ t.key = s.key ∧ t.nonce = s.nonce ∧ t.y = s.y) ∧
    (t.running ≠ none → t.tag = s.tag ∧ t.subkey = s.subkey ∧ t.permState = s.permState ∧ t.status = s.status)

/-- A command one of whose DMA transactions is never answered stays BUSY for ever; only a reset ends it (R189). The engine's step of a command whose DMA ends silent marks it hung and changes nothing else; that is so when the
transactions before one at a silent address, in the command's order, are all answered well; and from then on no step but a reset ends the command. The order of one-byte transactions is the model's choice (log 10), and so is
the mark (log 11). -/
def Obligations.HungCommandStaysBusy : Prop :=
  (∀ (s : State) (r : Running) (p : Plan), s.running = some r → r.hung = false → runningPlan r s = some p → p.dma = .silent →
    exec r.cmd s = .next { s with running := some { r with hung := true } } ∧
    (s.inputs = [] → step s = .next { s with running := some { r with hung := true } }) ∧
    (∀ rest, s.inputs = .engine :: rest → step s = .next { s with running := some { r with hung := true }, inputs := rest })) ∧
  (∀ (s : State) (r : Running) (before after : List Nat) (a : Nat), s.running = some r → r.hung = false →
    answersWell s before → busErrorAt s.platform a = false → silentAt s.platform a = true →
    (r.cmd = .enc ∧ encPhaseAddrs s = before ++ a :: after) ∨
      ((r.cmd = .mac ∨ r.cmd = .aeadDec) ∧ macPhaseAddrs s = before ++ a :: after) ∨
      (r.cmd = .aeadEnc ∧ encPhaseAddrs s ++ s.adBuf.addrs = before ++ a :: after) ∨
      (r.cmd = .aeadDec ∧ answersWell s (macPhaseAddrs s) ∧ encPhaseAddrs s = before ++ a :: after ∧
        s.tag.toList = isapMac s.params s.key.toList s.nonce.toList
          (engineRead r s.memory s.adBuf.start s.adBuf.len 0) (engineRead r s.memory s.inBuf.start s.inBuf.len s.adBuf.len)) →
    exec r.cmd s = .next { s with running := some { r with hung := true } }) ∧
  (∀ (s t : State) (r : Running), s.running = some r → r.hung = true → (∀ rest, s.inputs ≠ .rst :: rest) → step s = .next t →
    ∃ r', t.running = some r' ∧ r'.cmd = r.cmd ∧ r'.hung = true)

/-- An accepted command completes at the engine's next step of its own, provided every DMA address answers, with or without an error (R189). That completion is one
step is R47; that it comes at the first engine step is the model's choice (log 2). -/
def Obligations.AcceptedCommandCompletes : Prop :=
  ∀ (s : State) (r : Running), Inv s → s.running = some r → r.hung = false → s.inputs = [] → s.platform.noResponse = [] →
    ∃ t, step s = .next t ∧ t.running = none ∧ t.intStat.getLsbD 0 = true

/-! ### Races -/

/-- What the engine reads (R216, in the model's reading of log 7): each byte is one of the values that byte held since acceptance, a byte nobody wrote reads as the DMA space holds it, and every value the byte
held is the one at some moment, which nothing fixes. A MAC that a host raced completes with the tag of the AD and IN bytes so read. -/
def Obligations.EngineReadSeesHeldValues : Prop :=
  (∀ (r : Running) (m : Memory) (a n j k : Nat), k < n →
    (engineRead r m a n j).getD k 0 ∈ readByte m (a + k) :: heldBefore r.raced (a + k) ∧
    (heldBefore r.raced (a + k) = [] → (engineRead r m a n j).getD k 0 = readByte m (a + k)) ∧
    (engineRead r m a n j).getD k 0 = heldAfter (a + k) (readByte m (a + k)) r.raced (Config.readMoment r.ticket (j + k)) ∧
    (∀ v ∈ readByte m (a + k) :: heldBefore r.raced (a + k), ∃ moment, heldAfter (a + k) (readByte m (a + k)) r.raced moment = v)) ∧
  (∀ (s : State) (r : Running), s.running = some r → r.cmd = .mac → r.hung = false → answersWell s (macPhaseAddrs s) →
    ∃ t, exec .mac s = .next t ∧
      t = { s with
        tag := t.tag
        permState := Vector.replicate 50 0
        subkey := Vector.replicate 34 0
        running := none
        status := { err := false, verify := false, errcode := 0x00 }
        intStat := s.intStat ||| 0b01 } ∧
      t.tag.toList = isapMac s.params s.key.toList s.nonce.toList
        (engineRead r s.memory s.adBuf.start s.adBuf.len 0) (engineRead r s.memory s.inBuf.start s.inBuf.len s.adBuf.len))

/-- A host write to the DMA space stores the byte and changes no other byte and no register; while a command runs it also keeps the value it replaced as one the command's reads may still see (R216, log 7); while IDLE
it records nothing. A host read while IDLE returns the byte. The answer is OKAY at every address that exists (log 24), and a read changes no byte (log 25): the model's choices. -/
def Obligations.HostWriteIsRemembered : Prop :=
  (∀ (s : State) (r : Running) (addr : Word64) (v : Byte), s.running = some r → addr.toNat < 2 ^ s.platform.addrW.val →
    Memory.wf s.memory →
    ∃ (t : State) (r' : Running), hostDmaWrite addr v s = .next t ∧
      t = { s with memory := t.memory, running := some r', response := .okay 0 } ∧ r' = { r with raced := r'.raced } ∧
      (∀ b, readByte t.memory b = if b = addr.toNat then v else readByte s.memory b) ∧
      (∀ b, heldBefore r'.raced b =
        if b = addr.toNat then readByte s.memory b :: heldBefore r.raced b else heldBefore r.raced b)) ∧
  (∀ (s : State) (addr : Word64) (v : Byte), s.running = none → addr.toNat < 2 ^ s.platform.addrW.val → Memory.wf s.memory →
    ∃ t, hostDmaWrite addr v s = .next t ∧ t = { s with memory := t.memory, response := .okay 0 } ∧
      ∀ b, readByte t.memory b = if b = addr.toNat then v else readByte s.memory b) ∧
  (∀ (s : State) (addr : Word64), s.running = none → addr.toNat < 2 ^ s.platform.addrW.val →
    hostDmaRead addr s = .next { s with response := .okay ((readByte s.memory addr.toNat).setWidth 64) })

/-- A host read of the DMA space during a command (R217, log 8). Outside OUT, and where the command is to write no OUT byte, as after a tag that differs, it returns the present value. Of an OUT byte it returns the present value or,
once the value the command writes there is settled, that value, a free choice deciding which; but only if the command comes to that write, which it does for every OUT byte when its DMA is answered well, and up to the transaction that
fails or is never answered when it is not (log 10): a bus error to come frees no byte before the completion (R194). It changes nothing but the answer and the draw counter. A settled byte stays
settled at the same value, whatever a host writes to the DMA space afterwards, and the verdict with it. -/
def Obligations.OutReadRace : Prop :=
  (∀ (s : State) (r : Running) (addr : Word64), s.running = some r → addr.toNat < 2 ^ s.platform.addrW.val →
    s.outBuf.has addr.toNat = false ∨ runningPlan r s = none ∨ (∃ p, runningPlan r s = some p ∧ p.out = none) →
    hostDmaRead addr s = .next { s with response := .okay ((readByte s.memory addr.toNat).setWidth 64) }) ∧
  (∀ (s : State) (r : Running) (p : Plan) (bytes : Bytes) (addr : Word64), s.running = some r → runningPlan r s = some p →
    p.out = some bytes → s.outBuf.has addr.toNat = true → addr.toNat < 2 ^ s.platform.addrW.val →
    ∃ (v : Byte) (d : Nat), hostDmaRead addr s = .next { s with response := .okay (v.setWidth 64), draws := d } ∧
      (v = readByte s.memory addr.toNat ∨
        (outIssued s addr.toNat = true ∧ outSettled r s (addr.toNat - s.outBuf.start) = true ∧
          v = bytes.getD (addr.toNat - s.outBuf.start) 0)) ∧
      (outIssued s addr.toNat = true → outSettled r s (addr.toNat - s.outBuf.start) = true →
        v = if Config.freeChoice s.draws % 2 = 0 then readByte s.memory addr.toNat else bytes.getD (addr.toNat - s.outBuf.start) 0) ∧
      (p.dma = .done → outIssued s addr.toNat = true)) ∧
  (∀ (s t : State) (r : Running) (p : Plan) (addr : Word64) (v : Byte) (k : Nat), s.running = some r → runningPlan r s = some p →
    Memory.wf s.memory → k < s.inLen.toNat → outSettled r s k = true → hostDmaWrite addr v s = .next t →
    ∃ r' p', t.running = some r' ∧ runningPlan r' t = some p' ∧ outSettled r' t k = true ∧
      p'.dma = p.dma ∧ p'.verify = p.verify ∧ p'.out.isSome = p.out.isSome ∧
      ∀ bytes bytes', p.out = some bytes → p'.out = some bytes' → bytes'.getD k 0 = bytes.getD k 0)

/-- The completion of a command that a host raced. An OUT byte that a host wrote holds the host's value or the engine's; one that no host wrote holds the engine's; every other byte is as before (R218, log 9). The engine's
value is computed from what it read (R216, log 7): Enc of its read of IN for ENC and AEAD_ENC; AEAD_ENC's TAG is the tag of its read of AD and of the ciphertext it computed, whatever OUT holds; AEAD_DEC compares TAG with the tag of
its first reads, and decrypts its second read of IN, or, if TAG differs, changes no byte. -/
def Obligations.OutWriteRace : Prop :=
  (∀ (raced : List Host.Cell) (m : Memory) (a d k : Nat) (x : Bytes), Memory.wf m → k < x.length →
    (readByte (engineWrite raced m a x d).1 (a + k) = x.getD k 0 ∨
      (heldBefore raced (a + k) ≠ [] ∧ readByte (engineWrite raced m a x d).1 (a + k) = readByte m (a + k)))) ∧
  (∀ (s : State) (r : Running), s.running = some r → r.cmd = .enc → r.hung = false → answersWell s (encPhaseAddrs s) →
    Memory.wf s.memory →
    ∃ t, exec .enc s = .next t ∧
      t = { s with
        memory := t.memory
        draws := t.draws
        permState := Vector.replicate 50 0
        subkey := Vector.replicate 34 0
        running := none
        status := { err := false, verify := false, errcode := 0x00 }
        intStat := s.intStat ||| 0b01 } ∧
      outHoldsRaced r s t (isapEnc s.params s.key.toList s.nonce.toList (engineRead r s.memory s.inBuf.start s.inBuf.len 0))) ∧
  (∀ (s : State) (r : Running), s.running = some r → r.cmd = .aeadEnc → r.hung = false →
    answersWell s (encPhaseAddrs s ++ s.adBuf.addrs) → Memory.wf s.memory →
    ∃ t, exec .aeadEnc s = .next t ∧
      t = { s with
        memory := t.memory
        draws := t.draws
        tag := t.tag
        permState := Vector.replicate 50 0
        subkey := Vector.replicate 34 0
        running := none
        status := { err := false, verify := false, errcode := 0x00 }
        intStat := s.intStat ||| 0b01 } ∧
      outHoldsRaced r s t (isapEnc s.params s.key.toList s.nonce.toList (engineRead r s.memory s.inBuf.start s.inBuf.len 0)) ∧
      t.tag.toList = isapMac s.params s.key.toList s.nonce.toList (engineRead r s.memory s.adBuf.start s.adBuf.len s.inBuf.len)
        (isapEnc s.params s.key.toList s.nonce.toList (engineRead r s.memory s.inBuf.start s.inBuf.len 0))) ∧
  (∀ (s : State) (r : Running), s.running = some r → r.cmd = .aeadDec → r.hung = false → answersWell s (macPhaseAddrs s) →
    (s.tag.toList = isapMac s.params s.key.toList s.nonce.toList
        (engineRead r s.memory s.adBuf.start s.adBuf.len 0) (engineRead r s.memory s.inBuf.start s.inBuf.len s.adBuf.len) →
      answersWell s (encPhaseAddrs s) → Memory.wf s.memory →
      ∃ t, exec .aeadDec s = .next t ∧
        t = { s with
          memory := t.memory
          draws := t.draws
          permState := Vector.replicate 50 0
          subkey := Vector.replicate 34 0
          running := none
          status := { err := false, verify := true, errcode := 0x00 }
          intStat := s.intStat ||| 0b01 } ∧
        outHoldsRaced r s t (isapEnc s.params s.key.toList s.nonce.toList
          (engineRead r s.memory s.inBuf.start s.inBuf.len (s.adBuf.len + s.inBuf.len)))) ∧
    (s.tag.toList ≠ isapMac s.params s.key.toList s.nonce.toList
        (engineRead r s.memory s.adBuf.start s.adBuf.len 0) (engineRead r s.memory s.inBuf.start s.inBuf.len s.adBuf.len) →
      exec .aeadDec s = .next { s with
        permState := Vector.replicate 50 0
        subkey := Vector.replicate 34 0
        running := none
        status := { err := false, verify := false, errcode := 0x00 }
        intStat := s.intStat ||| 0b01 }))

/-! ### The permutations and the ISAP functions -/

/-- The bitsliced substitution layer is the table of R104 at every bit position. -/
def Obligations.SBoxTableAtEveryColumn : Prop :=
  ∀ (x : AsconState) (b : Nat), b < 64 → asconColumn (asconPS x) b = asconSBox.getD (asconColumn x b) 0

/-- Ascon lanes are big-endian: lane j of a byte state, byte 8j + k of a lane state, and the two conversions are inverse (R60, R61). -/
def Obligations.AsconLanesAreBigEndian : Prop :=
  (∀ (x : Bytes) (j : Nat), x.length = 40 → j < 5 →
    (asconLane x j).toNat = ((List.range 8).map fun k => (x.getD (8 * j + k) 0).toNat * 2 ^ (8 * (7 - k))).sum) ∧
  (∀ x : Bytes, bytesToLanesA x =
    { x0 := asconLane x 0, x1 := asconLane x 1, x2 := asconLane x 2, x3 := asconLane x 3, x4 := asconLane x 4 }) ∧
  (∀ (l : AsconState) (j k : Nat), j < 5 → k < 8 →
    ((lanesToBytesA l).getD (8 * j + k) 0).toNat =
      (([l.x0, l.x1, l.x2, l.x3, l.x4].getD j 0) >>> (8 * (7 - k))).toNat % 256) ∧
  (∀ x : Bytes, x.length = 40 → lanesToBytesA (bytesToLanesA x) = x) ∧
  (∀ l : AsconState, bytesToLanesA (lanesToBytesA l) = l)

/-- Keccak lanes are little-endian: lane i of a byte state, bytes 2i and 2i + 1 of a lane state, and the two conversions are inverse (R62, R63). -/
def Obligations.KeccakLanesAreLittleEndian : Prop :=
  (∀ (x : Bytes) (i : Nat) (hi : i < 25), x.length = 50 →
    ((bytesToLanesK x)[i]).toNat = (x.getD (2 * i) 0).toNat + 256 * (x.getD (2 * i + 1) 0).toNat) ∧
  (∀ (l : KeccakState) (i : Nat) (hi : i < 25),
    ((lanesToBytesK l).getD (2 * i) 0).toNat = l[i].toNat % 256 ∧
    ((lanesToBytesK l).getD (2 * i + 1) 0).toNat = l[i].toNat / 256) ∧
  (∀ x : Bytes, x.length = 50 → lanesToBytesK (bytesToLanesK x) = x) ∧
  (∀ l : KeccakState, bytesToLanesK (lanesToBytesK l) = l)

/-- π takes the lane at (x, y) from ((x + 3y) mod 5, x); equivalently, it moves the lane at (x, y) to (y, (2x + 3y) mod 5) (R110). -/
def Obligations.PiMovesLanes : Prop :=
  ∀ (a : KeccakState) (x y : Nat), x < 5 → y < 5 →
    keccakLane (keccakPi a) x y = keccakLane a ((x + 3 * y) % 5) x ∧
    keccakLane (keccakPi a) y ((2 * x + 3 * y) % 5) = keccakLane a x y

/-- The ρ table is the standard recurrence (t + 1)(t + 2)/2 mod 16 along its walk, and 0 for lane 0 (R109). -/
def Obligations.RhoOffsetsFollowTheRecurrence : Prop :=
  keccakOffsets.getD 0 0 = 0 ∧
  ∀ t < 24, keccakOffsets.getD (5 * (rhoWalk t).2 + (rhoWalk t).1) 0 = ((t + 1) * (t + 2) / 2) % 16

/-- Where an absorbed bit of Y lands in the lanes: bit 63 of lane 0 of Ascon-p, bit 7 of lane 0 of Keccak-p[400] (R130). -/
def Obligations.AbsorbedBitInLanes : Prop :=
  (∀ (x : Bytes) (bit : Bool), x.length = 40 →
    bytesToLanesA (absorbBit x bit) =
      { bytesToLanesA x with x0 := (bytesToLanesA x).x0 ^^^ (if bit then 0x8000000000000000 else 0) }) ∧
  (∀ (x : Bytes) (bit : Bool), x.length = 50 →
    bytesToLanesK (absorbBit x bit) =
      (bytesToLanesK x).set 0 ((bytesToLanesK x)[0] ^^^ (if bit then 0x0080 else 0)))

/-- Where the domain separator lands in the lanes: bit 0 of lane 4 of Ascon-p, bit 8 of lane 24 of Keccak-p[400] (R154). -/
def Obligations.SeparatorInLanes : Prop :=
  (∀ (ps : Params) (x : Bytes), ps.perm = .ascon → x.length = 40 →
    bytesToLanesA (separate ps x) = { bytesToLanesA x with x4 := (bytesToLanesA x).x4 ^^^ 1 }) ∧
  (∀ (ps : Params) (x : Bytes), ps.perm = .keccak → x.length = 50 →
    bytesToLanesK (separate ps x) = (bytesToLanesK x).set 24 ((bytesToLanesK x)[24] ^^^ 0x0100))

/-- Enc applied twice with the same key, nonce and parameters is the identity (R144). -/
def Obligations.EncIsItsOwnInverse : Prop :=
  ∀ (ps : Params) (k nonce x : Bytes), isapEnc ps k nonce (isapEnc ps k nonce x) = x

/-- Lengths and keystream independence (R172): a ciphertext is as long as its message, a tag has 16 bytes, and two ciphertexts of messages of equal length
differ as the messages do. -/
def Obligations.KeystreamIndependence : Prop :=
  ∀ (ps : Params) (k nonce : Bytes),
    (∀ m : Bytes, (isapEnc ps k nonce m).length = m.length) ∧
    (∀ ad c : Bytes, (isapMac ps k nonce ad c).length = 16) ∧
    (∀ m₁ m₂ : Bytes, m₁.length = m₂.length →
      xorBytes (isapEnc ps k nonce m₁) (isapEnc ps k nonce m₂) = xorBytes m₁ m₂)

/-- Round trip (R172): what AEAD_ENC made of a message, AEAD_DEC with the same key, nonce, parameters, associated data and the tag accepts, and it writes the message back. The buffers
may lie elsewhere. -/
def Obligations.AeadDecryptsWhatAeadEncrypted : Prop :=
  ∀ s t u : State,
    busyWith .aeadEnc s → answersWell s (encPhaseAddrs s ++ s.adBuf.addrs) → Memory.wf s.memory → exec .aeadEnc s = .next t →
    busyWith .aeadDec u → answersWell u (macPhaseAddrs u ++ encPhaseAddrs u) → Memory.wf u.memory →
    u.key = s.key → u.nonce = s.nonce → u.param = s.param → u.tag = t.tag → adBytes u = adBytes s →
    inBytes u = readBytes t.memory s.outBuf.start s.outBuf.len →
    ∃ v, exec .aeadDec u = .next v ∧ v.status = { err := false, verify := true, errcode := 0x00 } ∧
      readBytes v.memory u.outBuf.start u.outBuf.len = inBytes s

/-- The rounds one Rk runs, s_k for its initialization and then those that follow each bit of Y, are 2·s_k + 127·s_b (R135). -/
def Obligations.RkWorkCount : Prop :=
  ∀ ps : Params, ps.sk + ((List.range 128).map (rkRounds ps)).sum = 2 * ps.sk + 127 * ps.sb ∧ rkWork ps = 2 * ps.sk + 127 * ps.sb
end

