-- ==== Sys2Proof/Tests/Slice0.lean ====
section
/-!
SUPPORT. Tests: expected values come from the spec (the vector or rule each test names), never from the model; then, for each statement with hypotheses, a state that meets them.
-/

open Sys2Proof Sys2Proof.Machine

namespace Sys2Proof.Tests

/-! ### Helpers -/

/-- What an outcome's next state shows. -/
def onNext {α : Type} (o : Host.Outcome State Fault Refusal) (f : State → α) : Option α :=
  match o with
  | .next s => some (f s)
  | .fault _ => none
  | .refused _ => none

theorem onNext_eq_some {α : Type} {o : Host.Outcome State Fault Refusal} {f : State → α} {v : α} (h : onNext o f = some v) :
    ∃ t, o = .next t ∧ f t = v := by
  cases o with
  | next s => exact ⟨s, rfl, by simpa [onNext] using h⟩
  | fault r => simp [onNext] at h
  | refused r => simp [onNext] at h

/-- The bytes 00 01 .. 0f. -/
def seqBytes : Vector Byte 16 := Vector.ofFn fun i => BitVec.ofNat 8 i.val

/-- Reset, with KEY = NONCE = Y = 00..0f. -/
def keyed : State := { State.reset with key := seqBytes, nonce := seqBytes, y := seqBytes }

/-- Three input bytes at 0x1000, one byte of associated data at 0x1800, output at 0x2000; the byte 0x5A lies at 0x1001 and 0xEE at 0x2003, just past the output. -/
def small : State :=
  { State.reset with
    adAddr := 0x1800, adLen := 1, inAddr := 0x1000, inLen := 3, outAddr := 0x2000
    memory := [(0x1001, 0x5A), (0x2003, 0xEE)] }

/-- The engine BUSY with a command, with no hazard since its acceptance. -/
def busy (i : Instr) (s : State) : State := { s with running := some { cmd := i, raced := [], hung := false, ticket := 0 } }

theorem busy_busyWith (i : Instr) (s : State) : busyWith i (busy i s) := ⟨0, rfl⟩

/-- The engine running a command, whatever a host has done since. -/
def running (r : Running) (s : State) : State := { s with running := some r }

/-- Hosts wrote the middle byte of IN and the middle byte of OUT while the command ran. -/
def racing (i : Instr) : Running := { cmd := i, raced := [(0x2001, 0x22), (0x1001, 0x11)], hung := false, ticket := 0 }

/-- The environment's next action. -/
def doing (e : Input) (s : State) : State := { s with inputs := [e] }

/-- A platform on which the addresses 0x1800 to 0x18FF answer with an error and 0x2002 never answers. -/
def faulty : Platform := { defaultPlatform with busError := [{ lo := 0x1800, len := 0x100 }], noResponse := [{ lo := 0x2002, len := 1 }] }

/-- A platform whose output range answers with an error. -/
def faultyOut : Platform := { defaultPlatform with busError := [{ lo := 0x2000, len := 0x100 }] }

/-- A platform on which the last input byte and the associated data never answer. -/
def muteIn : Platform := { defaultPlatform with noResponse := [{ lo := 0x1002, len := 1 }, { lo := 0x1800, len := 0x100 }] }

/-- A platform on which the last output byte answers with an error. -/
def faultyOutEnd : Platform := { defaultPlatform with busError := [{ lo := 0x2002, len := 1 }] }

/-- A platform on which the last output byte never answers. -/
def muteOut : Platform := { defaultPlatform with noResponse := [{ lo := 0x2002, len := 1 }] }

/-- A platform with 16-bit DMA addresses. -/
def narrow : Platform := { defaultPlatform with addrW := 16 }

/-! ### Well-formedness -/

theorem test_wellFormed_refuses_perm_32 : (Instr.perm 32).wellFormed = false := by decide
theorem test_wellFormed_accepts_perm_31 : (Instr.perm 31).wellFormed = true := by decide

/-! ### Decoding: words written out from the fields of R86 and the opcodes of R88 -/

theorem test_decode_nop : decode [0x00, 0x00, 0x00, 0x00] = .ok .nop := by decide
/-- R96. -/
theorem test_decode_perm_12 : decode [0x01, 0x00, 0x0C, 0x00] = .ok (.perm 12) := by decide
/-- R = 31: all five bits 20:16. -/
theorem test_decode_perm_31 : decode [0x01, 0x00, 0x1F, 0x00] = .ok (.perm 31) := by decide
theorem test_decode_rk_enc : decode [0x02, 0x00, 0x00, 0x00] = .ok (.rk .enc) := by decide
/-- R96: MODE is bit 8. -/
theorem test_decode_rk_mac : decode [0x02, 0x01, 0x00, 0x00] = .ok (.rk .mac) := by decide
theorem test_decode_enc : decode [0x03, 0x00, 0x00, 0x00] = .ok .enc := by decide
theorem test_decode_mac : decode [0x04, 0x00, 0x00, 0x00] = .ok .mac := by decide
theorem test_decode_aeadEnc : decode [0x05, 0x00, 0x00, 0x00] = .ok .aeadEnc := by decide
theorem test_decode_aeadDec : decode [0x06, 0x00, 0x00, 0x00] = .ok .aeadDec := by decide
/-- INST = 1 is bit 24. -/
theorem test_decode_setinst_a128 : decode [0x07, 0x00, 0x00, 0x01] = .ok (.setinst .a128) := by decide
/-- R96. -/
theorem test_decode_setinst_k128 : decode [0x07, 0x00, 0x00, 0x03] = .ok (.setinst .k128) := by decide
theorem test_decode_clear : decode [0x08, 0x00, 0x00, 0x00] = .ok .clear := by decide
/-- V-C1 to V-C8. -/
theorem test_decode_illegal :
    [0x00000009, 0x00000101, 0x00008003, 0x01000001, 0x00200001, 0x04000007, 0x000000FF, 0x80000000].map decodeWord =
      [.error .unknownOpcode, .error .reservedBitSet, .error .reservedBitSet, .error .reservedBitSet,
        .error .reservedBitSet, .error .reservedBitSet, .error .unknownOpcode, .error .reservedBitSet] := by decide
theorem test_decode_truncated : decode [0x01, 0x00, 0x0C] = .error .truncated := by decide
/-- R93, from the table's words. -/
theorem test_encode_words :
    [Instr.nop, .perm 12, .rk .mac, .enc, .mac, .aeadEnc, .aeadDec, .setinst .k128, .clear].map encode =
      [0x00000000, 0x000C0001, 0x00000102, 0x00000003, 0x00000004, 0x00000005, 0x00000006, 0x03000007, 0x00000008] := by decide

/-! ### Each command once or twice, with the spec's own values -/

/-- V-C10: NOP clears ERR and sets DONE. -/
theorem test_nop_clears_err :
    onNext (exec .nop { State.reset with status := { err := true, verify := false, errcode := 0x01 } })
      (fun t => (t.statusWord, t.intStat)) = some (0, 1) := by decide

/-- V-A1 (R115's worked example). -/
theorem test_perm_ascon_1 :
    onNext (exec (.perm 1) (busy (.perm 1) State.reset)) (fun t => t.permState.toList.take 24) = some
      [0x00, 0x09, 0x64, 0xb0, 0x00, 0x00, 0x00, 0x4b, 0x00, 0x00, 0x00, 0x00, 0x96, 0x00, 0x02, 0x13,
       0x53, 0xff, 0xff, 0xff, 0xff, 0xff, 0xff, 0x90] := by decide +kernel

/-- V-K2: from lane 1 = 0x0001, lanes 0 to 5 after one round. -/
theorem test_perm_keccak_1 :
    onNext (exec (.perm 1) (busy (.perm 1) { State.reset with
      param := 0x1, permState := (Vector.replicate 50 0).set 2 0x01 })) (fun t => t.permState.toList.take 12) = some
      [0x08, 0x08, 0x00, 0x00, 0x00, 0x08, 0x02, 0x00, 0x00, 0x00, 0x10, 0x00] := by decide +kernel

/-- V-R1 (R133's worked example). -/
theorem test_rk_enc :
    onNext (exec (.rk .enc) (busy (.rk .enc) keyed)) (fun t => t.subkey.toList.take 26) = some
      [0xb0, 0x43, 0xba, 0xa1, 0x54, 0x53, 0xfc, 0xd0, 0x30, 0x97, 0x4f, 0xe2, 0xf8, 0x3a, 0x47, 0x8f,
       0xd4, 0xe3, 0x43, 0xef, 0xd1, 0x50, 0x5a, 0x44, 0x00, 0x00] := by decide +kernel

/-- V-E1. -/
theorem test_enc_1 :
    onNext (exec .enc (busy .enc { keyed with inAddr := 0x1000, inLen := 1, outAddr := 0x2000 }))
      (fun t => (readByte t.memory 0x2000, t.statusWord)) = some (0x2c, 0) := by decide +kernel

/-- V-E24: a length of 0 passes every check, whatever the addresses. -/
theorem test_enc_empty_is_accepted :
    onNext (exec .enc { State.reset with inAddr := 0xFFFFFFFFFFFFFFFF, outAddr := 0xFFFFFFFFFFFFFFFF })
      (fun t => t.busy) = some true := by decide

/-- V-M1 (R155's worked example). -/
theorem test_mac_empty :
    onNext (exec .mac (busy .mac keyed)) (fun t => t.tag.toList) = some
      [0x7b, 0x94, 0xef, 0x35, 0xae, 0x55, 0xab, 0x27, 0x2c, 0x9c, 0x44, 0xd6, 0xc1, 0xcf, 0x01, 0x02] := by decide +kernel

/-- V-S1. -/
theorem test_aeadEnc_empty :
    onNext (exec .aeadEnc (busy .aeadEnc keyed)) (fun t => (t.tag.toList.take 4, t.memory, t.statusWord)) =
      some ([0x7b, 0x94, 0xef, 0x35], [], 0) := by decide +kernel

/-- V-D2: the tag of V-S1 is accepted. -/
theorem test_aeadDec_accepts :
    onNext (exec .aeadDec (busy .aeadDec { keyed with tag :=
      #v[0x7b, 0x94, 0xef, 0x35, 0xae, 0x55, 0xab, 0x27, 0x2c, 0x9c, 0x44, 0xd6, 0xc1, 0xcf, 0x01, 0x02] }))
      (fun t => (t.statusWord, t.status.verify, t.running)) = some (0x4, true, none) := by decide +kernel

/-- V-C13 and V-C14. -/
theorem test_setinst :
    (onNext (exec (.setinst .k128a) State.reset) (fun t => t.param) = some 0x0000001008080101) ∧
    (onNext (exec (.setinst .k128) State.reset) (fun t => t.param) = some 0x000000140c0c0c01) := by decide

/-- V-C29: CLEAR zeroizes KEY and keeps PARAM. -/
theorem test_clear :
    onNext (exec .clear keyed) (fun t => (t.key, t.param)) = some (Vector.replicate 16 0, 0x0000000C060C0100) := by decide

/-! ### Acceptance errors -/

/-- V-A9, V-A10, V-K12: STATUS after PERM 0, and PERM 13 with Ascon-p, and PERM 21 with Keccak-p[400]. -/
theorem test_perm_rounds :
    (onNext (exec (.perm 0) State.reset) (fun t => t.statusWord) = some 0x202) ∧
    (onNext (exec (.perm 13) State.reset) (fun t => t.statusWord) = some 0x202) ∧
    (onNext (exec (.perm 21) { State.reset with param := 0x1 }) (fun t => t.statusWord) = some 0x202) := by decide

/-- V-E19, V-E20, V-E21, V-E22, V-E23: STATUS right after the CMD write. -/
theorem test_enc_acceptance :
    [(0x1000, 0x1000), (0x1000, 0x1007), (0x1000, 0x1008), (0xFFFFFFFFFFFFFFF8, 0x2000), (0xFFFFFFFFFFFFFFF9, 0x2000)].map
      (fun io => onNext (exec .enc { State.reset with inAddr := io.1, outAddr := io.2, inLen := 8 }) (fun t => t.statusWord)) =
      [some 0x402, some 0x402, some 0x1, some 0x1, some 0x302] := by decide

/-- V-E25: ERR_ROUNDS comes before ERR_OVERLAP. -/
theorem test_enc_priority :
    onNext (exec .enc { State.reset with param := 0x0000000C060C0D00, inLen := 8 }) (fun t => t.statusWord) = some 0x202 := by decide

/-- V-C16: illegal rounds refuse RK. -/
theorem test_rk_rounds :
    onNext (exec (.rk .enc) { State.reset with param := 0x0000001f1f1f1f01 }) (fun t => t.statusWord) = some 0x202 := by decide

/-- P6: a bus error in AD ends AEAD_ENC with ERR_BUS, and TAG is unchanged. -/
theorem test_aeadEnc_bus_error :
    onNext (exec .aeadEnc (busy .aeadEnc { small with
      platform := { faulty with noResponse := [] }, tag := Vector.replicate 16 0x11 }))
      (fun t => (t.statusWord, t.tag)) = some (0x502, Vector.replicate 16 0x11) := by decide +kernel

/-! ### The aperture -/

/-- R44: NONCE1 is bytes 8 to 15, little-endian (V-C21); KEY reads 0 (V-C20). -/
theorem test_read_registers :
    (hostRead 0x078 8 keyed).response = .okay 0x0f0e0d0c0b0a0908 ∧ (hostRead 0x060 8 keyed).response = .okay 0 ∧
    (hostRead 0x074 4 keyed).response = .okay 0x07060504 ∧ (hostRead 0x000 8 keyed).response = .okay 0x0003010050415349 := by decide

/-- R26: BUSY, ERR and ERRCODE in their places; and VERIFY in bit 2. -/
theorem test_status_word :
    (hostRead 0x010 8 (busy .mac { small with status := { err := true, verify := false, errcode := 0x05 } })).response = .okay 0x503 ∧
    (hostRead 0x010 4 { small with status := { err := false, verify := true, errcode := 0x00 } }).response = .okay 0x4 := by decide

/-- V-C24. -/
theorem test_bad_access :
    (hostRead 0x010 2 keyed).response = .slverr ∧ (hostRead 0x014 8 keyed).response = .slverr := by decide

/-- V-C15: PARAM keeps only its implemented bits. -/
theorem test_param_mask :
    onNext (step (doing (.write 0x018 8 0xFFFFFFFFFFFFFFFF) State.reset)) (fun t => t.param) = some 0x0000001f1f1f1f01 := by decide

/-- V-C25: while BUSY a PARAM write is ignored and sets OVERRUN, STATE0 reads 0, STATUS reads 1. -/
theorem test_busy_window :
    let s := busy (.perm 20) { State.reset with permState := Vector.replicate 50 0xAA }
    onNext (step (doing (.write 0x018 8 0x1) s)) (fun t => (t.param, t.intStat)) = some (0x0000000C060C0100, 2) ∧
    (hostRead 0x100 8 s).response = .okay 0 ∧ (hostRead 0x010 8 s).response = .okay 1 := by decide

/-- R45, R25: a reserved offset, and the upper half of CMD, set no OVERRUN while BUSY. -/
theorem test_busy_no_overrun :
    (onNext (step (doing (.write 0x058 8 0xFF) (busy .mac State.reset))) (fun t => t.intStat) = some 0) ∧
    (onNext (step (doing (.write 0x00C 4 0x8) (busy .mac State.reset))) (fun t => t.intStat) = some 0) := by decide

/-- V-C27: a 1 clears its bit; irq follows R32. -/
theorem test_intStat_clear :
    onNext (step (doing (.write 0x028 4 0x1) { State.reset with intStat := 3, intEn := 3 }))
      (fun t => (t.intStat, t.irq)) = some (2, true) := by decide

/-- R22: IN_ADDR is at 0x040 and IN_LEN at 0x048. -/
theorem test_buffer_registers :
    onNext (step (doing (.write 0x040 8 0x1234) small)) (fun t => (t.inAddr, t.inLen)) = some (0x1234, 3) ∧
    (hostRead 0x048 8 small).response = .okay 3 := by decide

/-- R31: the set wins over a clear in the same step. -/
theorem test_set_wins :
    onNext (step (doing (.writeWithEngine 0x028 8 0x3) (busy (.perm 1) { State.reset with intStat := 3 })))
      (fun t => t.intStat) = some 1 := by decide +kernel

/-- R31 with R180: the completion falls into the step of an ignored CMD write; both bits are set. -/
theorem test_overrun_with_done :
    onNext (step (doing (.writeWithEngine 0x008 8 0x8) (busy (.perm 1) State.reset)))
      (fun t => (t.intStat, t.busy)) = some (3, false) := by decide +kernel

/-! ### Memory, races, reset -/

/-- The canonical form: writing 0 removes a byte. -/
theorem test_writeByte :
    writeByte [(1, 0xAA), (5, 0xBB)] 3 0xCC = [(1, 0xAA), (3, 0xCC), (5, 0xBB)] ∧
    writeByte [(1, 0xAA), (5, 0xBB)] 5 0x00 = [(1, 0xAA)] := by decide

/-- R216: a host write during a command is remembered with the value it replaced. -/
theorem test_dmaWrite_while_busy :
    onNext (step (doing (.dmaWrite 0x1001 0x77) (busy .enc small)))
      (fun t => (t.memory, t.running.map (·.raced))) = some ([(0x1001, 0x77), (0x2003, 0xEE)], some [(0x1001, 0x5A)]) := by decide

/-- R216: a byte held AA, then BB, then (after a write elsewhere) CC: what it held after 0, 1, 2 and 3 host writes. -/
theorem test_heldAfter :
    [0, 1, 2, 3].map (heldAfter 5 0xCC [(5, 0xBB), (7, 0x01), (5, 0xAA)]) = [0xAA, 0xBB, 0xBB, 0xCC] := by decide

/-- R217, R194: an ENC that cannot read its last IN byte writes no OUT byte, so a host sees the present ones, with a bus error to come or a wait for ever. -/
theorem test_dmaRead_before_failure :
    onNext (step (doing (.dmaRead 0x2000) (busy .enc { small with platform := muteIn }))) (fun t => (t.response, t.draws)) = some (.okay 0, 0) ∧
    onNext (step (doing (.dmaRead 0x2000) (busy .enc { small with platform := faulty, inAddr := 0x17FE })))
      (fun t => (t.response, t.draws)) = some (.okay 0, 0) := by decide

/-- R66: with 16-bit addresses, 0xFFFF exists and 0x10000 does not. -/
theorem test_dma_bound :
    (onNext (step (doing (.dmaRead 0xFFFF) { small with platform := narrow })) (fun t => t.response) = some (.okay 0)) ∧
    (onNext (step (doing (.dmaRead 0x10000) { small with platform := narrow })) (fun t => t.response) = none) := by decide

/-- R211: a reset while BUSY completes nothing, and the registers take their reset values. -/
theorem test_reset_while_busy :
    onNext (step (doing .rst (busy .enc { small with intStat := 3, key := seqBytes })))
      (fun t => (t.intStat, t.busy, t.inLen, t.key)) = some (0, false, 0, Vector.replicate 16 0) := by decide

/-- `withFetchWord` runs the table's word as the first command after reset. -/
theorem test_withFetchWord :
    onNext (step (State.reset.withFetchWord 32 0x000C0001)) (fun t => t.running.map (·.cmd)) = some (some (.perm 12)) := by decide

/-! ### States that meet the hypotheses of the statements -/

theorem witness_DecodeInvertsEncode : (Instr.perm 0).wellFormed = true ∧ (Instr.perm 31).wellFormed = true := by decide

theorem witness_DecodedWordIsItsEncoding : decodeWord 0x001F0001 = .ok (.perm 31) := by decide

theorem witness_StepRunsTheDecodedCommand :
    let s := doing (.write 0x008 4 0x000C0001) State.reset
    s.running = none ∧ s.inputs = .write 0x008 4 0x000C0001 :: [] ∧ inAperture s.platform 0x008 = true ∧
    apertureOffset 0x008 = 0x008 ∧ decodeWord (BitVec.setWidth 32 (0x000C0001 : Word64)) = .ok (.perm 12) := by decide

/-- The 8-byte access, with bits 63:32 set. -/
theorem witness_StepRunsTheDecodedCommand_wide :
    let s := doing (.write 0x008 8 0xFFFFFFFF00000003) State.reset
    s.running = none ∧ s.inputs = .write 0x008 8 0xFFFFFFFF00000003 :: [] ∧ inAperture s.platform 0x008 = true ∧
    apertureOffset 0x008 = 0x008 ∧ decodeWord (BitVec.setWidth 32 (0xFFFFFFFF00000003 : Word64)) = .ok .enc := by decide

/-- A word that matches no row of R88. -/
theorem nine_matches_no_row (i : Instr) : (0x00000009 : Word32) &&& rowMask i ≠ rowMatch i := by
  cases i <;> simp [rowMask, rowMatch]

theorem witness_IllegalWordCompletesWithError :
    let s := doing (.write 0x008 4 0x00000009) State.reset
    s.running = none ∧ s.inputs = .write 0x008 4 0x00000009 :: [] ∧ inAperture s.platform 0x008 = true ∧
    apertureOffset 0x008 = 0x008 ∧ ∀ i : Instr, BitVec.setWidth 32 (0x00000009 : Word64) &&& rowMask i ≠ rowMatch i :=
  ⟨rfl, rfl, by decide, by decide, nine_matches_no_row⟩

theorem witness_FetchedWordIsTheNextCommand : decodeTableWord 32 0x03000007 = some (.setinst .k128) := by decide

theorem witness_EngineStepRunsTheAcceptedCommand :
    (busy .mac small).running = some { cmd := .mac, raced := [], hung := false, ticket := 0 } ∧ (busy .mac small).inputs = [] ∧
    (doing .engine (busy .mac small)).running = some { cmd := .mac, raced := [], hung := false, ticket := 0 } ∧
    (doing .engine (busy .mac small)).inputs = .engine :: [] ∧
    small.running = none ∧ small.inputs = [] ∧ (doing .engine small).running = none ∧ (doing .engine small).inputs = .engine :: [] := by decide

/-- NOP, SETINST, CLEAR. -/
theorem witness_NopCompletes : State.reset.running = none ∧ (busy .mac small).running ≠ none := by decide

theorem witness_SetinstLoadsThePreset : State.reset.running = none := by decide

theorem witness_ClearZeroizesSecrets : keyed.running = none := by decide

/-- The bounds of R for both permutations, and a BUSY state in which a host wrote the DMA space. -/
theorem witness_PermRuns :
    small.running = none ∧ (1 ≤ 12 ∧ 12 ≤ rmax small.params.perm) ∧ rmax small.params.perm < 13 ∧
    (let k := { small with param := 0x1 }; k.running = none ∧ (1 ≤ 20 ∧ 20 ≤ rmax k.params.perm) ∧ rmax k.params.perm < 21) ∧
    (running (racing (.perm 12)) small).running = some (racing (.perm 12)) ∧ (racing (.perm 12)).cmd = .perm 12 ∧
    (racing (.perm 12)).hung = false := by
  refine ⟨rfl, by decide, by decide, by decide, rfl, rfl, rfl⟩

/-- Illegal round counts: s_b = 0. -/
def badRounds : State := { small with param := 0x0000000C060C0000 }

theorem witness_RkRuns :
    small.running = none ∧ small.params.legal = true ∧ badRounds.running = none ∧ badRounds.params.legal = false ∧
    (running (racing (.rk .enc)) small).running = some (racing (.rk .enc)) ∧ (racing (.rk .enc)).cmd = .rk .enc ∧
    (racing (.rk .enc)).hung = false := by
  refine ⟨rfl, by decide, rfl, by decide, rfl, rfl, rfl⟩

theorem small_fits : fits small.inBuf small ∧ fits small.adBuf small ∧ fits small.outBuf small := by
  unfold fits; decide

theorem small_apart : apart small.outBuf small.inBuf ∧ apart small.outBuf small.adBuf := by
  constructor <;> intro a h <;> simp [Buffer.has, small, State.outBuf, State.inBuf, State.adBuf, State.reset] at h <;> omega

/-- IN ends one byte past 2^64. -/
def badRange : State := { small with inAddr := 0xFFFFFFFFFFFFFFFE }

theorem badRange_not_fits : ¬fits badRange.inBuf badRange := by unfold fits; decide

/-- IN ends exactly at 2^64. -/
def topRange : State := { small with inAddr := 0xFFFFFFFFFFFFFFFD }

theorem topRange_fits : fits topRange.inBuf topRange := by unfold fits; decide

/-- OUT shares its first byte with the last byte of IN. -/
def overlapIn : State := { small with outAddr := 0x1002 }

theorem overlapIn_not_apart : ¬apart overlapIn.outBuf overlapIn.inBuf := fun h => h 0x1002 (by decide)

/-- OUT shares its last byte with AD, and none with IN. -/
def overlapAd : State := { small with outAddr := 0x17FE }

theorem overlapAd_not_apart : ¬apart overlapAd.outBuf overlapAd.adBuf := fun h => h 0x1800 (by decide)

theorem overlap_fits :
    fits overlapIn.inBuf overlapIn ∧ fits overlapIn.adBuf overlapIn ∧ fits overlapIn.outBuf overlapIn ∧
    fits overlapAd.inBuf overlapAd ∧ fits overlapAd.adBuf overlapAd ∧ fits overlapAd.outBuf overlapAd := by
  unfold fits; decide

/-- The acceptance clauses of ENC, MAC, AEAD_ENC and AEAD_DEC: rounds, range, overlap, accepted. -/
theorem witness_acceptance :
    (badRounds.running = none ∧ badRounds.params.legal = false) ∧
    (badRange.running = none ∧ badRange.params.legal = true ∧ ¬fits badRange.inBuf badRange) ∧
    (overlapIn.running = none ∧ overlapIn.params.legal = true ∧ ¬apart overlapIn.outBuf overlapIn.inBuf) ∧
    (overlapAd.running = none ∧ overlapAd.params.legal = true ∧ ¬apart overlapAd.outBuf overlapAd.adBuf) ∧
    (small.running = none ∧ small.params.legal = true ∧ fits small.inBuf small ∧ fits small.adBuf small ∧ fits small.outBuf small ∧
      apart small.outBuf small.inBuf ∧ apart small.outBuf small.adBuf) :=
  ⟨⟨rfl, by decide⟩, ⟨rfl, by decide, badRange_not_fits⟩, ⟨rfl, by decide, overlapIn_not_apart⟩,
    ⟨rfl, by decide, overlapAd_not_apart⟩, rfl, by decide, small_fits.1, small_fits.2.1, small_fits.2.2, small_apart.1, small_apart.2⟩

/-- On the platform of reset every address answers. -/
theorem reset_answersWell {s : State} (h : s.platform = defaultPlatform) (addrs : List Nat) : answersWell s addrs := by
  intro a _
  rw [h]
  exact ⟨rfl, rfl⟩

theorem small_wf : Memory.wf small.memory := by decide

/-- The completion clauses of ENC. -/
theorem witness_EncRuns :
    (busyWith .enc (busy .enc small) ∧ answersWell (busy .enc small) (encPhaseAddrs (busy .enc small)) ∧
      Memory.wf (busy .enc small).memory) ∧
    (let s := busy .enc { small with platform := faultyOut }
     busyWith .enc s ∧ dmaEnd s.platform (encPhaseAddrs s) = .error ∧ Memory.wf s.memory ∧ s.outBuf.has 0x2003 = false) := by
  refine ⟨⟨busy_busyWith _ _, reset_answersWell rfl _, small_wf⟩, busy_busyWith _ _, by decide, small_wf, by decide⟩

/-- The completion clauses of MAC. -/
theorem witness_MacRuns :
    (busyWith .mac (busy .mac small) ∧ answersWell (busy .mac small) (macPhaseAddrs (busy .mac small))) ∧
    (let s := busy .mac { small with platform := faulty }
     busyWith .mac s ∧ dmaEnd s.platform (macPhaseAddrs s) = .error) := by
  refine ⟨⟨busy_busyWith _ _, reset_answersWell rfl _⟩, busy_busyWith _ _, by decide⟩

/-- The completion clauses of AEAD_ENC. -/
theorem witness_AeadEncRuns :
    (let s := busy .aeadEnc small
     busyWith .aeadEnc s ∧ answersWell s (encPhaseAddrs s ++ s.adBuf.addrs) ∧ Memory.wf s.memory) ∧
    (let s := busy .aeadEnc { small with platform := faultyOut }
     busyWith .aeadEnc s ∧ dmaEnd s.platform (encPhaseAddrs s ++ s.adBuf.addrs) = .error ∧ Memory.wf s.memory ∧
       s.outBuf.has 0x2003 = false) := by
  refine ⟨⟨busy_busyWith _ _, reset_answersWell rfl _, small_wf⟩, busy_busyWith _ _, by decide, small_wf, by decide⟩

/-- The tag that MAC computes of a state's buffers. -/
def tagOf (s : State) : Bytes := isapMac s.params s.key.toList s.nonce.toList (adBytes s) (inBytes s)

/-- TAG holds a tag with `flip` XORed into its last byte. -/
def expecting (x : Bytes) (flip : Byte) (s : State) : State :=
  { s with tag := (toReg 16 x).set 15 ((toReg 16 x)[15] ^^^ flip) }

/-- The engine BUSY with AEAD_DEC, TAG holding the tag of the buffers with `flip` XORed into its last byte. -/
def decrypting (s : State) (flip : Byte) : State := busy .aeadDec (expecting (tagOf s) flip s)

theorem toReg_toList_16 (x : Bytes) (h : x.length = 16) : (toReg 16 x).toList = x := by
  apply List.ext_getElem
  · simp [h]
  · intro k h1 h2
    simp [toReg, h2]

theorem isapMac_length (ps : Params) (k nonce ad c : Bytes) : (isapMac ps k nonce ad c).length = 16 := by
  simp only [isapMac, macFinish, List.length_take, permute_length]
  cases ps.perm <;> rfl

theorem expecting_matches {x : Bytes} (h : x.length = 16) (s : State) : (expecting x 0 s).tag.toList = x := by
  simp [expecting, toReg_toList_16 _ h]

theorem expecting_differs {x : Bytes} (h : x.length = 16) (s : State) : (expecting x 1 s).tag.toList ≠ x := by
  intro he
  have h2 := he.trans (toReg_toList_16 _ h).symm
  have h15 := congrArg (fun l : List Byte => l.getD 15 0) h2
  simp [expecting] at h15

theorem tagOf_length (s : State) : (tagOf s).length = 16 := isapMac_length _ _ _ _ _

theorem decrypting_tagOf (s : State) (flip : Byte) : tagOf (decrypting s flip) = tagOf s := by
  unfold decrypting expecting
  generalize (toReg 16 (tagOf s)).set 15 _ = x
  rfl

theorem decrypting_matches (s : State) : (decrypting s 0).tag.toList = tagOf (decrypting s 0) := by
  rw [decrypting_tagOf]
  exact expecting_matches (tagOf_length s) s

theorem decrypting_differs (s : State) : (decrypting s 1).tag.toList ≠ tagOf (decrypting s 1) := by
  rw [decrypting_tagOf]
  exact expecting_differs (tagOf_length s) s

/-- The completion clauses of AEAD_DEC: a matching tag, with and without a bus error in the Enc phase; a bus error in the Mac phase; a tag that differs. -/
theorem witness_AeadDecRuns :
    (let s := decrypting small 0
     busyWith .aeadDec s ∧ answersWell s (macPhaseAddrs s) ∧ answersWell s (encPhaseAddrs s) ∧ Memory.wf s.memory ∧
       s.tag.toList = tagOf s) ∧
    (let s := decrypting { small with platform := faultyOut } 0
     busyWith .aeadDec s ∧ dmaEnd s.platform (macPhaseAddrs s) = .done ∧ dmaEnd s.platform (encPhaseAddrs s) = .error ∧
       Memory.wf s.memory ∧ s.outBuf.has 0x2003 = false ∧ s.tag.toList = tagOf s) ∧
    (let s := decrypting { small with platform := faulty } 0
     busyWith .aeadDec s ∧ dmaEnd s.platform (macPhaseAddrs s) = .error) ∧
    (let s := decrypting small 1
     busyWith .aeadDec s ∧ answersWell s (macPhaseAddrs s) ∧ s.tag.toList ≠ tagOf s) := by
  refine ⟨⟨busy_busyWith _ _, reset_answersWell rfl _, reset_answersWell rfl _, small_wf, decrypting_matches _⟩,
    ⟨busy_busyWith _ _, by decide, by decide, small_wf, by decide, decrypting_matches _⟩, ⟨busy_busyWith _ _, by decide⟩,
    ⟨busy_busyWith _ _, reset_answersWell rfl _, decrypting_differs _⟩⟩

/-- A refused command of each kind. -/
theorem witness_RejectedCommandChangesOnlyStatus :
    small.running = none ∧ acceptanceError (.perm 0) small = some .rounds ∧
    badRange.running = none ∧ acceptanceError .enc badRange = some .range ∧
    overlapIn.running = none ∧ acceptanceError .enc overlapIn = some .overlap ∧
    ∀ i : Instr, (0x00000009 : Word32) &&& rowMask i ≠ rowMatch i :=
  ⟨rfl, by decide, rfl, by decide, rfl, by decide, nine_matches_no_row⟩

theorem witness_RoundsCheckReadsParam : (∃ mode, Instr.rk .mac = .rk mode) ∧ badRounds.running = none ∧ small.running = none :=
  ⟨⟨_, rfl⟩, rfl, rfl⟩

theorem witness_AcceptanceMakesTheEngineBusy :
    small.running = none ∧ (Instr.aeadDec ≠ .nop ∧ (∀ p, Instr.aeadDec ≠ .setinst p) ∧ Instr.aeadDec ≠ .clear) ∧
    acceptanceError .aeadDec small = none :=
  ⟨rfl, ⟨by decide, fun _ => by simp, by decide⟩, by decide⟩

/-- The completion step of a BUSY command is a next state. -/
theorem busy_enc_step (s : State) : exec .enc (busy .enc s) =
    .next (finish (encPlan { cmd := .enc, raced := [], hung := false, ticket := 0 } (busy .enc s)) { cmd := .enc, raced := [], hung := false, ticket := 0 } (busy .enc s)) := by
  rw [exec_enc]; exact runPhases_complete rfl rfl rfl

theorem busy_mac_step (s : State) : exec .mac (busy .mac s) =
    .next (finish (macPlan { cmd := .mac, raced := [], hung := false, ticket := 0 } (busy .mac s)) { cmd := .mac, raced := [], hung := false, ticket := 0 } (busy .mac s)) := by
  rw [exec_mac]; exact runPhases_complete rfl rfl rfl

theorem busy_aeadEnc_step (s : State) : exec .aeadEnc (busy .aeadEnc s) =
    .next (finish (aeadEncPlan { cmd := .aeadEnc, raced := [], hung := false, ticket := 0 } (busy .aeadEnc s))
      { cmd := .aeadEnc, raced := [], hung := false, ticket := 0 } (busy .aeadEnc s)) := by
  rw [exec_aeadEnc]; exact runPhases_complete rfl rfl rfl

/-- A command that writes no OUT byte, and one that does. -/
theorem witness_BusErrorEndsTheCommand :
    (∃ t r p, (busy .mac { small with platform := faulty }).running = some r ∧ r.hung = false ∧
      runningPlan r (busy .mac { small with platform := faulty }) = some p ∧ p.dma = .error ∧ p.out = none ∧
      exec r.cmd (busy .mac { small with platform := faulty }) = .next t) ∧
    (∃ t r p, (busy .enc { small with platform := faultyOut }).running = some r ∧ r.hung = false ∧
      runningPlan r (busy .enc { small with platform := faultyOut }) = some p ∧ p.dma = .error ∧ p.out ≠ none ∧
      exec r.cmd (busy .enc { small with platform := faultyOut }) = .next t ∧
      Memory.wf small.memory ∧ (busy .enc { small with platform := faultyOut }).outBuf.has 0x1FFF = false ∧
      (busy .enc { small with platform := faultyOut }).outBuf.has 0x2003 = false) :=
  ⟨⟨_, _, _, rfl, rfl, rfl, by decide, rfl, busy_mac_step _⟩,
    ⟨_, _, _, rfl, rfl, rfl, by decide, by simp [encPlan], busy_enc_step _, small_wf, by decide, by decide⟩⟩

/-- A completion without an error, one with ERR_BUS, and one with VERIFY = 1. -/
theorem witness_CompletionWritesFlags :
    (∃ t, exec .nop small = .next t ∧ t.running = none) ∧
    (∃ t, exec .mac (busy .mac { small with platform := faulty }) = .next t ∧ (t.running, t.status.err) = (none, true)) ∧
    (∃ s t, exec .aeadDec s = .next t ∧ t.running = none ∧ t.status.verify = true) := by
  obtain ⟨t, h, ht⟩ := onNext_eq_some test_aeadDec_accepts
  simp only [Prod.mk.injEq] at ht
  exact ⟨⟨_, rfl, rfl⟩, ⟨_, busy_mac_step _, by decide⟩, _, t, h, ht.2.2, ht.2.1⟩

/-- A completion of ENC, RK and PERM, and a refused ENC. -/
theorem witness_ZeroizationAtCompletion :
    (∃ t, (busy .enc small).running ≠ none ∧ exec .enc (busy .enc small) = .next t ∧ t.running = none) ∧
    (∃ t, (busy (.rk .enc) small).running ≠ none ∧ exec (.rk .enc) (busy (.rk .enc) small) = .next t ∧ t.running = none) ∧
    (∃ t, (busy (.perm 1) small).running ≠ none ∧ exec (.perm 1) (busy (.perm 1) small) = .next t ∧ t.running = none) ∧
    (∃ t, overlapIn.running = none ∧ acceptanceError .enc overlapIn = some .overlap ∧ exec .enc overlapIn = .next t) := by
  refine ⟨⟨_, by simp [busy], busy_enc_step _, by decide⟩, ⟨_, by simp [busy], by rw [exec_rk]; exact runPhases_complete rfl rfl rfl, rfl⟩,
    ⟨_, by simp [busy], by rw [exec_perm]; exact runPhases_complete rfl rfl rfl, rfl⟩,
    ⟨_, rfl, by decide, by rw [exec_enc]; exact runPhases_reject (e := .overlap) rfl (by decide)⟩⟩

/-- A storing command at the two bytes next to OUT, and one that stores nothing. -/
theorem witness_CommandsWriteOnlyOut :
    Memory.wf (busy .enc small).memory ∧ (∃ t, exec .enc (busy .enc small) = .next t) ∧
    0x1FFF < (busy .enc small).outAddr.toNat ∧ (busy .enc small).outAddr.toNat + (busy .enc small).inLen.toNat ≤ 0x2003 ∧
    (∃ t, exec .mac (busy .mac small) = .next t) ∧ (Instr.mac ≠ .enc ∧ Instr.mac ≠ .aeadEnc ∧ Instr.mac ≠ .aeadDec) :=
  ⟨small_wf, ⟨_, busy_enc_step _⟩, by decide, by decide, ⟨_, busy_mac_step _⟩, by decide⟩

theorem witness_RegisterFrameOfCommands : ∃ t, exec .mac (busy .mac small) = .next t := ⟨_, busy_mac_step _⟩

/-- Eight bytes at 4 mod 8; two bytes; four bytes at 2 mod 4. -/
theorem witness_BadAccessGetsSlverr :
    (inAperture State.reset.platform 0x014 = true ∧ ¬(8 = 4 ∧ apertureOffset 0x014 % 4 = 0) ∧ ¬(8 = 8 ∧ apertureOffset 0x014 % 8 = 0)) ∧
    (inAperture State.reset.platform 0x1FE = true ∧ ¬(2 = 4 ∧ apertureOffset 0x1FE % 4 = 0) ∧ ¬(2 = 8 ∧ apertureOffset 0x1FE % 8 = 0)) ∧
    (inAperture State.reset.platform 0x012 = true ∧ ¬(4 = 4 ∧ apertureOffset 0x012 % 4 = 0) ∧ ¬(4 = 8 ∧ apertureOffset 0x012 % 8 = 0)) ∧
    (doing (.read 0x014 8) State.reset).inputs = .read 0x014 8 :: [] ∧
    (doing (.write 0x014 8 0) State.reset).inputs = .write 0x014 8 0 :: [] := by decide

/-- A read of STATUS, and each other host action. -/
theorem witness_ReadsHaveNoSideEffect :
    (doing (.read 0x010 8) small).inputs = .read 0x010 8 :: [] ∧ (doing (.write 0x018 8 0x1) small).inputs = .write 0x018 8 0x1 :: [] ∧
    (doing (.dmaRead 0x1001) small).inputs = .dmaRead 0x1001 :: [] ∧
    (doing (.dmaWrite 0x1001 0x77) small).inputs = .dmaWrite 0x1001 0x77 :: [] ∧ inAperture small.platform 0x010 = true ∧ apertureOffset 0x010 = 0x010 ∧
    (inAperture small.platform 0x000 = true ∧ apertureOffset 0x000 = 0x000) ∧ (inAperture small.platform 0x040 = true ∧ apertureOffset 0x040 = 0x040) ∧
    (inAperture small.platform 0x048 = true ∧ apertureOffset 0x048 = 0x048) ∧ (inAperture small.platform 0x068 = true ∧ apertureOffset 0x068 = 0x068) := by
  decide

/-- PARAM, STATE6, which is not whole, and KEY1; then ID, STATUS and SUBKEY4. -/
theorem witness_WrittenRegisterReadsBack :
    small.running = none ∧ inAperture small.platform 0x018 = true ∧ apertureOffset 0x018 = 8 * 3 ∧ readsBack (regAt 3) = true ∧
    inAperture small.platform 0x130 = true ∧ apertureOffset 0x130 = 8 * 38 ∧ readsBack (regAt 38) = true ∧
    inAperture small.platform 0x068 = true ∧ apertureOffset 0x068 = 8 * 13 ∧ regAt 13 = .key 1 ∧
    apertureOffset 0x068 = 0x060 + 8 * 1 ∧ inAperture small.platform 0x000 = true ∧ apertureOffset 0x000 = 8 * 0 ∧ regAt 0 = .id ∧
    inAperture small.platform 0x010 = true ∧ apertureOffset 0x010 = 8 * 2 ∧ regAt 2 = .status ∧
    inAperture small.platform 0x0C0 = true ∧ apertureOffset 0x0C0 = 8 * 24 ∧ regAt 24 = .subkey 4 := by decide

/-- Both halves of PARAM, the high half of KEY1, and the high half of CMD. -/
theorem witness_HalfAccessReachesHalf :
    small.running = none ∧ inAperture small.platform 0x018 = true ∧ apertureOffset 0x018 = 8 * 3 + (if false then 4 else 0) ∧
    inAperture small.platform 0x01C = true ∧ apertureOffset 0x01C = 8 * 3 + (if true then 4 else 0) ∧ readsBack (regAt 3) = true ∧
    inAperture small.platform 0x06C = true ∧ apertureOffset 0x06C = 8 * 13 + (if true then 4 else 0) ∧ regAt 13 = .key 1 ∧
    inAperture small.platform 0x00C = true ∧ apertureOffset 0x00C = 8 * 1 + (if true then 4 else 0) ∧ regAt 1 = .cmd := by decide

/-- The first and last word of each reserved range. -/
theorem witness_ReservedOffsetsAreInert :
    (inAperture small.platform 0x058 = true ∧ apertureOffset 0x058 = 0x058) ∧ (inAperture small.platform 0x05C = true ∧ apertureOffset 0x05C = 0x05C) ∧
    (inAperture small.platform 0x0C8 = true ∧ apertureOffset 0x0C8 = 0x0C8) ∧ (inAperture small.platform 0x0F8 = true ∧ apertureOffset 0x0F8 = 0x0F8) ∧
    (inAperture small.platform 0x138 = true ∧ apertureOffset 0x138 = 0x138) ∧ (inAperture small.platform 0x1F8 = true ∧ apertureOffset 0x1F8 = 0x1F8) := by
  decide

/-- CMD itself; the upper half of CMD; a reserved offset. -/
theorem witness_BusyWriteIsIgnored :
    let s := busy .mac small
    s.running ≠ none ∧ inAperture s.platform 0x008 = true ∧ inAperture s.platform 0x00C = true ∧ inAperture s.platform 0x058 = true ∧
    (accessAt (apertureOffset 0x008) 4).map (fun a => (a.reg, decide (a.lanes &&& a.reg.implemented = 0))) = some (.cmd, false) ∧
    (accessAt (apertureOffset 0x00C) 4).map (fun a => (a.reg, decide (a.lanes &&& a.reg.implemented = 0))) = some (.cmd, true) ∧
    (accessAt (apertureOffset 0x058) 8).map (fun a => (a.reg, decide (a.lanes &&& a.reg.implemented = 0))) = some (.reserved, true) := by
  decide

theorem witness_InterruptRegistersWritable :
    inAperture small.platform 0x028 = true ∧ apertureOffset 0x028 = 0x028 ∧ inAperture small.platform 0x020 = true ∧
    apertureOffset 0x020 = 0x020 ∧ inAperture small.platform 0x024 = true ∧ apertureOffset 0x024 = 0x024 ∧
    inAperture small.platform 0x02C = true ∧ apertureOffset 0x02C = 0x02C := by decide

theorem witness_EngineSetWins :
    ∃ t, (doing (.writeWithEngine 0x028 8 0x3) (busy .mac small)).running ≠ none ∧
      step (doing (.writeWithEngine 0x028 8 0x3) (busy .mac small)) = .next t ∧ t.running = none := by
  have h : onNext (step (doing (.writeWithEngine 0x028 8 0x3) (busy .mac small))) (fun t => t.running) = some none := by decide
  obtain ⟨t, ht, hr⟩ := onNext_eq_some h
  exact ⟨t, by simp [doing, busy], ht, hr⟩

/-- While BUSY the upper half of STATE6, SUBKEY0 and TAG1; then the last word of SUBKEY and STATE. -/
theorem witness_BusyReadsHideTheState :
    (busy .mac small).running ≠ none ∧ small.running = none ∧
    (accessAt (apertureOffset 0x134) 4).map (·.reg) = some (.permState 6) ∧ (accessAt (apertureOffset 0x0A0) 8).map (·.reg) = some (.subkey 0) ∧
    (accessAt (apertureOffset 0x088) 8).map (·.reg) = some (.tag 1) ∧ inAperture small.platform 0x134 = true ∧
    inAperture small.platform 0x0A0 = true ∧ inAperture small.platform 0x088 = true ∧
    (inAperture small.platform 0x0C0 = true ∧ apertureOffset 0x0C0 = 8 * 24 ∧ apertureOffset 0x0C0 = 0x0A0 + 8 * 4) ∧
    (inAperture small.platform 0x130 = true ∧ apertureOffset 0x130 = 8 * 38 ∧ apertureOffset 0x130 = 0x100 + 8 * 6) ∧
    (inAperture small.platform 0x078 = true ∧ apertureOffset 0x078 = 8 * 15 ∧ apertureOffset 0x078 = 0x070 + 8 * 1) ∧
    (0x0A0 ≤ apertureOffset 0x0C4 ∧ apertureOffset 0x0C4 < 0x0C8) ∧ (0x100 ≤ apertureOffset 0x134 ∧ apertureOffset 0x134 < 0x138) := by decide

/-- KEY0, the upper half of KEY1, and CMD. -/
theorem witness_KeyIsNotReadable :
    (inAperture small.platform 0x060 = true ∧ (accessAt (apertureOffset 0x060) 8).map (·.reg) = some (.key 0)) ∧
    (inAperture small.platform 0x06C = true ∧ (accessAt (apertureOffset 0x06C) 4).map (·.reg) = some (.key 1)) ∧
    (inAperture small.platform 0x008 = true ∧ (accessAt (apertureOffset 0x008) 8).map (·.reg) = some .cmd) := by decide

/-- Reset of an IDLE engine, of a command without OUT, and of one with OUT, at the bytes next to OUT. -/
theorem witness_ResetAbandonsTheCommand :
    (doing .rst small).inputs = .rst :: [] ∧ (doing .rst small).running = none ∧
    (doing .rst (busy .mac small)).running = some { cmd := .mac, raced := [], hung := false, ticket := 0 } ∧ writesOut .mac = false ∧
    (doing .rst (busy .enc small)).inputs = .rst :: [] ∧ Memory.wf (doing .rst (busy .enc small)).memory ∧
    (doing .rst (busy .enc small)).outBuf.has 0x1FFF = false ∧ (doing .rst (busy .enc small)).outBuf.has 0x2003 = false :=
  ⟨rfl, rfl, rfl, rfl, rfl, small_wf, by decide, by decide⟩

/-- A BUSY state that meets the invariant. -/
theorem busy_enc_inv : Inv (busy .enc small) where
  canonical := small_wf
  within := by
    intro c hc
    simp [busy, small] at hc
    rcases hc with rfl | rfl <;> decide
  paramReserved := by decide
  status := by refine ⟨by decide, by decide, by decide⟩
  running := by
    intro r hr
    obtain rfl : ({ cmd := .enc, raced := [], hung := false, ticket := 0 } : Running) = r := by simpa [busy] using hr
    exact ⟨rfl, by decide, rfl⟩

theorem witness_StepKeepsInvariant : Inv (busy .enc small) ∧ ∃ t, step (busy .enc small) = .next t :=
  ⟨busy_enc_inv, _, (step_nil rfl).trans (busy_enc_step _)⟩

/-- The lowest address outside a 16-bit DMA space, and a platform with all 64 bits. -/
theorem witness_StepStopsOnlyOutsideDmaSpace :
    2 ^ narrow.addrW.val ≤ (0x10000 : Word64).toNat ∧
    (doing (.dmaRead 0x10000) { small with platform := narrow }).inputs = .dmaRead 0x10000 :: [] ∧
    (doing (.dmaWrite 0x10000 0x01) { small with platform := narrow }).inputs = .dmaWrite 0x10000 0x01 :: [] ∧
    small.platform.addrW.val = 64 := by decide

/-- A step that completes the command, and one that leaves it running. -/
theorem witness_RunningCommandInputsAreFrozen :
    (busy .enc small).running ≠ none ∧ (∀ rest, (busy .enc small).inputs ≠ .rst :: rest) ∧ (∃ t, step (busy .enc small) = .next t) ∧
    (∃ t, (∀ rest, (doing (.write 0x060 8 0x1) (busy .enc small)).inputs ≠ .rst :: rest) ∧
      step (doing (.write 0x060 8 0x1) (busy .enc small)) = .next t ∧ t.running ≠ none) := by
  refine ⟨by simp [busy], by simp [busy, small, State.reset], ⟨_, (step_nil rfl).trans (busy_enc_step _)⟩, ?_⟩
  have h : onNext (step (doing (.write 0x060 8 0x1) (busy .enc small))) (fun t => t.running) =
      some (some { cmd := .enc, raced := [], hung := false, ticket := 0 }) := by decide
  obtain ⟨t, ht, hr⟩ := onNext_eq_some h
  exact ⟨t, by simp [doing], ht, by rw [hr]; simp⟩

/-- An ENC one of whose transactions was never answered. -/
def hungEnc : State := { small with running := some { cmd := .enc, raced := [], hung := true, ticket := 0 } }

theorem hungEnc_step : exec .enc hungEnc = .next hungEnc := by
  rw [exec_enc]
  exact runPhases_hung rfl rfl rfl

/-- The tag AEAD_DEC computes in its Mac phase. -/
def readTag (r : Running) (s : State) : Bytes :=
  isapMac s.params s.key.toList s.nonce.toList (engineRead r s.memory s.adBuf.start s.adBuf.len 0)
    (engineRead r s.memory s.inBuf.start s.inBuf.len s.adBuf.len)

theorem readTag_length (r : Running) (s : State) : (readTag r s).length = 16 := isapMac_length _ _ _ _ _

theorem readTag_expecting (r r' : Running) (x : Bytes) (flip : Byte) (s : State) : readTag r (running r' (expecting x flip s)) = readTag r s := by
  unfold expecting
  generalize (toReg 16 x).set 15 _ = y
  rfl

theorem running_matches (r : Running) (s : State) :
    (running r (expecting (readTag r s) 0 s)).tag.toList = readTag r (running r (expecting (readTag r s) 0 s)) := by
  rw [readTag_expecting]
  exact expecting_matches (readTag_length r s) s

theorem running_differs (r : Running) (s : State) :
    (running r (expecting (readTag r s) 1 s)).tag.toList ≠ readTag r (running r (expecting (readTag r s) 1 s)) := by
  rw [readTag_expecting]
  exact expecting_differs (readTag_length r s) s

/-- Every address but the last of a list answers well, and the last never answers. -/
theorem muted (s : State) (before : List Nat) (a : Nat)
    (h : (before.all fun b => !busErrorAt s.platform b && !silentAt s.platform b) = true) (ha : busErrorAt s.platform a = false)
    (hs : silentAt s.platform a = true) : answersWell s before ∧ busErrorAt s.platform a = false ∧ silentAt s.platform a = true := by
  refine ⟨fun b hb => ?_, ha, hs⟩
  have := List.all_eq_true.mp h b hb
  simpa using this

/-- An AEAD_DEC with a matching tag whose last output byte never answers. -/
def muteRun : Running := { cmd := .aeadDec, raced := [], hung := false, ticket := 0 }

def muteDec : State :=
  running muteRun (expecting (readTag muteRun { small with platform := muteOut }) 0 { small with platform := muteOut })

theorem muteDec_matches : muteDec.tag.toList = readTag muteRun muteDec := running_matches _ _

/-- A plan that ends silent, for a step without and with a pending action; an unanswered address in each order of transactions; and a hung command. -/
theorem witness_HungCommandStaysBusy :
    (∃ s r p, s.running = some r ∧ r.hung = false ∧ runningPlan r s = some p ∧ p.dma = .silent ∧ s.inputs = [] ∧
      (doing .engine s).inputs = .engine :: [] ∧ runningPlan r (doing .engine s) = some p) ∧
    (let s := busy .enc { small with platform := muteIn }
     (answersWell s [0x1000, 0x1001] ∧ busErrorAt s.platform 0x1002 = false ∧ silentAt s.platform 0x1002 = true) ∧
       encPhaseAddrs s = [0x1000, 0x1001] ++ 0x1002 :: [0x2000, 0x2001, 0x2002] ∧
       encPhaseAddrs s ++ s.adBuf.addrs = [0x1000, 0x1001] ++ 0x1002 :: [0x2000, 0x2001, 0x2002, 0x1800]) ∧
    (let s := busy .mac { small with platform := muteIn }
     (answersWell s [] ∧ busErrorAt s.platform 0x1800 = false ∧ silentAt s.platform 0x1800 = true) ∧
       macPhaseAddrs s = [] ++ 0x1800 :: [0x1000, 0x1001, 0x1002]) ∧
    (∃ s r, s.running = some r ∧ r.cmd = .aeadDec ∧ r.hung = false ∧ answersWell s (macPhaseAddrs s) ∧
       (answersWell s [0x1000, 0x1001, 0x1002, 0x2000, 0x2001] ∧ busErrorAt s.platform 0x2002 = false ∧ silentAt s.platform 0x2002 = true) ∧
       encPhaseAddrs s = [0x1000, 0x1001, 0x1002, 0x2000, 0x2001] ++ 0x2002 :: [] ∧ s.tag.toList = readTag r s) ∧
    (∃ s t r, s.running = some r ∧ r.hung = true ∧ (∀ rest, s.inputs ≠ .rst :: rest) ∧ step s = .next t) := by
  refine ⟨⟨busy .mac { small with platform := muteIn }, _, _, rfl, rfl, rfl, by decide, rfl, rfl, rfl⟩,
    ⟨muted _ _ _ (by decide) (by decide) (by decide), by decide, by decide⟩,
    ⟨muted _ _ _ (by decide) (by decide) (by decide), by decide⟩,
    ⟨muteDec, muteRun, rfl, rfl, rfl, ?_,
      muted _ _ _ (by decide) (by decide) (by decide), by decide, muteDec_matches⟩,
    ⟨hungEnc, _, _, rfl, rfl, by simp [hungEnc, small, State.reset], (step_nil rfl).trans hungEnc_step⟩⟩
  exact dmaEnd_eq_done.mp (by decide)

theorem witness_AcceptedCommandCompletes :
    Inv (busy .enc small) ∧ (busy .enc small).running = some { cmd := .enc, raced := [], hung := false, ticket := 0 } ∧
    (busy .enc small).inputs = [] ∧ (busy .enc small).platform.noResponse = [] := ⟨busy_enc_inv, rfl, rfl, rfl⟩

/-- A byte that was written during the command, and the last byte, which was not; a raced MAC. -/
theorem witness_EngineReadSeesHeldValues :
    (1 < 3 ∧ heldBefore (racing .mac).raced (0x1000 + 1) = [0x11]) ∧ (2 < 3 ∧ heldBefore (racing .mac).raced (0x1000 + 2) = []) ∧
    (let s := running (racing .mac) small
     s.running = some (racing .mac) ∧ (racing .mac).cmd = .mac ∧ (racing .mac).hung = false ∧ answersWell s (macPhaseAddrs s)) :=
  ⟨by decide, by decide, rfl, rfl, rfl, reset_answersWell rfl _⟩

/-- While BUSY and while IDLE, at the highest address too. -/
theorem witness_HostWriteIsRemembered :
    (busy .enc small).running = some { cmd := .enc, raced := [], hung := false, ticket := 0 } ∧ small.running = none ∧
    (0x1001 : Word64).toNat < 2 ^ small.platform.addrW.val ∧ (0xFFFFFFFFFFFFFFFF : Word64).toNat < 2 ^ small.platform.addrW.val ∧
    Memory.wf small.memory :=
  ⟨rfl, rfl, by decide, by decide, small_wf⟩

/-- An ENC that has made the read of its last byte: as many host writes as that read came after. -/
def settledEnc : Running :=
  { cmd := .enc, raced := List.replicate (Config.readMoment 0 2) (0x1001, 0x11), hung := false, ticket := 0 }

theorem settledEnc_settled (s : State) : outSettled settledEnc s 2 = true := by
  simp [outSettled, mayHaveWritten, readForOut, readDone, settledEnc]

/-- The bytes next to OUT, a command without DMA, and one without OUT; then the first and last byte of OUT, and a settled one; and settled bytes that the command comes to
although a transaction of it errs or is never answered. -/
theorem witness_OutReadRace :
    ((busy .enc small).outBuf.has (0x1FFF : Word64).toNat = false ∧ (busy .enc small).outBuf.has (0x2003 : Word64).toNat = false ∧
      runningPlan { cmd := .perm 1, raced := [], hung := false, ticket := 0 } (busy (.perm 1) small) = none ∧
      ∃ p, runningPlan { cmd := .mac, raced := [], hung := false, ticket := 0 } (busy .mac small) = some p ∧ p.out = none) ∧
    (∃ p bytes, runningPlan { cmd := .enc, raced := [], hung := false, ticket := 0 } (busy .enc small) = some p ∧ p.out = some bytes) ∧
    small.outBuf.has (0x2000 : Word64).toNat = true ∧ small.outBuf.has (0x2002 : Word64).toNat = true ∧
    (0x2002 : Word64).toNat < 2 ^ small.platform.addrW.val ∧
    (∃ p t bytes, (running settledEnc small).running = some settledEnc ∧ runningPlan settledEnc (running settledEnc small) = some p ∧
      p.dma = .done ∧ p.out = some bytes ∧ Memory.wf (running settledEnc small).memory ∧ 2 < (running settledEnc small).inLen.toNat ∧
      outSettled settledEnc (running settledEnc small) 2 = true ∧ hostDmaWrite 0x1002 0x77 (running settledEnc small) = .next t) ∧
    (let s := running settledEnc { small with platform := muteOut }
     outIssued s (0x2002 : Word64).toNat = true ∧ outSettled settledEnc s ((0x2002 : Word64).toNat - s.outBuf.start) = true ∧
       dmaEnd s.platform (encPhaseAddrs s) = .silent) ∧
    (let s := running settledEnc { small with platform := faultyOutEnd }
     outIssued s (0x2002 : Word64).toNat = true ∧ outSettled settledEnc s ((0x2002 : Word64).toNat - s.outBuf.start) = true ∧
       dmaEnd s.platform (encPhaseAddrs s) = .error) := by
  refine ⟨⟨by decide, by decide, rfl, _, rfl, rfl⟩, ⟨_, _, rfl, rfl⟩, by decide, by decide, by decide, ⟨_, _, _, rfl, rfl, ?_, rfl, small_wf,
    by decide, settledEnc_settled _, if_neg (by decide)⟩, ⟨by decide, settledEnc_settled _, by decide⟩, ⟨by decide, settledEnc_settled _, by decide⟩⟩
  exact dmaEnd_answersAll (pl := (running settledEnc small).platform) ⟨rfl, rfl⟩ (encPhaseAddrs (running settledEnc small))

/-- Raced commands: a byte of OUT that a host wrote and one that none wrote; a matching tag, and one that differs. -/
theorem witness_OutWriteRace :
    (Memory.wf small.memory ∧ 2 < ([0x01, 0x02, 0x03] : Bytes).length) ∧
    heldBefore (racing .enc).raced 0x2001 = [0x22] ∧ heldBefore (racing .enc).raced 0x2002 = [] ∧
    (let s := running (racing .enc) small
     s.running = some (racing .enc) ∧ answersWell s (encPhaseAddrs s) ∧ Memory.wf s.memory) ∧
    (let s := running (racing .aeadEnc) small
     s.running = some (racing .aeadEnc) ∧ answersWell s (encPhaseAddrs s ++ s.adBuf.addrs) ∧ Memory.wf s.memory) ∧
    (let s := running (racing .aeadDec) (expecting (readTag (racing .aeadDec) small) 0 small)
     s.running = some (racing .aeadDec) ∧ answersWell s (macPhaseAddrs s) ∧ s.tag.toList = readTag (racing .aeadDec) s ∧
       answersWell s (encPhaseAddrs s) ∧ Memory.wf s.memory) ∧
    (let s := running (racing .aeadDec) (expecting (readTag (racing .aeadDec) small) 1 small)
     s.running = some (racing .aeadDec) ∧ answersWell s (macPhaseAddrs s) ∧ s.tag.toList ≠ readTag (racing .aeadDec) s) :=
  ⟨⟨small_wf, by decide⟩, by decide, by decide, ⟨rfl, reset_answersWell rfl _, small_wf⟩, ⟨rfl, reset_answersWell rfl _, small_wf⟩,
    ⟨rfl, reset_answersWell rfl _, running_matches _ _, reset_answersWell rfl _, small_wf⟩,
    ⟨rfl, reset_answersWell rfl _, running_differs _ _⟩⟩

/-- The lengths and indices at their bounds. -/
theorem witness_lanes :
    (zeros 40).length = 40 ∧ (zeros 50).length = 50 ∧ 4 < 5 ∧ 7 < 8 ∧ 24 < 25 ∧ 63 < 64 ∧ 23 < 24 ∧
    ({ State.reset with param := 0x1 } : State).params.perm = .keccak ∧ State.reset.params.perm = .ascon := by decide

theorem witness_KeystreamIndependence : ([0x01, 0x02] : Bytes).length = ([0x03, 0x04] : Bytes).length := rfl

/-- The completion step of AEAD_ENC where every address answers, and the DMA space it leaves. -/
theorem aeadEnc_memory (s : State) (h : answersAll s.platform) :
    ∃ t, exec .aeadEnc (busy .aeadEnc s) = .next t ∧
      t.memory = writeBytes s.memory s.outAddr.toNat (isapEnc s.params s.key.toList s.nonce.toList (inBytes s)) := by
  rw [busy_aeadEnc_step]
  refine ⟨_, rfl, ?_⟩
  have hd : (aeadEncPlan { cmd := .aeadEnc, raced := [], hung := false, ticket := 0 } (busy .aeadEnc s)).dma = .done := dmaEnd_answersAll h _
  rcases finish_cases (aeadEncPlan { cmd := .aeadEnc, raced := [], hung := false, ticket := 0 } (busy .aeadEnc s))
    { cmd := .aeadEnc, raced := [], hung := false, ticket := 0 } (busy .aeadEnc s) with ⟨-, hf⟩ | ⟨he, -⟩ | ⟨he, -⟩ | ⟨he, -⟩
  · rw [hf]
    simp [aeadEncPlan, storeTag, storeOut, engineRead_unraced]
    rfl
  all_goals rw [hd] at he; cases he

/-- The encryption of `small`'s message, and its decryption to another place. -/
theorem witness_AeadDecryptsWhatAeadEncrypted :
    ∃ s t u : State,
      busyWith .aeadEnc s ∧ answersWell s (encPhaseAddrs s ++ s.adBuf.addrs) ∧ Memory.wf s.memory ∧ exec .aeadEnc s = .next t ∧
      busyWith .aeadDec u ∧ answersWell u (macPhaseAddrs u ++ encPhaseAddrs u) ∧ Memory.wf u.memory ∧
      u.key = s.key ∧ u.nonce = s.nonce ∧ u.param = s.param ∧ u.tag = t.tag ∧ adBytes u = adBytes s ∧
      inBytes u = readBytes t.memory s.outBuf.start s.outBuf.len := by
  obtain ⟨t, hs, hm⟩ := aeadEnc_memory small ⟨rfl, rfl⟩
  have hlen : (isapEnc small.params small.key.toList small.nonce.toList (inBytes small)).length ≤ 3 := by
    simp [isapEnc, inBytes, small, State.inBuf]
  generalize isapEnc small.params small.key.toList small.nonce.toList (inBytes small) = x at hm hlen
  have hm' : t.memory = writeBytes small.memory 0x2000 x := hm
  have had : readBytes t.memory 0x1800 1 = readBytes small.memory 0x1800 1 := by
    have hout : ¬(0x2000 ≤ 0x1800 ∧ 0x1800 < 0x2000 + x.length) := by omega
    rw [readBytes, readBytes, hm', readByte_writeBytes small_wf, if_neg hout]
    rfl
  have hwf : Memory.wf t.memory := hm' ▸ writeBytes_wf _ _ small_wf
  exact ⟨busy .aeadEnc small, t, { busy .aeadDec small with tag := t.tag, memory := t.memory, inAddr := 0x2000, outAddr := 0x3000 },
    busy_busyWith _ _, reset_answersWell rfl _, small_wf, hs, ⟨0, rfl⟩, reset_answersWell rfl _, hwf, rfl, rfl, rfl, rfl, had, rfl⟩

end Sys2Proof.Tests
end

section
/-!
PROOFS. The registers as hosts see them: reserved offsets (R45), irq (R32), and the state after reset (R49).
-/

namespace Sys2Proof.Machine

/-! ### Which register an access reaches -/

/-- The reserved offsets of R45, in words of 8 bytes. -/
theorem regAt_eq_reserved_iff (k : Nat) : regAt k = .reserved ↔ k = 11 ∨ (25 ≤ k ∧ k < 32) ∨ 39 ≤ k := by
  simp only [regAt, ite_eq_iff, reduceCtorEq, and_false, false_or, and_true]
  omega

/-- An 8-byte access reaches a whole register (R72). -/
theorem accessAt_eight {off : Nat} (h : off % 8 = 0) :
    accessAt off 8 = some { reg := regAt (off / 8), shift := 0, lanes := 0xFFFFFFFFFFFFFFFF } :=
  if_pos ⟨rfl, h⟩

/-- A 4-byte access reaches the half of a register that its offset names (R73). -/
theorem accessAt_four {off : Nat} (h : off % 4 = 0) :
    accessAt off 4 = some { reg := regAt (off / 8), shift := 8 * (off % 8), lanes := 0x00000000FFFFFFFF <<< (8 * (off % 8)) } := by
  have hsize : ¬(4 = 8 ∧ off % 8 = 0) := by omega
  rw [accessAt, if_neg hsize, if_pos ⟨rfl, h⟩]

/-- Every access of the right size and alignment reaches the register at its offset (R72). -/
theorem accessAt_of_aligned {off size : Nat} (h : (size = 4 ∧ off % 4 = 0) ∨ (size = 8 ∧ off % 8 = 0)) :
    ∃ a, accessAt off size = some a ∧ a.reg = regAt (off / 8) := by
  rcases h with ⟨rfl, h4⟩ | ⟨rfl, h8⟩
  · exact ⟨_, accessAt_four h4, rfl⟩
  · exact ⟨_, accessAt_eight h8, rfl⟩

/-! ### What an access does, by the register it reaches -/

theorem hostRead_of_access {s : State} {addr : Word64} {size : Nat} {a : Access} (hin : inAperture s.platform addr = true)
    (ha : accessAt (apertureOffset addr) size = some a) :
    hostRead addr size s = { s with response := .okay ((a.reg.visible s &&& a.lanes) >>> a.shift) } := by
  simp only [hostRead, hin, ha, if_true]

/-- A write that presents no command word is a register write. -/
theorem hostWrite_of_access {present : Word32 → State → Host.Outcome State Fault Refusal} {s : State} {addr data : Word64} {size : Nat}
    {a : Access} (hin : inAperture s.platform addr = true) (ha : accessAt (apertureOffset addr) size = some a)
    (hcmd : ¬(a.reg = .cmd ∧ s.busy = false)) :
    hostWrite present addr size data s = .next (writeReg a (data <<< a.shift) { s with response := .okay 0 }) := by
  have hcmd' : ¬(a.reg = .cmd ∧ State.busy { s with response := .okay 0 } = false) := hcmd
  simp only [hostWrite, hin, ha, if_true, if_neg hcmd']

/-- A reserved offset has no bit that a write could change, so no write to one sets OVERRUN (R45). -/
theorem writeReg_reserved {a : Access} (h : a.reg = .reserved) (d : Word64) (s : State) : writeReg a d s = s := by
  cases hb : s.busy <;> simp [writeReg, h, hb, Reg.implemented, Reg.set]

/-- Settles O31: every access in these ranges reaches a register of no bits, by `regAt_eq_reserved_iff`. -/
theorem reservedOffsetsAreInert : Obligations.ReservedOffsetsAreInert := by
  intro s addr data size hin hsize hrange
  obtain ⟨a, ha, hreg⟩ := accessAt_of_aligned hsize
  have hres : a.reg = .reserved := by
    rw [hreg, regAt_eq_reserved_iff]
    omega
  constructor
  · simp [hostRead_of_access hin ha, hres, Reg.visible, Reg.stored]
  · rw [hostWrite_of_access hin ha (by simp [hres]), writeReg_reserved hres]

/-! ### The interrupt output -/

/-- irq is asserted when some bit is both pending and enabled (R32). -/
theorem irq_eq_true_iff (s : State) : s.irq = true ↔ ∃ i < 2, (s.intStat.getLsbD i && s.intEn.getLsbD i) = true := by
  have hzero : s.intStat &&& s.intEn = 0 ↔ ∀ i < 2, (s.intStat.getLsbD i && s.intEn.getLsbD i) = false := by
    simp [BitVec.eq_of_getLsbD_eq_iff]
  rw [State.irq, decide_eq_true_iff, Ne, hzero]
  simp

/-- Settles O35, bit by bit. -/
theorem irqIsTheEnabledPendingBits : Obligations.IrqIsTheEnabledPendingBits := by
  refine ⟨fun s => ?_, by decide⟩
  rw [Bool.eq_iff_iff, irq_eq_true_iff, Bool.or_eq_true, Nat.exists_lt_succ_right, Nat.exists_lt_succ_right]
  simp

/-! ### The state after reset -/

/-- While IDLE no command is abandoned, so no OUT range is spoiled (R211). -/
theorem abandonOut_of_idle {s : State} (h : s.running = none) : abandonOut s = s := by
  simp only [abandonOut, h]

/-- STATUS after reset: not BUSY, no error, no verdict (R49). -/
theorem reset_statusWord : State.reset.statusWord = 0 := by decide

/-- The PARAM value after reset holds the fields of ISAP-A-128A (R49, R29). -/
theorem reset_params : State.reset.params = { perm := .ascon, sb := 1, sk := 12, se := 6, sh := 12 } := by decide

/-- Settles O38. -/
theorem resetValues : Obligations.ResetValues :=
  ⟨rfl, reset_statusWord, rfl, reset_params, rfl, rfl, rfl, rfl, rfl, rfl, rfl, rfl, rfl, rfl, rfl, rfl, rfl, rfl,
    irqIsTheEnabledPendingBits.2, fun s h => by rw [resetEngine_memory, abandonOut_of_idle h]⟩

end Sys2Proof.Machine
end

section
/-!
PROOFS. Byte strings as numbers, and the lanes of the two permutations as byte strings (R60 to R63).
-/

namespace Sys2Proof.Machine

/-! ### A number and its bytes (R12) -/

theorem leBytes_succ (v n : Nat) : leBytes v (n + 1) = BitVec.ofNat 8 v :: leBytes (v / 256) n := by
  have shift (k : Nat) : v >>> (8 * (k + 1)) = (v / 256) >>> (8 * k) := by
    rw [Nat.mul_succ, Nat.add_comm, Nat.shiftRight_add, Nat.shiftRight_eq_div_pow v 8]
  simp [leBytes, List.range_succ_eq_map, shift]

/-- `n` bytes keep a number modulo 2^(8n) (R63, R73). -/
theorem leNat_leBytes (v n : Nat) : leNat (leBytes v n) = v % 2 ^ (8 * n) := by
  induction n generalizing v with
  | zero => simp [leBytes, leNat, Nat.mod_one]
  | succ n ih => rw [leBytes_succ, leNat, ih, BitVec.toNat_ofNat, Nat.mul_succ, Nat.add_comm (8 * n), Nat.pow_add, Nat.mod_mul]

/-- A byte string is the bytes of its number, least-significant first. -/
theorem leBytes_leNat (x : Bytes) : leBytes (leNat x) x.length = x := by
  induction x with
  | nil => rfl
  | cons b x ih =>
    have low : BitVec.ofNat 8 (b.toNat + 256 * leNat x) = b := by
      apply BitVec.eq_of_toNat_eq
      rw [BitVec.toNat_ofNat]
      omega
    have high : (b.toNat + 256 * leNat x) / 256 = leNat x := by omega
    rw [List.length_cons, leBytes_succ, leNat, low, high, ih]

theorem beNat_beBytes (v n : Nat) : beNat (beBytes v n) = v % 2 ^ (8 * n) := by
  rw [beNat, beBytes, List.reverse_reverse, leNat_leBytes]

/-- A byte string is the bytes of its number, most-significant first. -/
theorem beBytes_beNat (x : Bytes) : beBytes (beNat x) x.length = x := by
  rw [beNat, beBytes, ← List.length_reverse, leBytes_leNat, List.reverse_reverse]

theorem leNat_lt (x : Bytes) : leNat x < 2 ^ (8 * x.length) := by
  induction x with
  | nil => simp [leNat]
  | cons b x ih =>
    rw [List.length_cons, Nat.mul_succ, Nat.pow_add, leNat]
    omega

theorem beNat_lt (x : Bytes) : beNat x < 2 ^ (8 * x.length) := by
  rw [beNat, ← List.length_reverse]
  exact leNat_lt _

/-- A lane of `n` bytes is read back from its bytes, in either order. -/
theorem ofNat_leNat_leBytes {n : Nat} (w : BitVec (8 * n)) : BitVec.ofNat (8 * n) (leNat (leBytes w.toNat n)) = w := by
  rw [leNat_leBytes, Nat.mod_eq_of_lt w.isLt, BitVec.ofNat_toNat, BitVec.setWidth_eq]

theorem ofNat_beNat_beBytes {n : Nat} (w : BitVec (8 * n)) : BitVec.ofNat (8 * n) (beNat (beBytes w.toNat n)) = w := by
  rw [beNat_beBytes, Nat.mod_eq_of_lt w.isLt, BitVec.ofNat_toNat, BitVec.setWidth_eq]

theorem leBytes_getD (v : Nat) {n k : Nat} (h : k < n) : ((leBytes v n).getD k 0).toNat = (v >>> (8 * k)) % 256 := by
  simp [leBytes, h]

theorem beBytes_getD (v : Nat) {n k : Nat} (h : k < n) :
    ((beBytes v n).getD k 0).toNat = (v >>> (8 * (n - 1 - k))) % 256 := by
  simp [beBytes, leBytes, h]

/-- One byte more at the low end. -/
theorem beNat_concat (x : Bytes) (b : Byte) : beNat (x ++ [b]) = b.toNat + 256 * beNat x := by
  simp [beNat, leNat]

/-- The big-endian sum of R60, for `n` bytes given by their positions. -/
theorem beNat_map_range (f : Nat → Byte) (n : Nat) :
    beNat ((List.range n).map f) = ((List.range n).map fun k => (f k).toNat * 2 ^ (8 * (n - 1 - k))).sum := by
  induction n with
  | zero => rfl
  | succ n ih =>
    have weight : ∀ k ∈ List.range n,
        (f k).toNat * 2 ^ (8 * (n + 1 - 1 - k)) = 256 * ((f k).toNat * 2 ^ (8 * (n - 1 - k))) := by
      intro k hk
      have hlt := List.mem_range.mp hk
      have place : 8 * (n + 1 - 1 - k) = 8 * (n - 1 - k) + 8 := by omega
      rw [place, Nat.pow_add]
      ring
    rw [List.range_succ, List.map_append, List.map_append, List.map_singleton, List.map_singleton, beNat_concat, ih,
      List.map_congr_left weight, List.sum_append, List.sum_map_mul_left]
    simp [Nat.add_comm]

/-! ### A byte string cut into chunks of equal length -/

theorem slice_append_slice (x : Bytes) (m n : Nat) : slice x 0 m ++ slice x m n = slice x 0 (m + n) := by
  simp [slice, List.range_add, Function.comp_def]

theorem slice_full {x : Bytes} {n : Nat} (h : x.length = n) : slice x 0 n = x := by
  subst h
  refine List.ext_getElem (by simp) fun i h _ => ?_
  have hi : i < x.length := by simpa using h
  simp [slice, hi]

/-- A byte string is its chunks put together. -/
theorem flatMap_slice (x : Bytes) (n m : Nat) : (List.range m).flatMap (fun j => slice x (n * j) n) = slice x 0 (n * m) := by
  induction m with
  | zero => rfl
  | succ m ih => rw [List.range_succ, List.flatMap_append, List.flatMap_singleton, ih, slice_append_slice, Nat.mul_succ]

section
variable {α : Type} {f : α → Bytes} {n : Nat}

/-- Byte `k` of chunk `j`, where every chunk has `n` bytes. -/
theorem getD_flatMap (hf : ∀ a, (f a).length = n) {k : Nat} (hk : k < n) (l : List α) {j : Nat} (hj : j < l.length) :
    (l.flatMap f).getD (n * j + k) 0 = (f l[j]).getD k 0 := by
  induction l generalizing j with
  | nil => simp at hj
  | cons a l ih =>
    rw [List.flatMap_cons]
    cases j with
    | zero =>
      rw [Nat.mul_zero, Nat.zero_add, List.getElem_cons_zero, List.getD_append _ _ _ _ (by rwa [hf])]
    | succ j =>
      have past : n * (j + 1) + k = n + (n * j + k) := by ring
      rw [past, List.getD_append_right _ _ _ _ (by simp [hf]), hf, Nat.add_sub_cancel_left, ih (by simpa using hj),
        List.getElem_cons_succ]

/-- Chunk `j` is found at byte `n·j`. -/
theorem slice_flatMap (hf : ∀ a, (f a).length = n) (l : List α) {j : Nat} (hj : j < l.length) :
    slice (l.flatMap f) (n * j) n = f l[j] := by
  refine List.ext_getElem (by simp [hf]) fun k h _ => ?_
  have hk : k < n := by simpa using h
  have hk' : k < (f l[j]).length := by rwa [hf]
  simpa [slice, hk'] using getD_flatMap hf hk l hj

end

/-! ### The lanes of Ascon-p (R60, R61) -/

/-- The lanes x0 to x4, in order (R100). -/
def AsconState.lanes (l : AsconState) : List Lane64 := [l.x0, l.x1, l.x2, l.x3, l.x4]

theorem bytesToLanesA_lanes (x : Bytes) : (bytesToLanesA x).lanes = (List.range 5).map (asconLane x) := rfl

theorem laneBytesA_length (w : Lane64) : (beBytes w.toNat 8).length = 8 := beBytes_length _ _

theorem lanesToBytesA_eq_flatMap (l : AsconState) : lanesToBytesA l = l.lanes.flatMap fun w => beBytes w.toNat 8 := by
  simp [lanesToBytesA, AsconState.lanes]

theorem asconLane_toNat (x : Bytes) (j : Nat) : (asconLane x j).toNat = beNat (slice x (8 * j) 8) := by
  have h := beNat_lt (slice x (8 * j) 8)
  rw [slice_length] at h
  rw [asconLane, BitVec.toNat_ofNat]
  exact Nat.mod_eq_of_lt h

/-- The bytes of a lane are the bytes the lane was read from. -/
theorem beBytes_asconLane (x : Bytes) (j : Nat) : beBytes (asconLane x j).toNat 8 = slice x (8 * j) 8 := by
  have h := beBytes_beNat (slice x (8 * j) 8)
  rwa [slice_length, ← asconLane_toNat] at h

/-- Lane `j` is read back from the bytes of a lane state. -/
theorem asconLane_lanesToBytesA (l : AsconState) {j : Nat} (hj : j < l.lanes.length) :
    asconLane (lanesToBytesA l) j = l.lanes[j] := by
  rw [asconLane, lanesToBytesA_eq_flatMap, slice_flatMap laneBytesA_length _ hj]
  exact ofNat_beNat_beBytes (n := 8) _

theorem lanesToBytesA_bytesToLanesA {x : Bytes} (h : x.length = 40) : lanesToBytesA (bytesToLanesA x) = x := by
  rw [lanesToBytesA_eq_flatMap, bytesToLanesA_lanes, List.flatMap_map]
  simp only [beBytes_asconLane]
  rw [flatMap_slice]
  exact slice_full h

theorem bytesToLanesA_lanesToBytesA (l : AsconState) : bytesToLanesA (lanesToBytesA l) = l := by
  have lane (j : Nat) (hj : j < 5) : asconLane (lanesToBytesA l) j = l.lanes[j]'hj := asconLane_lanesToBytesA l hj
  simp [bytesToLanesA, lane, AsconState.lanes]

/-- Byte `8j + k` of a lane state (R61). -/
theorem lanesToBytesA_getD (l : AsconState) {j k : Nat} (hj : j < l.lanes.length) (hk : k < 8) :
    ((lanesToBytesA l).getD (8 * j + k) 0).toNat = (l.lanes[j] >>> (8 * (7 - k))).toNat % 256 := by
  rw [lanesToBytesA_eq_flatMap, getD_flatMap laneBytesA_length hk _ hj, beBytes_getD _ hk, BitVec.toNat_ushiftRight]

/-- Settles O51: the round trips go chunk by chunk, by `flatMap_slice` and `slice_flatMap`. -/
theorem asconLanesAreBigEndian : Obligations.AsconLanesAreBigEndian := by
  refine ⟨fun x j _ _ => ?_, fun _ => rfl, fun l j k hj hk => ?_, fun _ => lanesToBytesA_bytesToLanesA, bytesToLanesA_lanesToBytesA⟩
  · rw [asconLane_toNat, slice, beNat_map_range]
  · have hlane : l.lanes.getD j 0 = l.lanes[j]'hj := List.getD_eq_getElem _ _ hj
    rw [lanesToBytesA_getD l hj hk, ← hlane, AsconState.lanes]

/-! ### The lanes of Keccak-p[400] (R62, R63) -/

theorem laneBytesK_length (w : Lane16) : (leBytes w.toNat 2).length = 2 := leBytes_length _ _

theorem bytesToLanesK_getElem (x : Bytes) (i : Nat) (hi : i < 25) :
    (bytesToLanesK x)[i] = BitVec.ofNat 16 (leNat (slice x (2 * i) 2)) := by
  simp [bytesToLanesK]

theorem bytesToLanesK_toNat (x : Bytes) (i : Nat) (hi : i < 25) : (bytesToLanesK x)[i].toNat = leNat (slice x (2 * i) 2) := by
  have h := leNat_lt (slice x (2 * i) 2)
  rw [slice_length] at h
  rw [bytesToLanesK_getElem, BitVec.toNat_ofNat]
  exact Nat.mod_eq_of_lt h

/-- The bytes of a lane are the bytes the lane was read from. -/
theorem leBytes_bytesToLanesK (x : Bytes) (i : Nat) (hi : i < 25) :
    leBytes (bytesToLanesK x)[i].toNat 2 = slice x (2 * i) 2 := by
  have h := leBytes_leNat (slice x (2 * i) 2)
  rwa [slice_length, ← bytesToLanesK_toNat x i hi] at h

theorem lanesToBytesK_bytesToLanesK {x : Bytes} (h : x.length = 50) : lanesToBytesK (bytesToLanesK x) = x := by
  have chunks : (bytesToLanesK x).toList.map (fun w => leBytes w.toNat 2) = (List.range 25).map fun i => slice x (2 * i) 2 := by
    refine List.ext_getElem (by simp) fun i h _ => ?_
    have hi : i < 25 := by simpa using h
    simpa using leBytes_bytesToLanesK x i hi
  rw [lanesToBytesK, List.flatMap_def, chunks, ← List.flatMap_def, flatMap_slice]
  exact slice_full h

theorem bytesToLanesK_lanesToBytesK (l : KeccakState) : bytesToLanesK (lanesToBytesK l) = l := by
  refine Vector.ext fun i hi => ?_
  have hlen : i < l.toList.length := by simpa using hi
  rw [bytesToLanesK_getElem, lanesToBytesK, slice_flatMap laneBytesK_length _ hlen, Vector.getElem_toList]
  exact ofNat_leNat_leBytes (n := 2) _

/-- Bytes `2i` and `2i + 1` of a lane state (R63). -/
theorem lanesToBytesK_getD (l : KeccakState) (i : Nat) (hi : i < 25) {k : Nat} (hk : k < 2) :
    ((lanesToBytesK l).getD (2 * i + k) 0).toNat = (l[i].toNat >>> (8 * k)) % 256 := by
  have hlen : i < l.toList.length := by simpa using hi
  rw [lanesToBytesK, getD_flatMap laneBytesK_length hk _ hlen, leBytes_getD _ hk, Vector.getElem_toList]

/-- Settles O52: the round trips go chunk by chunk, by `flatMap_slice` and `slice_flatMap`. -/
theorem keccakLanesAreLittleEndian : Obligations.KeccakLanesAreLittleEndian := by
  refine ⟨fun x i hi _ => ?_, fun l i hi => ⟨?_, ?_⟩, fun _ => lanesToBytesK_bytesToLanesK, bytesToLanesK_lanesToBytesK⟩
  · rw [bytesToLanesK_toNat]
    simp [slice, leNat, List.range_succ]
  · exact lanesToBytesK_getD l i hi (k := 0) (by decide)
  · have hlane := l[i].isLt
    rw [lanesToBytesK_getD l i hi (k := 1) (by decide), Nat.shiftRight_eq_div_pow]
    omega

end Sys2Proof.Machine
end

section
/-!
PROOFS. The accesses that reach no register (R72).
-/

namespace Sys2Proof.Machine

/-- Any other size or alignment makes no access. -/
theorem accessAt_eq_none {off size : Nat} (h4 : ¬(size = 4 ∧ off % 4 = 0)) (h8 : ¬(size = 8 ∧ off % 8 = 0)) :
    accessAt off size = none := by
  rw [accessAt, if_neg h8, if_neg h4]

theorem hostRead_of_no_access {s : State} {addr : Word64} {size : Nat} (hin : inAperture s.platform addr = true)
    (ha : accessAt (apertureOffset addr) size = none) : hostRead addr size s = { s with response := .slverr } := by
  simp only [hostRead, hin, ha, if_true]

theorem hostWrite_of_no_access {present : Word32 → State → Host.Outcome State Fault Refusal} {s : State} {addr data : Word64} {size : Nat}
    (hin : inAperture s.platform addr = true) (ha : accessAt (apertureOffset addr) size = none) :
    hostWrite present addr size data s = .next { s with response := .slverr } := by
  simp only [hostWrite, hin, ha, if_true]

theorem act_read (addr : Word64) (size : Nat) (s : State) : act (.read addr size) s = .next (hostRead addr size s) := rfl

theorem act_write (addr data : Word64) (size : Nat) (s : State) :
    act (.write addr size data) s = hostWrite presentWord addr size data s := rfl

/-- Settles O27: an access that `accessAt` does not know changes nothing but the answer, in every mode. -/
theorem badAccessGetsSlverr : Obligations.BadAccessGetsSlverr := by
  intro s addr data size rest hin h4 h8
  have ha := accessAt_eq_none h4 h8
  refine ⟨fun h => ?_, fun h => ?_, rfl⟩
  · rw [step_cons h, act_read]
    exact congrArg _ (hostRead_of_no_access hin ha)
  · rw [step_cons h, act_write]
    exact hostWrite_of_no_access hin ha

end Sys2Proof.Machine
end

section
/-!
PROOFS. The command decoder as the opcode map of R88, and a command word written to the IDLE engine (R90).
-/

namespace Sys2Proof

/-! ### The rows of the opcode map -/

/-- The command of `i`'s row whose operands are the fields of `w` (R87). -/
def Instr.withFields (w : Word32) : Instr → Instr
  | .nop => .nop
  | .perm _ => .perm (roundsField w)
  | .rk _ => .rk (modeField w)
  | .enc => .enc
  | .mac => .mac
  | .aeadEnc => .aeadEnc
  | .aeadDec => .aeadDec
  | .setinst _ => .setinst (instField w)
  | .clear => .clear

@[simp] theorem rowMask_withFields (w : Word32) (i : Instr) : rowMask (i.withFields w) = rowMask i := by cases i <;> rfl

@[simp] theorem rowMatch_withFields (w : Word32) (i : Instr) : rowMatch (i.withFields w) = rowMatch i := by cases i <;> rfl

@[simp] theorem withFields_withFields (w : Word32) (i : Instr) : (i.withFields w).withFields w = i.withFields w := by
  cases i <;> rfl

/-- A word is its bits above OP, then OP (R86). -/
theorem append_opField (w : Word32) : w.extractLsb' 8 24 ++ opField w = w := by
  rw [opField, BitVec.extractLsb'_append_extractLsb'_eq_extractLsb' (start₁ := 0) (len₁ := 8) rfl, BitVec.extractLsb'_eq_self]

/-- A mask of OP and of the bits `m` above it fixes the two separately (R88). -/
theorem and_append_allOnes_eq_iff (w : Word32) (m : BitVec 24) (op : BitVec 8) :
    w &&& (m ++ BitVec.allOnes 8) = 0#24 ++ op ↔ opField w = op ∧ w &&& (m ++ 0#8) = 0#24 ++ 0#8 := by
  rw [← append_opField w, BitVec.and_append, BitVec.and_append, BitVec.and_allOnes, BitVec.and_zero, BitVec.append_left_inj, append_opField]
  constructor
  · intro h
    have hop : opField w = op := by
      simpa only [BitVec.extractLsb'_append_eq_right] using congrArg (BitVec.extractLsb' 0 8) h
    rw [hop, BitVec.append_left_inj] at h
    exact ⟨hop, h⟩
  · rintro ⟨rfl, h⟩
    rw [h]

/-- The row of a command without operands is one word (R88). -/
theorem row_iff_of_allOnes {i : Instr} (hm : rowMask i = BitVec.allOnes 32) (w : Word32) :
    w &&& rowMask i = rowMatch i ↔ w = rowMatch i := by
  rw [hm, BitVec.and_allOnes]

theorem row_perm_iff (w : Word32) (n : Nat) :
    w &&& rowMask (.perm n) = rowMatch (.perm n) ↔ opField w = 0x01 ∧ w &&& 0xFFE0FF00 = 0 :=
  and_append_allOnes_eq_iff w 0xFFE0FF 0x01

theorem row_rk_iff (w : Word32) (mode : RkMode) :
    w &&& rowMask (.rk mode) = rowMatch (.rk mode) ↔ opField w = 0x02 ∧ w &&& 0xFFFFFE00 = 0 :=
  and_append_allOnes_eq_iff w 0xFFFFFE 0x02

theorem row_setinst_iff (w : Word32) (inst : InstanceId) :
    w &&& rowMask (.setinst inst) = rowMatch (.setinst inst) ↔ opField w = 0x07 ∧ w &&& 0xFCFFFF00 = 0 :=
  and_append_allOnes_eq_iff w 0xFCFFFF 0x07

/-- Each row of R88 meets the test that R91 makes for it. -/
theorem decodeWord_of_row {w : Word32} {i : Instr} (h : w &&& rowMask i = rowMatch i) : decodeWord w = .ok (i.withFields w) := by
  cases i with
  | perm n =>
    obtain ⟨hop, hres⟩ := (row_perm_iff w n).mp h
    rw [decodeWord, hop, if_pos hres]
    rfl
  | rk m =>
    obtain ⟨hop, hres⟩ := (row_rk_iff w m).mp h
    rw [decodeWord, hop, if_pos hres]
    rfl
  | setinst p =>
    obtain ⟨hop, hres⟩ := (row_setinst_iff w p).mp h
    rw [decodeWord, hop, if_pos hres]
    rfl
  | nop | enc | mac | aeadEnc | aeadDec | clear =>
    obtain rfl := (row_iff_of_allOnes rfl w).mp h
    rfl

/-- Each test of R91 admits only words of its row of R88. -/
theorem row_of_decodeWord {w : Word32} {i : Instr} (h : decodeWord w = .ok i) :
    w &&& rowMask i = rowMatch i ∧ i.withFields w = i := by
  unfold decodeWord at h
  split_ifs at h with h0 hw h1 hres h2 hres h3 hw h4 hw h5 hw h6 hw h7 hres h8 hw <;> cases h
  · exact ⟨(row_iff_of_allOnes rfl w).mpr hw, rfl⟩
  · exact ⟨(row_perm_iff w _).mpr ⟨h1, hres⟩, rfl⟩
  · exact ⟨(row_rk_iff w _).mpr ⟨h2, hres⟩, rfl⟩
  · exact ⟨(row_iff_of_allOnes rfl w).mpr hw, rfl⟩
  · exact ⟨(row_iff_of_allOnes rfl w).mpr hw, rfl⟩
  · exact ⟨(row_iff_of_allOnes rfl w).mpr hw, rfl⟩
  · exact ⟨(row_iff_of_allOnes rfl w).mpr hw, rfl⟩
  · exact ⟨(row_setinst_iff w _).mpr ⟨h7, hres⟩, rfl⟩
  · exact ⟨(row_iff_of_allOnes rfl w).mpr hw, rfl⟩

/-- The opcode map (R88): a word is a command when it matches that command's row and its fields are the command's operands. -/
theorem decodeWord_eq_ok_iff (w : Word32) (i : Instr) :
    decodeWord w = .ok i ↔ w &&& rowMask i = rowMatch i ∧ i.withFields w = i := by
  refine ⟨row_of_decodeWord, fun ⟨hrow, hfields⟩ => ?_⟩
  rw [decodeWord_of_row hrow, hfields]

/-- A row's command, with its operands read from the word, is decoded from exactly the words of that row. -/
theorem decodeWord_eq_withFields_iff (w : Word32) (i : Instr) :
    decodeWord w = .ok (i.withFields w) ↔ w &&& rowMask i = rowMatch i := by
  simp [decodeWord_eq_ok_iff]

/-- A word is illegal when it matches no row (R90). -/
theorem exists_decodeWord_eq_error_iff (w : Word32) :
    (∃ e, decodeWord w = .error e) ↔ ∀ i : Instr, w &&& rowMask i ≠ rowMatch i := by
  constructor
  · rintro ⟨e, he⟩ i hrow
    rw [decodeWord_of_row hrow] at he
    cases he
  · intro hno
    cases hd : decodeWord w with
    | error e => exact ⟨e, rfl⟩
    | ok i => exact absurd (row_of_decodeWord hd).1 (hno i)

/-- Settles O3, row by row. -/
theorem decoderFollowsOpcodeRows : Obligations.DecoderFollowsOpcodeRows := fun w =>
  ⟨decodeWord_eq_withFields_iff w .nop, decodeWord_eq_withFields_iff w (.perm 0), decodeWord_eq_withFields_iff w (.rk .enc),
    decodeWord_eq_withFields_iff w .enc, decodeWord_eq_withFields_iff w .mac, decodeWord_eq_withFields_iff w .aeadEnc,
    decodeWord_eq_withFields_iff w .aeadDec, decodeWord_eq_withFields_iff w (.setinst .a128a), decodeWord_eq_withFields_iff w .clear,
    exists_decodeWord_eq_error_iff w⟩

/-- Settles O4 on the eight words of R96. -/
theorem encodingExamplesDecode : Obligations.EncodingExamplesDecode := by
  unfold Obligations.EncodingExamplesDecode
  decide

end Sys2Proof

namespace Sys2Proof.Machine

/-! ### A command word written to the IDLE engine -/

/-- Both accesses that cover CMD bits 31:0 reach CMD at its bit 0 (R25, R72). -/
theorem accessAt_cmd {size : Nat} (h : size = 4 ∨ size = 8) :
    ∃ a, accessAt 0x008 size = some a ∧ a.reg = .cmd ∧ a.shift = 0 := by
  rcases h with rfl | rfl
  · exact ⟨_, accessAt_four rfl, rfl, rfl⟩
  · exact ⟨_, accessAt_eight rfl, rfl, rfl⟩

/-- A write of CMD while IDLE presents bits 31:0 of its data as a command word (R25, R178). -/
theorem hostWrite_cmd_of_idle {present : Word32 → State → Host.Outcome State Fault Refusal} {s : State} {addr data : Word64}
    {size : Nat} (hidle : s.running = none) (hin : inAperture s.platform addr = true) (hoff : apertureOffset addr = 0x008)
    (hsize : size = 4 ∨ size = 8) :
    hostWrite present addr size data s = present (data.setWidth 32) { s with response := .okay 0 } := by
  obtain ⟨a, ha, hreg, hshift⟩ := accessAt_cmd hsize
  have hcmd : a.reg = .cmd ∧ State.busy { s with response := .okay 0 } = false := ⟨hreg, by simp [State.busy, hidle]⟩
  simp only [hostWrite, hin, hoff, ha, if_true, if_pos hcmd, if_pos hshift]

/-- A word that matches no row is answered with ERR_ILLEGAL (R90). -/
theorem presentWord_of_no_row {w : Word32} (h : ∀ i : Instr, w &&& rowMask i ≠ rowMatch i) (s : State) :
    presentWord w s = .next (completeError .illegal s) := by
  obtain ⟨e, he⟩ := (exists_decodeWord_eq_error_iff w).mpr h
  simp only [presentWord, he]

/-- While IDLE, an error completion writes only STATUS and INT_STAT (R192). -/
theorem completeError_of_idle {s : State} (h : s.running = none) (e : ErrorCode) :
    completeError e s = { s with status := errorStatus e, intStat := s.intStat ||| intDone } := by
  rw [completeError, complete, ← h]

/-- Settles O6: the write presents the word, and no row answers for it. -/
theorem illegalWordCompletesWithError : Obligations.IllegalWordCompletesWithError := by
  intro s addr data size rest hidle hinputs hin hoff hsize hno
  rw [step_cons hinputs, act_write, hostWrite_cmd_of_idle (s := { s with inputs := rest }) hidle hin hoff hsize,
    presentWord_of_no_row hno, completeError_of_idle (s := { s with inputs := rest, response := .okay 0 }) hidle]
  rfl

end Sys2Proof.Machine
end

section
/-!
PROOFS. The two layers that work on single columns or whole lanes: the substitution layer of Ascon-p as a function of the
five bits of a column (R103, R104), and π of Keccak-p[400] as a move of lanes (R110).
-/

namespace Sys2Proof.Machine

/-! ### The substitution layer of Ascon-p, one column at a time (R103, R104) -/

/-- The number of a column with the bits `c0` (most significant) to `c4` (R104). -/
def columnNumber (c0 c1 c2 c3 c4 : Bool) : Nat := 16 * c0.toNat + 8 * c1.toNat + 4 * c2.toNat + 2 * c3.toNat + c4.toNat

/-- The number of the column that R103 makes of the column `c0` to `c4`. -/
def columnPS (c0 c1 c2 c3 c4 : Bool) : Nat :=
  let a0 := c0 ^^ c4
  let a2 := c2 ^^ c1
  let a4 := c4 ^^ c3
  let b0 := a0 ^^ (!c1 && a2)
  let b1 := c1 ^^ (!a2 && c3)
  let b2 := a2 ^^ (!c3 && a4)
  let b3 := c3 ^^ (!a4 && a0)
  let b4 := a4 ^^ (!a0 && c1)
  columnNumber (b0 ^^ b4) (b1 ^^ b0) (!b2) (b3 ^^ b2) b4

theorem asconColumn_eq_columnNumber (x : AsconState) (b : Nat) :
    asconColumn x b =
      columnNumber (x.x0.getLsbD b) (x.x1.getLsbD b) (x.x2.getLsbD b) (x.x3.getLsbD b) (x.x4.getLsbD b) := rfl

/-- The layer works on each column alone. The bound is needed because the layer complements lanes, and a lane has no bit 64. -/
theorem asconColumn_asconPS (x : AsconState) {b : Nat} (hb : b < 64) :
    asconColumn (asconPS x) b =
      columnPS (x.x0.getLsbD b) (x.x1.getLsbD b) (x.x2.getLsbD b) (x.x3.getLsbD b) (x.x4.getLsbD b) := by
  simp [asconColumn_eq_columnNumber, asconPS, columnPS, hb]

/-- On each of the 32 columns, R103 gives the entry of the table of R104. -/
theorem columnPS_eq_asconSBox :
    ∀ c0 c1 c2 c3 c4 : Bool, columnPS c0 c1 c2 c3 c4 = asconSBox.getD (columnNumber c0 c1 c2 c3 c4) 0 := by
  decide

/-- Settles O50: a column of the result depends on the same column only, and on columns the layer is the table. -/
theorem sBoxTableAtEveryColumn : Obligations.SBoxTableAtEveryColumn := by
  intro x b hb
  rw [asconColumn_asconPS x hb, columnPS_eq_asconSBox, asconColumn_eq_columnNumber]

/-! ### The lanes of a Keccak state by their coordinates (R64), and π (R110) -/

/-- Coordinates count mod 5 (R64). -/
theorem keccakLane_congr (a : KeccakState) {x x' y y' : Nat} (hx : x % 5 = x' % 5) (hy : y % 5 = y' % 5) :
    keccakLane a x y = keccakLane a x' y' := by
  simp only [keccakLane, hx, hy]

@[simp] theorem keccakLane_keccakBuild (f : Nat → Nat → Lane16) (x y : Nat) :
    keccakLane (keccakBuild f) x y = f (x % 5) (y % 5) := by
  have hcol : (5 * (y % 5) + x % 5) % 5 = x % 5 := by omega
  have hrow : (5 * (y % 5) + x % 5) / 5 = y % 5 := by omega
  simp only [keccakLane, keccakBuild, Vector.getElem_ofFn, hcol, hrow]

theorem keccakLane_keccakPi (a : KeccakState) (x y : Nat) : keccakLane (keccakPi a) x y = keccakLane a (x + 3 * y) x := by
  rw [keccakPi, keccakLane_keccakBuild]
  exact keccakLane_congr a (by omega) (by omega)

/-- Settles O53: the second form is the first one read at (y, 2x + 3y), since y + 3(2x + 3y) = 6x + 10y is x mod 5. -/
theorem piMovesLanes : Obligations.PiMovesLanes := by
  intro a x y _ _
  constructor
  · rw [keccakLane_keccakPi]
    exact keccakLane_congr a (Nat.mod_mod _ 5).symm rfl
  · have hsource : (y + 3 * ((2 * x + 3 * y) % 5)) % 5 = x % 5 := by omega
    rw [keccakLane_keccakPi]
    exact keccakLane_congr a hsource rfl

end Sys2Proof.Machine
end

section
/-!
PROOFS. The rounds that one run of ISAP-Rk takes (R131, R135).
-/

namespace Sys2Proof.Machine

theorem rkRounds_of_lt (ps : Params) {i : Nat} (hi : i < 127) : rkRounds ps i = ps.sb := if_pos hi

@[simp] theorem rkRounds_last (ps : Params) : rkRounds ps 127 = ps.sk := rfl

/-- The bits of Y before the last one cost s_b rounds each (R131). -/
theorem sum_map_rkRounds (ps : Params) {n : Nat} (hn : n ≤ 127) :
    ((List.range n).map (rkRounds ps)).sum = n * ps.sb := by
  have rounds : ∀ i ∈ List.range n, rkRounds ps i = ps.sb := fun i hi =>
    rkRounds_of_lt ps ((List.mem_range.mp hi).trans_le hn)
  rw [List.map_congr_left rounds, List.map_const', List.length_range, List.sum_replicate, smul_eq_mul]

/-- Settles O60: of the 128 bits of Y, the first 127 cost s_b rounds each, and the last one costs s_k, as the
initialization does. -/
theorem rkWorkCount : Obligations.RkWorkCount := by
  intro ps
  refine ⟨?_, rfl⟩
  have bits : ((List.range 128).map (rkRounds ps)).sum = 127 * ps.sb + ps.sk := by
    rw [List.range_succ, List.map_append, List.sum_append, sum_map_rkRounds ps le_rfl, List.map_singleton,
      List.sum_singleton, rkRounds_last]
  rw [bits]
  omega

end Sys2Proof.Machine
end

section
/-!
PROOFS. ISAP-Enc keeps the length of its input and undoes itself (R140, R144).
-/

namespace Sys2Proof.Machine

@[simp] theorem isapEnc_length (ps : Params) (k nonce x : Bytes) : (isapEnc ps k nonce x).length = x.length := by
  rw [isapEnc, xorBytes_length, min_eq_left (keystream_length_ge ps k nonce x.length)]

/-- Settles O57: the keystream depends on the input's length alone, so both applications XOR the same one. -/
theorem encIsItsOwnInverse : Obligations.EncIsItsOwnInverse := by
  intro ps k nonce x
  calc isapEnc ps k nonce (isapEnc ps k nonce x)
      = xorBytes (isapEnc ps k nonce x) (keystream ps k nonce x.length) := by
        rw [isapEnc, isapEnc_length]
    _ = x := xorBytes_cancel x _ (keystream_length_ge ps k nonce x.length)

end Sys2Proof.Machine
end

section
/-!
PROOFS. The control commands NOP, SETINST and CLEAR (R185 to R187).
-/

namespace Sys2Proof.Machine

/-! ### A command that completes at acceptance -/

theorem runAtOnce_of_idle {s : State} (f : State → State) (h : s.running = none) :
    runAtOnce f s = .next (complete (okStatus false) (f s)) := by
  simp only [runAtOnce, h]

theorem runAtOnce_of_busy {s : State} (f : State → State) (h : s.running ≠ none) : runAtOnce f s = .next (setOverrun s) := by
  obtain ⟨r, hr⟩ := Option.ne_none_iff_exists'.mp h
  simp only [runAtOnce, hr]

/-- Settles O9. -/
theorem nopCompletes : Obligations.NopCompletes :=
  ⟨fun w => (decodeWord_eq_withFields_iff w .nop).trans (row_iff_of_allOnes rfl w),
    fun _ => ⟨runAtOnce_of_idle fun s => s, runAtOnce_of_busy fun s => s⟩⟩

/-- Settles O11. -/
theorem clearZeroizesSecrets : Obligations.ClearZeroizesSecrets :=
  ⟨fun w => (decodeWord_eq_withFields_iff w .clear).trans (row_iff_of_allOnes rfl w), fun _ => runAtOnce_of_idle clearSecrets⟩

/-! ### A five-bit field of PARAM in its place (R27) -/

theorem extractLsb'_field_same (x : BitVec 5) {place : Nat} (h : place + 5 ≤ 64) :
    (x.setWidth 64 <<< place).extractLsb' place 5 = x := by
  refine BitVec.eq_of_getLsbD_eq fun i hi => ?_
  have hin : place + i < 64 := by omega
  simp [hi, hin]

/-- A field holds no bit of a place apart from its own. -/
theorem extractLsb'_field_other (x : BitVec 5) {place other : Nat} (h : other + 5 ≤ place ∨ place + 5 ≤ other) :
    (x.setWidth 64 <<< place).extractLsb' other 5 = 0 := by
  refine BitVec.eq_of_getLsbD_eq fun i hi => ?_
  rcases h with below | above
  · have hlt : other + i < place := by omega
    simp [hlt]
  · have hge : 5 ≤ other + i - place := by omega
    simp [BitVec.getLsbD_of_ge x _ hge]

theorem extractLsb'_permBit (perm : PermSel) {place : Nat} (h : 0 < place) : (permBit perm).extractLsb' place 5 = 0 := by
  cases perm with
  | ascon => simp [permBit]
  | keccak =>
    refine BitVec.eq_of_getLsbD_eq fun i hi => ?_
    simp [permBit, h.ne']

/-! ### The PARAM value of a preset row (R186) -/

theorem paramPerm_permBit (perm : PermSel) : paramPerm (permBit perm) = perm := by
  cases perm <;> decide

/-- The four round counts lie above bit 0. -/
theorem paramPerm_presetParam (row : Preset) : paramPerm (presetParam row) = row.perm := by
  have hbit : (presetParam row).getLsbD 0 = (permBit row.perm).getLsbD 0 := by simp [presetParam]
  rw [paramPerm, hbit, ← paramPerm, paramPerm_permBit]

/-- Every field of the row lies in its own place. -/
theorem paramsOf_presetParam (row : Preset) :
    paramsOf (presetParam row) =
      { perm := row.perm, sb := row.sb.toNat, sk := row.sk.toNat, se := row.se.toNat, sh := row.sh.toNat } := by
  rw [paramsOf, paramPerm_presetParam]
  simp [paramSb, paramSk, paramSe, paramSh, presetParam, BitVec.extractLsb'_or, extractLsb'_field_same,
    extractLsb'_field_other, extractLsb'_permBit]

/-- The four places are implemented bits of PARAM. -/
theorem field_and_not_paramMask (x : BitVec 5) :
    ∀ place ∈ [8, 16, 24, 32], (x.setWidth 64 <<< place) &&& ~~~paramMask = 0 := by
  decide +revert

theorem permBit_and_not_paramMask (perm : PermSel) : permBit perm &&& ~~~paramMask = 0 := by
  cases perm <;> decide

/-- SETINST leaves the unimplemented bits of PARAM 0 (R27). -/
theorem presetParam_and_not_paramMask (row : Preset) : presetParam row &&& ~~~paramMask = 0 := by
  simp [presetParam, BitVec.and_or_distrib_right, field_and_not_paramMask, permBit_and_not_paramMask]

/-- Settles O10: the fields of the row do not overlap, so PARAM gives each of them back. -/
theorem setinstLoadsThePreset : Obligations.SetinstLoadsThePreset := by
  refine ⟨fun w => decodeWord_eq_withFields_iff w (.setinst .a128a), fun s inst hidle => ?_, by decide, by decide, by decide, by decide⟩
  rw [exec_setinst, runAtOnce_of_idle _ hidle]
  exact ⟨_, rfl, rfl, paramsOf_presetParam _, presetParam_and_not_paramMask _⟩

end Sys2Proof.Machine
end

section
/-!
PROOFS. The rounds check (R182): what it reads of PARAM, and that it comes before every other acceptance check (R181).
-/

namespace Sys2Proof.Machine

/-! ### The rounds check in PARAM's bits -/

/-- Five bits of a register from `place` on, shifted down. -/
theorem toNat_shift_and_field (p : Word64) (place : Nat) : ((p >>> place) &&& 0x1F).toNat = (p.extractLsb' place 5).toNat := by
  rw [BitVec.toNat_and, BitVec.toNat_ushiftRight, BitVec.extractLsb'_toNat]
  exact Nat.and_two_pow_sub_one_eq_mod _ 5

theorem rmax_paramPerm (p : Word64) : rmax (paramPerm p) = if p.getLsbD 0 then 20 else 12 := by
  unfold paramPerm
  split <;> rfl

theorem legalRounds_iff (perm : PermSel) (n : Nat) : legalRounds perm n = true ↔ 1 ≤ n ∧ n ≤ rmax perm := decide_eq_true_iff

/-- PARAM is legal when the four fields each hold a legal round count (R28). -/
theorem paramsOf_legal_iff (p : Word64) :
    (paramsOf p).legal = true ↔
      ∀ place ∈ [8, 16, 24, 32],
        1 ≤ ((p >>> place) &&& 0x1F).toNat ∧ ((p >>> place) &&& 0x1F).toNat ≤ (if p.getLsbD 0 then 20 else 12) := by
  simp only [toNat_shift_and_field, ← rmax_paramPerm, List.forall_mem_cons, List.not_mem_nil, false_implies, implies_true, and_true]
  simp only [Params.legal, Bool.and_eq_true, legalRounds_iff, paramsOf, paramSb, paramSk, paramSe, paramSh, and_assoc]

/-! ### Which check reports -/

/-- The five ISAP commands, which `check_rounds()` is for (R182). -/
def isIsapCommand (i : Instr) : Prop := (∃ mode, i = .rk mode) ∨ i = .enc ∨ i = .mac ∨ i = .aeadEnc ∨ i = .aeadDec

/-- The error that is reported is the error of one of the checks. -/
theorem mem_of_firstError {l : List (Option ErrorCode)} {e : ErrorCode} (h : firstError l = some e) : some e ∈ l := by
  induction l with
  | nil => cases h
  | cons c l ih =>
    cases c with
    | none => exact List.mem_cons_of_mem _ (ih h)
    | some e' => exact List.mem_cons.mpr (Or.inl h.symm)

theorem checkRange_ne_rounds (b : Buffer) (s : State) : checkRange b s ≠ some .rounds := by
  unfold checkRange
  split <;> simp

theorem checkDisjoint_ne_rounds (b c : Buffer) : checkDisjoint b c ≠ some .rounds := by
  unfold checkDisjoint
  split <;> simp

theorem checkRounds_eq_some_rounds {s : State} : checkRounds s = some .rounds ↔ ¬s.params.legal = true := by
  simp [checkRounds]

/-- An ISAP command checks the rounds first, and its other checks report something else (R181). -/
theorem acceptanceError_isap {i : Instr} (hi : isIsapCommand i) (s : State) :
    ∃ rest, acceptanceError i s = firstError (checkRounds s :: rest) ∧ some .rounds ∉ rest := by
  rcases hi with ⟨mode, rfl⟩ | rfl | rfl | rfl | rfl
  · refine ⟨[], ?_, by simp⟩
    cases h : checkRounds s <;> simp [acceptanceError, h]
  all_goals exact ⟨_, rfl, by simp [(checkRange_ne_rounds _ _).symm, (checkDisjoint_ne_rounds _ _).symm]⟩

theorem acceptanceError_eq_rounds_iff {i : Instr} (hi : isIsapCommand i) (s : State) :
    acceptanceError i s = some .rounds ↔ ¬s.params.legal = true := by
  obtain ⟨rest, hchecks, hrest⟩ := acceptanceError_isap hi s
  rw [hchecks, ← checkRounds_eq_some_rounds]
  constructor
  · intro h
    exact ((List.mem_cons.mp (mem_of_firstError h)).resolve_right hrest).symm
  · intro h
    rw [h, firstError_some]

/-! ### A refused command -/

/-- A command that runs after acceptance has the two phases of R175. -/
theorem exec_eq_runPhases {i : Instr} (hi : runsAfterAcceptance i = true) :
    ∃ completion, ∀ s, exec i s = runPhases i completion s := by
  cases i with
  | nop | setinst | clear => cases hi
  | perm n => exact ⟨_, exec_perm n⟩
  | rk mode => exact ⟨_, exec_rk mode⟩
  | enc => exact ⟨_, exec_enc⟩
  | mac => exact ⟨_, exec_mac⟩
  | aeadEnc => exact ⟨_, exec_aeadEnc⟩
  | aeadDec => exact ⟨_, exec_aeadDec⟩

theorem runsAfterAcceptance_of_isap {i : Instr} (hi : isIsapCommand i) : runsAfterAcceptance i = true := by
  rcases hi with ⟨mode, rfl⟩ | rfl | rfl | rfl | rfl <;> rfl

/-- NOP, SETINST and CLEAR have no acceptance check (R181). -/
theorem runsAfterAcceptance_of_error {i : Instr} {s : State} {e : ErrorCode} (h : acceptanceError i s = some e) :
    runsAfterAcceptance i = true := by
  cases i with
  | nop | setinst | clear => cases h
  | perm | rk | enc | mac | aeadEnc | aeadDec => rfl

/-- A command that fails a check completes at once with its error (R192). -/
theorem exec_of_error {i : Instr} {s : State} {e : ErrorCode} (hidle : s.running = none) (h : acceptanceError i s = some e) :
    exec i s = .next (completeError e s) := by
  obtain ⟨_, hexec⟩ := exec_eq_runPhases (runsAfterAcceptance_of_error h)
  rw [hexec, runPhases_reject hidle h]

theorem exec_of_accepted {i : Instr} {s : State} (hi : runsAfterAcceptance i = true) (hidle : s.running = none)
    (h : acceptanceError i s = none) : exec i s = .next (accept i s) := by
  obtain ⟨_, hexec⟩ := exec_eq_runPhases hi
  rw [hexec, runPhases_accept hidle h]

theorem code_injective {e e' : ErrorCode} (h : e.code = e'.code) : e = e' := by
  revert h
  cases e <;> cases e' <;> decide

theorem completeError_eq_rejectedState {s : State} (hidle : s.running = none) (e : ErrorCode) :
    completeError e s = rejectedState e.code s :=
  completeError_of_idle hidle e

/-- The state after a refusal tells which check refused (R191). -/
theorem exec_eq_rejectedState_iff {i : Instr} {s : State} (hi : runsAfterAcceptance i = true) (hidle : s.running = none)
    (e : ErrorCode) : exec i s = .next (rejectedState e.code s) ↔ acceptanceError i s = some e := by
  rw [← completeError_eq_rejectedState hidle]
  refine ⟨fun h => ?_, exec_of_error hidle⟩
  cases hchecks : acceptanceError i s with
  | none =>
    rw [exec_of_accepted hi hidle hchecks, Host.Outcome.next.injEq] at h
    have hrunning := congrArg State.running h
    simp at hrunning
  | some e' =>
    rw [exec_of_error hidle hchecks, Host.Outcome.next.injEq] at h
    have hcode := congrArg (fun t => t.status.errcode) h
    exact congrArg some (code_injective hcode)

/-- Settles O19: the rounds check comes first, and no other check reports its code. -/
theorem roundsCheckReadsParam : Obligations.RoundsCheckReadsParam := by
  intro s i hi hidle
  rw [← paramsOf_legal_iff]
  exact (exec_eq_rejectedState_iff (runsAfterAcceptance_of_isap hi) hidle .rounds).trans (acceptanceError_eq_rounds_iff hi s)

end Sys2Proof.Machine
end

section
/-!
PROOFS. Zeroization (R183).
-/

namespace Sys2Proof.Machine

/-- A BUSY engine becomes IDLE by the completion of its command, and by nothing else. -/
theorem eq_completion_of_runPhases {i : Instr} {f : Running → State → State} {s t : State} {r : Running} (hr : s.running = some r)
    (h : runPhases i f s = .next t) (hidle : t.running = none) : t = f r s := by
  rcases runPhases_cases h with ⟨e, hs, -⟩ | ⟨hs, -⟩ | ⟨r', hs, -, -, rfl⟩ | ⟨r', hs, -, -, ht⟩ | ⟨r', hs, -, rfl⟩
  · simp [hr] at hs
  · simp [hr] at hs
  · simp [hr] at hidle
  · obtain rfl : r' = r := Option.some.inj (hs.symm.trans hr)
    exact ht
  · simp [hr] at hidle

/-- A DMA command that completes, with or without ERR_BUS, leaves STATE and SUBKEY zero. -/
theorem finish_zeroizes {p : Plan} {r : Running} {s : State} (h : (finish p r s).running = none) :
    (finish p r s).permState = Vector.replicate 50 0 ∧ (finish p r s).subkey = Vector.replicate 34 0 := by
  rcases finish_cases p r s with ⟨-, hf⟩ | ⟨-, -, hf⟩ | ⟨-, -, hf⟩ | ⟨-, hf⟩
  · simp [hf]
  · simp [hf]
  · simp [hf]
  · simp [hf] at h

/-- The DMA commands complete by carrying out a plan (R176). -/
theorem exec_eq_finish {i : Instr} (hi : i = .enc ∨ i = .mac ∨ i = .aeadEnc ∨ i = .aeadDec) :
    ∃ plan : Running → State → Plan, ∀ s, exec i s = runPhases i (fun r s => finish (plan r s) r s) s := by
  rcases hi with rfl | rfl | rfl | rfl
  · exact ⟨encPlan, exec_enc⟩
  · exact ⟨macPlan, exec_mac⟩
  · exact ⟨aeadEncPlan, exec_aeadEnc⟩
  · exact ⟨aeadDecPlan, exec_aeadDec⟩

/-- Settles O24, by the completion of each kind of command. -/
theorem zeroizationAtCompletion : Obligations.ZeroizationAtCompletion := by
  refine ⟨fun i s t r hr h hidle => ⟨fun hi => ?_, ?_, ?_⟩, fun i s t e hidle he h => ?_⟩
  · obtain ⟨plan, hexec⟩ := exec_eq_finish hi
    rw [hexec] at h
    obtain rfl := eq_completion_of_runPhases hr h hidle
    exact finish_zeroizes hidle
  · rintro ⟨mode, rfl⟩
    rw [exec_rk] at h
    rw [eq_completion_of_runPhases hr h hidle, complete_permState]
  · rintro ⟨n, rfl⟩
    rw [exec_perm] at h
    rw [eq_completion_of_runPhases hr h hidle, complete_subkey]
  · rw [exec_of_error hidle he, Host.Outcome.next.injEq] at h
    rw [← h]
    exact ⟨completeError_permState e s, completeError_subkey e s⟩

end Sys2Proof.Machine
end

section
/-!
PROOFS. What a command that ends with an error leaves (R192 to R194).
-/

namespace Sys2Proof.Machine

/-! ### A command that fails an acceptance check -/

/-- The error that a check may report is one of ERR_ROUNDS, ERR_RANGE and ERR_OVERLAP (R181). -/
def reportsAcceptanceError (check : Option ErrorCode) : Prop :=
  ∀ e, check = some e → e = .rounds ∨ e = .range ∨ e = .overlap

theorem reportsAcceptanceError_none : reportsAcceptanceError none := by
  rintro e ⟨⟩

theorem checkPermRounds_reports (n : Nat) (s : State) : reportsAcceptanceError (checkPermRounds n s) := by
  unfold checkPermRounds
  split <;> simp [reportsAcceptanceError]

theorem checkRounds_reports (s : State) : reportsAcceptanceError (checkRounds s) := by
  unfold checkRounds
  split <;> simp [reportsAcceptanceError]

theorem checkRange_reports (b : Buffer) (s : State) : reportsAcceptanceError (checkRange b s) := by
  unfold checkRange
  split <;> simp [reportsAcceptanceError]

theorem checkDisjoint_reports (b c : Buffer) : reportsAcceptanceError (checkDisjoint b c) := by
  unfold checkDisjoint
  split <;> simp [reportsAcceptanceError]

theorem firstError_reports {l : List (Option ErrorCode)} (h : ∀ check ∈ l, reportsAcceptanceError check) :
    reportsAcceptanceError (firstError l) :=
  fun e he => h _ (mem_of_firstError he) e rfl

/-- No acceptance check reports ERR_ILLEGAL or ERR_BUS. -/
theorem acceptanceError_reports (i : Instr) (s : State) : reportsAcceptanceError (acceptanceError i s) := by
  cases i with
  | nop | setinst | clear => exact reportsAcceptanceError_none
  | perm n => exact checkPermRounds_reports n s
  | rk => exact checkRounds_reports s
  | enc | mac | aeadEnc | aeadDec =>
    exact firstError_reports (by simp [checkRounds_reports, checkRange_reports, checkDisjoint_reports])

theorem acceptanceError_code {i : Instr} {s : State} {e : ErrorCode} (h : acceptanceError i s = some e) :
    e.code = 0x02 ∨ e.code = 0x03 ∨ e.code = 0x04 := by
  rcases acceptanceError_reports i s e h with rfl | rfl | rfl
  · exact Or.inl rfl
  · exact Or.inr (Or.inl rfl)
  · exact Or.inr (Or.inr rfl)

/-- Settles O18: a refusal completes the IDLE engine with an error, which writes STATUS and INT_STAT alone. -/
theorem rejectedCommandChangesOnlyStatus : Obligations.RejectedCommandChangesOnlyStatus := by
  refine ⟨fun i s e hidle h => ⟨?_, acceptanceError_code h⟩, fun w s hidle hno => ?_⟩
  · rw [exec_of_error hidle h, completeError_of_idle hidle]
    rfl
  · rw [presentWord_of_no_row hno, completeError_of_idle hidle]
    rfl

/-! ### ERR_BUS -/

theorem outBuf_has_eq_false_iff {s : State} {a : Nat} :
    s.outBuf.has a = false ↔ ¬(s.outAddr.toNat ≤ a ∧ a < s.outAddr.toNat + s.inLen.toNat) :=
  decide_eq_false_iff_not

/-- The bytes that R194 leaves unspecified are those of OUT. -/
theorem readByte_spoilOut_frame {s : State} (h : Memory.wf s.memory) {a : Nat} (ha : s.outBuf.has a = false) :
    readByte (spoilOut s).memory a = readByte s.memory a := by
  rw [spoilOut_memory]
  exact readByte_spoilBytes_frame h _ _ _ _ (outBuf_has_eq_false_iff.mp ha)

/-- A plan that ends with a bus error has no other effect than R193's on the registers and R194's on the DMA space. -/
theorem finish_of_busError {p : Plan} (hd : p.dma = .error) (r : Running) (s : State) :
    ∃ m d, finish p r s = { busErrorState s with memory := m, draws := d } ∧
      (p.out = none → m = s.memory) ∧
      (Memory.wf s.memory → ∀ a, s.outBuf.has a = false → readByte m a = readByte s.memory a) := by
  rcases finish_cases p r s with ⟨hdone, -⟩ | ⟨-, -, hf⟩ | ⟨-, hout, hf⟩ | ⟨hsilent, -⟩
  · simp [hd] at hdone
  · exact ⟨s.memory, s.draws, hf, fun _ => rfl, fun _ _ _ => rfl⟩
  · exact ⟨(spoilOut s).memory, (spoilOut s).draws, hf, fun h => absurd h hout, fun hw _ ha => readByte_spoilOut_frame hw ha⟩
  · simp [hd] at hsilent

/-- Settles O22: the completion step carries out the command's plan, whose DMA ends with the bus error. -/
theorem busErrorEndsTheCommand : Obligations.BusErrorEndsTheCommand := by
  intro s t r p hr hhung hplan hdma hexec
  rw [exec_runningPlan hr hhung hplan, Host.Outcome.next.injEq] at hexec
  obtain ⟨m, d, hf, hnone, hframe⟩ := finish_of_busError hdma r s
  obtain rfl : { busErrorState s with memory := m, draws := d } = t := hf.symm.trans hexec
  exact ⟨rfl, rfl, rfl, rfl, rfl, rfl, rfl, rfl, rfl, rfl, hnone, hframe⟩

end Sys2Proof.Machine
end

section
/-!
PROOFS. The encoder of R93 against the decoder of R91: each undoes the other, and no bit of a word is ignored (R89).
-/

namespace Sys2Proof

/-! ### The operand fields of an encoded command (R87, R93) -/

/-- The R field is five bits wide (R87). -/
theorem roundsField_lt (w : Word32) : roundsField w < 32 := (w.extractLsb' 16 5).isLt

theorem roundsField_encode (n : Nat) : roundsField (encode (.perm n)) = n % 32 := by
  have hfield : (encode (.perm n)).extractLsb' 16 5 = BitVec.ofNat 5 n := by
    refine BitVec.eq_of_getLsbD_eq fun i hi => ?_
    have hin : 16 + i < 32 := by omega
    have hop : Nat.testBit 1 (16 + i) = false := Nat.testBit_lt_two_pow (Nat.one_lt_two_pow (by omega))
    have hwide : i < 32 := by omega
    simp [encode, hi, hin, hop, hwide, BitVec.getLsbD_ofNat, -BitVec.getLsbD_eq_getElem]
  rw [roundsField, hfield, BitVec.toNat_ofNat]

/-- The fields of the word of a well-formed command are the command's operands. -/
theorem withFields_encode {i : Instr} (hi : i.wellFormed = true) : i.withFields (encode i) = i := by
  cases i with
  | perm n =>
    have hn : n < 32 := of_decide_eq_true hi
    rw [Instr.withFields, roundsField_encode, Nat.mod_eq_of_lt hn]
  | rk mode => cases mode <;> decide
  | setinst inst => cases inst <;> decide
  | nop | enc | mac | aeadEnc | aeadDec | clear => rfl

/-- The word of a well-formed command matches that command's row (R88, R93). -/
theorem encode_and_rowMask {i : Instr} (hi : i.wellFormed = true) : encode i &&& rowMask i = rowMatch i := by
  cases i with
  | nop => exact Laws.EncodesRow.nop hi
  | perm n => exact Laws.EncodesRow.perm n hi
  | rk mode => exact Laws.EncodesRow.rk mode hi
  | enc => exact Laws.EncodesRow.enc hi
  | mac => exact Laws.EncodesRow.mac hi
  | aeadEnc => exact Laws.EncodesRow.aeadEnc hi
  | aeadDec => exact Laws.EncodesRow.aeadDec hi
  | setinst inst => exact Laws.EncodesRow.setinst inst hi
  | clear => exact Laws.EncodesRow.clear hi

/-- Settles O1: the word matches the command's row, and its fields are the operands. -/
theorem decodeInvertsEncode : Obligations.DecodeInvertsEncode := fun i hi =>
  (decodeWord_eq_ok_iff (encode i) i).mpr ⟨encode_and_rowMask hi, withFields_encode hi⟩

/-! ### The word of the fields of a word -/

theorem encodeMode_modeField (w : Word32) : encodeMode (modeField w) = w &&& 0x00000100 := by
  have hbit : w &&& BitVec.twoPow 32 8 = if w.getLsbD 8 then BitVec.twoPow 32 8 else 0 := BitVec.and_twoPow w 8
  rw [modeField]
  cases hb : w.getLsbD 8 <;> rw [hb] at hbit <;> exact hbit.symm

theorem encodeInst_instanceOfField (f : BitVec 2) : encodeInst (instanceOfField f) = f.setWidth 32 <<< 24 := by
  decide +revert

/-- A field in its place is the word with all other bits cleared. -/
theorem field_in_place (w : Word32) (place len : Nat) :
    (w.extractLsb' place len).setWidth 32 <<< place = w &&& ((BitVec.allOnes len).setWidth 32 <<< place) := by
  refine BitVec.eq_of_getLsbD_eq fun i hi => ?_
  by_cases hlow : i < place
  · simp [hlow]
  · have hplace : place + (i - place) = i := by omega
    simp [hi, hlow, hplace, Bool.and_comm]

/-- Encoding the fields of a word gives the row's fixed bits and the word's operand bits (R88). -/
theorem encode_withFields (w : Word32) (i : Instr) : encode (i.withFields w) = rowMatch i ||| (w &&& ~~~rowMask i) := by
  cases i with
  | perm n =>
    have hfield : BitVec.ofNat 32 (roundsField w) = (w.extractLsb' 16 5).setWidth 32 := by
      rw [roundsField, BitVec.ofNat_toNat]
    have hmask : (BitVec.allOnes 5).setWidth 32 <<< 16 = ~~~rowMask (.perm n) := by rw [rowMask]; decide
    rw [Instr.withFields, encode, hfield, field_in_place, hmask]
    rfl
  | rk mode =>
    have hmask : 0x00000100 = ~~~rowMask (.rk mode) := by rw [rowMask]; decide
    rw [Instr.withFields, encode, encodeMode_modeField, hmask, rowMatch]
  | setinst inst =>
    have hmask : (BitVec.allOnes 2).setWidth 32 <<< 24 = ~~~rowMask (.setinst inst) := by rw [rowMask]; decide
    rw [Instr.withFields, encode, instField, encodeInst_instanceOfField, field_in_place, hmask, rowMatch]
  | nop | enc | mac | aeadEnc | aeadDec | clear => simp [Instr.withFields, encode, rowMatch, rowMask]

/-- A word of a row is the encoding of its own fields: no bit is ignored (R89). -/
theorem encode_withFields_of_row {w : Word32} {i : Instr} (h : w &&& rowMask i = rowMatch i) : encode (i.withFields w) = w := by
  rw [encode_withFields, ← h, ← BitVec.and_or_distrib_left, BitVec.or_not_self, BitVec.and_allOnes]

theorem wellFormed_withFields (w : Word32) (i : Instr) : (i.withFields w).wellFormed = true := by
  cases i with
  | perm n => exact decide_eq_true (roundsField_lt w)
  | nop | rk | enc | mac | aeadEnc | aeadDec | setinst | clear => rfl

/-- Settles O2: a word that decodes matches its command's row, whose operands are its fields. -/
theorem decodedWordIsItsEncoding : Obligations.DecodedWordIsItsEncoding := by
  intro w i h
  obtain ⟨hrow, hfields⟩ := row_of_decodeWord h
  rw [← hfields]
  exact ⟨wellFormed_withFields w i, encode_withFields_of_row hrow⟩

end Sys2Proof

namespace Sys2Proof.Machine

/-! ### How a step reaches the meaning of a command -/

theorem presentWord_of_decodeWord {w : Word32} {i : Instr} (h : decodeWord w = .ok i) (s : State) : presentWord w s = exec i s := by
  simp only [presentWord, h]

/-- Settles O5: the write presents the word to the IDLE engine. -/
theorem stepRunsTheDecodedCommand : Obligations.StepRunsTheDecodedCommand := by
  intro s i addr data size rest hidle hinputs hin hoff hsize hdecode
  refine ⟨(decodedWordIsItsEncoding _ i hdecode).1, ?_⟩
  rw [step_cons hinputs, act_write, hostWrite_cmd_of_idle (s := { s with inputs := rest }) hidle hin hoff hsize,
    presentWord_of_decodeWord hdecode]

theorem decodeWord_of_decodeTableWord {nbits w : Nat} {i : Instr} (h : decodeTableWord nbits w = some i) :
    decodeWord (tableWord nbits w) = .ok i := by
  rw [decodeTableWord, decode_leBytes] at h
  cases hd : decodeWord (tableWord nbits w) <;> simp_all

/-- Settles O7: the placed action is a host's write of the word to CMD. -/
theorem fetchedWordIsTheNextCommand : Obligations.FetchedWordIsTheNextCommand := by
  intro s nbits w i h
  have hword : decodeWord (((tableWord nbits w).setWidth 64).setWidth 32) = .ok i := by
    rw [BitVec.setWidth_setWidth_of_le _ (by decide), BitVec.setWidth_eq]
    exact decodeWord_of_decodeTableWord h
  rw [step_cons (s := s.withFetchWord nbits w) rfl, act_write]
  exact (hostWrite_cmd_of_idle (s := { s with running := none }) rfl (inAperture_busAddr _ _) (apertureOffset_busAddr _ _)
    (Or.inl rfl)).trans (presentWord_of_decodeWord hword _)

theorem engineStep_of_busy {s : State} {r : Running} (hr : s.running = some r) : engineStep s = exec r.cmd s := by
  simp only [engineStep, hr]

theorem engineStep_of_idle {s : State} (hidle : s.running = none) : engineStep s = .next s := by
  simp only [engineStep, hidle]

theorem act_engine (s : State) : act .engine s = engineStep s := rfl

/-- Settles O8. -/
theorem engineStepRunsTheAcceptedCommand : Obligations.EngineStepRunsTheAcceptedCommand := by
  refine ⟨fun s r hr => ⟨fun h => ?_, fun rest h => ?_⟩, fun s hidle => ⟨fun h => ?_, fun rest h => ?_⟩⟩
  · rw [step_nil h, engineStep_of_busy hr]
  · rw [step_cons h, act_engine]
    exact engineStep_of_busy (s := { s with inputs := rest }) hr
  · rw [step_nil h, engineStep_of_idle hidle]
  · rw [step_cons h, act_engine]
    exact engineStep_of_idle (s := { s with inputs := rest }) hidle

end Sys2Proof.Machine
end

section
/-!
PROOFS. The lengths of a tag and of its register (R150, R38), and what AEAD_DEC's plan is in each case of its Mac phase (R168).
-/

namespace Sys2Proof.Machine

theorem sixteen_le_stateBytes (perm : PermSel) : 16 ≤ stateBytes perm := by cases perm <;> decide

/-- A tag has 16 bytes (R150, R172). -/
@[simp] theorem isapMac_length (ps : Params) (k nonce ad c : Bytes) : (isapMac ps k nonce ad c).length = 16 := by
  rw [isapMac, macFinish, List.length_take, permute_length]
  exact min_eq_left (sixteen_le_stateBytes ps.perm)

@[simp] theorem toReg_getElem {n : Nat} (x : Bytes) (k : Nat) (hk : k < n) : (toReg n x)[k] = x.getD k 0 := by simp [toReg]

/-- A string of the register's length fills the register. -/
theorem toReg_toList {n : Nat} {x : Bytes} (h : x.length = n) : (toReg n x).toList = x := by
  subst h
  refine List.ext_getElem (by simp) fun k hk hk' => ?_
  simp [hk']

/-- The tag of what a command reads when it reads AD and then IN (R79, R168). -/
def macPhaseTag (r : Running) (s : State) : Bytes :=
  isapMac s.params s.key.toList s.nonce.toList
    (engineRead r s.memory s.adBuf.start s.adBuf.len 0) (engineRead r s.memory s.inBuf.start s.inBuf.len s.adBuf.len)

/-- The comparison of R167 finds equality exactly when TAG is the tag of what was read. -/
theorem tagDifference_macPhaseTag (r : Running) (s : State) :
    tagDifference s.tag.toList (macPhaseTag r s) = 0x00 ↔ s.tag.toList = macPhaseTag r s :=
  tagDifference_eq_zero (by simp [macPhaseTag])

theorem aeadDecPlan_of_match {r : Running} {s : State} (hd : dmaEnd s.platform (macPhaseAddrs s) = .done)
    (ht : s.tag.toList = macPhaseTag r s) :
    aeadDecPlan r s =
      { dma := dmaEnd s.platform (encPhaseAddrs s)
        out := some (isapEnc s.params s.key.toList s.nonce.toList
          (engineRead r s.memory s.inBuf.start s.inBuf.len (s.adBuf.len + s.inBuf.len)))
        tag := none
        verify := true } := by
  have hzero := (tagDifference_macPhaseTag r s).mpr ht
  rw [macPhaseTag] at hzero
  simp only [aeadDecPlan, hd, if_pos hzero]

theorem aeadDecPlan_of_differ {r : Running} {s : State} (hd : dmaEnd s.platform (macPhaseAddrs s) = .done)
    (ht : s.tag.toList ≠ macPhaseTag r s) : aeadDecPlan r s = { dma := .done, out := none, tag := none, verify := false } := by
  have hzero := mt (tagDifference_macPhaseTag r s).mp ht
  rw [macPhaseTag] at hzero
  simp only [aeadDecPlan, hd, if_neg hzero]

theorem aeadDecPlan_of_failure {r : Running} {s : State} (hd : dmaEnd s.platform (macPhaseAddrs s) ≠ .done) :
    aeadDecPlan r s = { dma := dmaEnd s.platform (macPhaseAddrs s), out := none, tag := none, verify := false } := by
  unfold aeadDecPlan
  cases he : dmaEnd s.platform (macPhaseAddrs s) with
  | done => exact absurd he hd
  | error => rfl
  | silent => rfl

/-- AEAD_DEC writes OUT, and reports the tag as verified, only with a matching tag (R170). -/
theorem aeadDecPlan_cases (r : Running) (s : State) :
    (dmaEnd s.platform (macPhaseAddrs s) = .done ∧ s.tag.toList = macPhaseTag r s) ∨
    ((aeadDecPlan r s).out = none ∧ (aeadDecPlan r s).verify = false) := by
  by_cases hd : dmaEnd s.platform (macPhaseAddrs s) = .done
  · by_cases ht : s.tag.toList = macPhaseTag r s
    · exact Or.inl ⟨hd, ht⟩
    · exact Or.inr (by simp [aeadDecPlan_of_differ hd ht])
  · exact Or.inr (by simp [aeadDecPlan_of_failure hd])

/-- A command that writes OUT bytes has an OUT buffer, and writes all of it (R35, R142). -/
theorem runningPlan_out {r : Running} {s : State} {p : Plan} {bytes : Bytes} (hp : runningPlan r s = some p)
    (ho : p.out = some bytes) : writesOut r.cmd = true ∧ bytes.length = s.inLen.toNat := by
  cases hc : r.cmd with
  | nop | perm | rk | setinst | clear => simp [runningPlan, hc] at hp
  | enc =>
    obtain rfl := Option.some.inj ((runningPlan_enc hc).symm.trans hp)
    obtain rfl := Option.some.inj ho
    exact ⟨rfl, by simp [State.inBuf]⟩
  | mac =>
    obtain rfl := Option.some.inj ((runningPlan_mac hc).symm.trans hp)
    cases ho
  | aeadEnc =>
    obtain rfl := Option.some.inj ((runningPlan_aeadEnc hc).symm.trans hp)
    obtain rfl := Option.some.inj ho
    exact ⟨rfl, by simp [State.inBuf]⟩
  | aeadDec =>
    obtain rfl := Option.some.inj ((runningPlan_aeadDec hc).symm.trans hp)
    rcases aeadDecPlan_cases r s with ⟨hd, ht⟩ | ⟨hnone, -⟩
    · rw [aeadDecPlan_of_match hd ht] at ho
      obtain rfl := Option.some.inj ho
      exact ⟨rfl, by simp [State.inBuf]⟩
    · simp [hnone] at ho

end Sys2Proof.Machine
end

section
/-!
PROOFS. Everything a command can do, said once.
-/

namespace Sys2Proof.Machine

/-- Every next state that `exec` of a command can have, by the phase and the kind of the command (R175, log 20). -/
inductive ExecResult (i : Instr) (s : State) : State → Prop where
  /-- NOP at acceptance (R185). -/
  | nop : i = .nop → s.running = none → ExecResult i s (complete (okStatus false) s)
  /-- SETINST at acceptance (R186). -/
  | setinst (inst : InstanceId) : i = .setinst inst → s.running = none →
      ExecResult i s (complete (okStatus false) { s with param := presetParam (presetRow s.platform.presets inst) })
  /-- CLEAR at acceptance (R187). -/
  | clear : i = .clear → s.running = none → ExecResult i s (complete (okStatus false) (clearSecrets s))
  /-- An acceptance check failed (R192). -/
  | refused (e : ErrorCode) : s.running = none → acceptanceError i s = some e → ExecResult i s (completeError e s)
  /-- Accepted: the engine becomes BUSY (R179). -/
  | accepted : runsAfterAcceptance i = true → s.running = none → acceptanceError i s = none → ExecResult i s (accept i s)
  /-- The word of a command that is not the running one (R180). -/
  | ignored (r : Running) : s.running = some r → ExecResult i s (setOverrun s)
  /-- The running command waits for an answer that never comes (R189). -/
  | hung (r : Running) : s.running = some r → r.cmd = i → r.hung = true → ExecResult i s s
  /-- The completion step of PERM (R115). -/
  | perm (r : Running) (n : Nat) : s.running = some r → r.cmd = i → r.hung = false → i = .perm n →
      ExecResult i s (complete (okStatus false) { s with permState := permResult s.params.perm n s.permState })
  /-- The completion step of RK (R133). -/
  | rk (r : Running) (mode : RkMode) : s.running = some r → r.cmd = i → r.hung = false → i = .rk mode →
      ExecResult i s (complete (okStatus false)
        { s with
          subkey := toReg 34 (isapRk s.params s.key.toList s.y.toList mode)
          permState := Vector.replicate 50 0 })
  /-- The completion step of a DMA command (R176). -/
  | dma (r : Running) (p : Plan) : s.running = some r → r.cmd = i → r.hung = false → runningPlan r s = some p →
      ExecResult i s (finish p r s)

theorem execResult_of_runAtOnce {i : Instr} {f : State → State} {s t : State}
    (h : runAtOnce f s = .next t) (hf : s.running = none → ExecResult i s (complete (okStatus false) (f s))) : ExecResult i s t := by
  rcases runAtOnce_cases h with ⟨hidle, rfl⟩ | ⟨r, hr, rfl⟩
  · exact hf hidle
  · exact .ignored r hr

theorem execResult_of_runPhases {i : Instr} {f : Running → State → State} {s t : State} (h : runPhases i f s = .next t)
    (hi : runsAfterAcceptance i = true)
    (hf : ∀ r, s.running = some r → r.cmd = i → r.hung = false → ExecResult i s (f r s)) : ExecResult i s t := by
  rcases runPhases_cases h with
    ⟨e, hidle, he, rfl⟩ | ⟨hidle, he, rfl⟩ | ⟨r, hr, hc, hh, rfl⟩ | ⟨r, hr, hc, hh, rfl⟩ | ⟨r, hr, -, rfl⟩
  · exact .refused e hidle he
  · exact .accepted hi hidle he
  · exact .hung r hr hc hh
  · exact hf r hr hc hh
  · exact .ignored r hr

theorem execResult_of_exec {i : Instr} {s t : State} (h : exec i s = .next t) : ExecResult i s t := by
  cases i with
  | nop =>
    rw [exec_nop] at h
    exact execResult_of_runAtOnce h fun hidle => .nop rfl hidle
  | setinst inst =>
    rw [exec_setinst] at h
    exact execResult_of_runAtOnce h fun hidle => .setinst inst rfl hidle
  | clear =>
    rw [exec_clear] at h
    exact execResult_of_runAtOnce h fun hidle => .clear rfl hidle
  | perm n =>
    rw [exec_perm] at h
    exact execResult_of_runPhases h rfl fun r hr hc hh => .perm r n hr hc hh rfl
  | rk mode =>
    rw [exec_rk] at h
    exact execResult_of_runPhases h rfl fun r hr hc hh => .rk r mode hr hc hh rfl
  | enc =>
    rw [exec_enc] at h
    exact execResult_of_runPhases h rfl fun r hr hc hh => .dma r _ hr hc hh (runningPlan_enc hc)
  | mac =>
    rw [exec_mac] at h
    exact execResult_of_runPhases h rfl fun r hr hc hh => .dma r _ hr hc hh (runningPlan_mac hc)
  | aeadEnc =>
    rw [exec_aeadEnc] at h
    exact execResult_of_runPhases h rfl fun r hr hc hh => .dma r _ hr hc hh (runningPlan_aeadEnc hc)
  | aeadDec =>
    rw [exec_aeadDec] at h
    exact execResult_of_runPhases h rfl fun r hr hc hh => .dma r _ hr hc hh (runningPlan_aeadDec hc)

end Sys2Proof.Machine
end

section
/-!
PROOFS. The invariant of the machine, kept by every action of the environment and every step of the engine.
-/

namespace Sys2Proof.Machine

/-! ### The parts of the invariant -/

/-- An IDLE engine meets the invariant when its DMA space, PARAM and STATUS do. -/
theorem inv_of_idle {s : State} (hidle : s.running = none) (hwf : Memory.wf s.memory)
    (hin : withinDmaSpace s.memory s.platform.addrW.val) (hparam : s.param &&& ~~~paramMask = 0) (hst : s.status.sound) : Inv s :=
  ⟨hwf, hin, hparam, hst, fun r hr => by simp [hidle] at hr⟩

/-- The invariant does not read INT_EN, INT_STAT, the byte-string registers, the pending actions, the answer or the draw counter. -/
theorem inv_of_unread {s t : State} (hs : Inv s)
    (h : t = { s with
      intEn := t.intEn, intStat := t.intStat, key := t.key, nonce := t.nonce, tag := t.tag, y := t.y, subkey := t.subkey
      permState := t.permState, inputs := t.inputs, response := t.response, draws := t.draws }) : Inv t := by
  rw [h]
  refine ⟨hs.canonical, hs.within, hs.paramReserved, hs.status, fun r hr => ?_⟩
  obtain ⟨hruns, haccepted, hverify⟩ := hs.running r hr
  exact ⟨hruns, (acceptanceError_congr r.cmd (s := s) rfl rfl rfl rfl rfl rfl rfl).trans haccepted, hverify⟩

theorem okStatus_sound (verify : Bool) : (okStatus verify).sound := by simp [okStatus, Status.sound]

theorem errorStatus_sound (e : ErrorCode) : (errorStatus e).sound := by
  cases e <;> simp [errorStatus, Status.sound, ErrorCode.code]

theorem inv_complete {st : Status} {s : State} (hst : st.sound) (hwf : Memory.wf s.memory)
    (hin : withinDmaSpace s.memory s.platform.addrW.val) (hparam : s.param &&& ~~~paramMask = 0) : Inv (complete st s) :=
  inv_of_idle rfl hwf hin hparam hst

/-! ### The OUT range of an accepted command -/

/-- A command with an OUT buffer is accepted only if OUT fits (R70, R181). -/
theorem outBuf_fits_of_accepted {i : Instr} {s : State} (hi : writesOut i = true) (h : acceptanceError i s = none) :
    fits s.outBuf s := by
  cases i with
  | nop | perm | rk | mac | setinst | clear => cases hi
  | enc | aeadEnc | aeadDec => exact checkRange_eq_none.mp (firstError_eq_none.mp h _ (by simp))

theorem spoilOut_wf {s : State} (h : Memory.wf s.memory) : Memory.wf (spoilOut s).memory := spoilBytes_wf _ _ _ h

theorem spoilOut_within {s : State} (hfits : fits s.outBuf s) (h : withinDmaSpace s.memory s.platform.addrW.val) :
    withinDmaSpace (spoilOut s).memory s.platform.addrW.val :=
  spoilBytes_within _ h hfits

theorem storeOut_wf {r : Running} {out : Option Bytes} {s : State} (h : Memory.wf s.memory) : Memory.wf (storeOut r out s).memory := by
  cases out with
  | none => exact h
  | some bytes => exact engineWrite_wf _ _ _ _ h

theorem storeOut_within {r : Running} {out : Option Bytes} {s : State} (h : withinDmaSpace s.memory s.platform.addrW.val)
    (hout : ∀ bytes, out = some bytes → bytes.length = s.inLen.toNat ∧ fits s.outBuf s) :
    withinDmaSpace (storeOut r out s).memory s.platform.addrW.val := by
  cases out with
  | none => exact h
  | some bytes =>
    obtain ⟨hlen, hfits⟩ := hout bytes rfl
    refine engineWrite_within _ _ _ h ?_
    rw [hlen]
    exact hfits

/-! ### Commands -/

theorem finish_keeps_inv {s : State} {r : Running} {p : Plan} (hs : Inv s) (hr : s.running = some r)
    (hp : runningPlan r s = some p) : Inv (finish p r s) := by
  obtain ⟨-, haccepted, -⟩ := hs.running r hr
  have hout : ∀ bytes, p.out = some bytes → bytes.length = s.inLen.toNat ∧ fits s.outBuf s := fun bytes ho =>
    have ⟨hwrites, hlen⟩ := runningPlan_out hp ho
    ⟨hlen, outBuf_fits_of_accepted hwrites haccepted⟩
  rcases finish_cases p r s with ⟨-, hf⟩ | ⟨-, -, hf⟩ | ⟨-, ho, hf⟩ | ⟨-, hf⟩ <;> rw [hf]
  · exact inv_complete (okStatus_sound _) (by simpa using storeOut_wf hs.canonical) (by simpa using storeOut_within hs.within hout)
      (by simpa using hs.paramReserved)
  · exact inv_complete (errorStatus_sound _) hs.canonical hs.within hs.paramReserved
  · obtain ⟨bytes, hbytes⟩ := Option.ne_none_iff_exists'.mp ho
    exact inv_complete (errorStatus_sound _) (spoilOut_wf hs.canonical) (spoilOut_within (hout bytes hbytes).2 hs.within)
      hs.paramReserved
  · refine ⟨hs.canonical, hs.within, hs.paramReserved, hs.status, fun r' hr' => ?_⟩
    obtain rfl := Option.some.inj hr'
    obtain ⟨hruns, -, hverify⟩ := hs.running r hr
    exact ⟨hruns, (acceptanceError_congr r.cmd (s := s) rfl rfl rfl rfl rfl rfl rfl).trans haccepted, hverify⟩

theorem accept_keeps_inv {s : State} {i : Instr} (hs : Inv s) (hi : runsAfterAcceptance i = true)
    (h : acceptanceError i s = none) : Inv (accept i s) := by
  obtain ⟨herr, hcode, -⟩ := hs.status
  refine ⟨hs.canonical, hs.within, hs.paramReserved, ⟨herr, hcode, fun hv => by cases hv⟩, fun r hr => ?_⟩
  obtain rfl := Option.some.inj hr
  exact ⟨hi, (acceptanceError_congr i (s := s) rfl rfl rfl rfl rfl rfl rfl).trans h, rfl⟩

theorem exec_keeps_inv {i : Instr} {s t : State} (hs : Inv s) (h : exec i s = .next t) : Inv t := by
  cases execResult_of_exec h with
  | nop | clear | perm | rk => exact inv_complete (okStatus_sound _) hs.canonical hs.within hs.paramReserved
  | setinst inst => exact inv_complete (okStatus_sound _) hs.canonical hs.within (presetParam_and_not_paramMask _)
  | refused e => exact inv_complete (errorStatus_sound e) hs.canonical hs.within hs.paramReserved
  | accepted hi _ haccepted => exact accept_keeps_inv hs hi haccepted
  | ignored => exact inv_of_unread hs rfl
  | hung => exact hs
  | dma r p hr _ _ hp => exact finish_keeps_inv hs hr hp

theorem presentWord_keeps_inv {w : Word32} {s t : State} (hs : Inv s) (h : presentWord w s = .next t) : Inv t := by
  unfold presentWord at h
  split at h
  · exact exec_keeps_inv hs h
  · obtain rfl := Host.Outcome.next.inj h
    exact inv_complete (errorStatus_sound .illegal) hs.canonical hs.within hs.paramReserved

theorem engineStep_keeps_inv {s t : State} (hs : Inv s) (h : engineStep s = .next t) : Inv t := by
  unfold engineStep at h
  split at h
  · obtain rfl := Host.Outcome.next.inj h
    exact hs
  · exact exec_keeps_inv hs h

/-! ### Host accesses and reset -/

/-- What a register write can touch: never the DMA space, the mode, STATUS or the platform, and PARAM in its implemented bits alone. -/
theorem set_frame (r : Reg) (v : Word64) (s : State) :
    (r.set (v &&& r.implemented) s).memory = s.memory ∧ (r.set (v &&& r.implemented) s).running = s.running ∧
    (r.set (v &&& r.implemented) s).status = s.status ∧ (r.set (v &&& r.implemented) s).platform = s.platform ∧
    ((r.set (v &&& r.implemented) s).param = s.param ∨ (r.set (v &&& r.implemented) s).param = v &&& paramMask) := by
  cases r <;> simp [Reg.set, Reg.implemented]

theorem set_keeps_inv {s : State} (r : Reg) (v : Word64) (hs : Inv s) (hidle : s.busy = false) :
    Inv (r.set (v &&& r.implemented) s) := by
  have hnone : s.running = none := by simpa [State.busy] using hidle
  obtain ⟨hmem, hrun, hst, hpl, hparam⟩ := set_frame r v s
  refine inv_of_idle (hrun.trans hnone) (hmem ▸ hs.canonical) ?_ ?_ (hst ▸ hs.status)
  · rw [hmem, hpl]
    exact hs.within
  · rcases hparam with hkept | hset
    · rw [hkept]
      exact hs.paramReserved
    · rw [hset, BitVec.and_assoc]
      simp

theorem writeReg_keeps_inv {a : Access} {d : Word64} {s : State} (hs : Inv s) : Inv (writeReg a d s) := by
  rcases writeReg_cases a d s with ⟨v, h⟩ | h | ⟨-, h⟩ | ⟨-, h⟩ | ⟨hidle, v, h⟩ <;> rw [h]
  · exact inv_of_unread hs rfl
  · exact inv_of_unread hs rfl
  · exact hs
  · exact inv_of_unread hs rfl
  · exact set_keeps_inv a.reg v hs hidle

theorem hostWrite_keeps_inv {addr data : Word64} {size : Nat} {s t : State} (hs : Inv s)
    (h : hostWrite presentWord addr size data s = .next t) : Inv t := by
  have hanswered (resp : Response) : Inv { s with response := resp } := inv_of_unread hs rfl
  rcases hostWrite_cases h with ⟨resp, hn⟩ | ⟨w, -, hw⟩ | ⟨a, d, hn, -⟩
  · obtain rfl := Host.Outcome.next.inj hn
    exact hanswered resp
  · exact presentWord_keeps_inv (hanswered _) hw.symm
  · obtain rfl := Host.Outcome.next.inj hn
    exact writeReg_keeps_inv (hanswered _)

theorem writeWithEngine_keeps_inv {addr data : Word64} {size : Nat} {s t : State} (hs : Inv s)
    (h : writeWithEngine addr size data s = .next t) : Inv t := by
  unfold writeWithEngine at h
  split at h
  · next u hu =>
    have hinv := hostWrite_keeps_inv hs hu
    split at h
    · exact engineStep_keeps_inv hinv h
    · exact Host.Outcome.next.inj h ▸ hinv
  · cases h
  · cases h

theorem hostDmaRead_keeps_inv {addr : Word64} {s t : State} (hs : Inv s) (h : hostDmaRead addr s = .next t) : Inv t := by
  unfold hostDmaRead at h
  split at h
  · cases h
  · obtain rfl := Host.Outcome.next.inj h
    exact inv_of_unread hs rfl

theorem hostDmaWrite_keeps_inv {addr : Word64} {v : Byte} {s t : State} (hs : Inv s) (h : hostDmaWrite addr v s = .next t) :
    Inv t := by
  unfold hostDmaWrite at h
  split at h
  · cases h
  · next hlt =>
    obtain rfl := Host.Outcome.next.inj h
    refine ⟨writeByte_wf _ _ hs.canonical, writeByte_within hs.within (Nat.lt_of_not_le hlt), hs.paramReserved, hs.status,
      fun r' hr' => ?_⟩
    obtain ⟨r, hr, rfl⟩ := Option.map_eq_some_iff.mp hr'
    obtain ⟨hruns, haccepted, hverify⟩ := hs.running r hr
    exact ⟨hruns, (acceptanceError_congr r.cmd (s := s) rfl rfl rfl rfl rfl rfl rfl).trans haccepted, hverify⟩

/-- An abandoned command leaves the DMA space as it is, or spoils its OUT range, which fits. -/
theorem abandonOut_cases (s : State) :
    abandonOut s = s ∨ ∃ r, s.running = some r ∧ writesOut r.cmd = true ∧ abandonOut s = spoilOut s := by
  unfold abandonOut
  split
  · exact Or.inl rfl
  · next r hr =>
    split
    · next hw => exact Or.inr ⟨r, hr, hw, rfl⟩
    · exact Or.inl rfl

theorem reset_status_sound : State.reset.status.sound := okStatus_sound false

theorem reset_paramReserved : State.reset.param &&& ~~~paramMask = 0 := by decide

/-- Settles O40: the DMA space is empty, and the reset values of PARAM and STATUS are sound (R49). -/
theorem invariantHoldsAtReset : Obligations.InvariantHoldsAtReset :=
  inv_of_idle rfl wf_nil (by simp [State.reset, withinDmaSpace]) reset_paramReserved reset_status_sound

theorem resetEngine_keeps_inv {s : State} (hs : Inv s) : Inv (resetEngine s) := by
  have hmem : Memory.wf (abandonOut s).memory ∧ withinDmaSpace (abandonOut s).memory s.platform.addrW.val := by
    rcases abandonOut_cases s with h | ⟨r, hr, hw, h⟩ <;> rw [h]
    · exact ⟨hs.canonical, hs.within⟩
    · obtain ⟨-, haccepted, -⟩ := hs.running r hr
      exact ⟨spoilOut_wf hs.canonical, spoilOut_within (outBuf_fits_of_accepted hw haccepted) hs.within⟩
  exact inv_of_idle rfl hmem.1 hmem.2 reset_paramReserved reset_status_sound

theorem act_keeps_inv {e : Input} {s t : State} (hs : Inv s) (h : act e s = .next t) : Inv t := by
  cases e with
  | read addr size =>
    obtain rfl := Host.Outcome.next.inj h
    obtain ⟨resp, hread⟩ := hostRead_eq addr size s
    rw [hread]
    exact inv_of_unread hs rfl
  | write => exact hostWrite_keeps_inv hs h
  | writeWithEngine => exact writeWithEngine_keeps_inv hs h
  | dmaRead => exact hostDmaRead_keeps_inv hs h
  | dmaWrite => exact hostDmaWrite_keeps_inv hs h
  | engine => exact engineStep_keeps_inv hs h
  | rst =>
    obtain rfl := Host.Outcome.next.inj h
    exact resetEngine_keeps_inv hs

/-- Settles O41: a step is a step of the engine or the next action, and each keeps the invariant. -/
theorem stepKeepsInvariant : Obligations.StepKeepsInvariant := by
  intro s t hs h
  cases hin : s.inputs with
  | nil => exact engineStep_keeps_inv hs (step_nil hin ▸ h)
  | cons e rest =>
    rw [step_cons hin] at h
    exact act_keeps_inv (inv_of_unread (t := { s with inputs := rest }) hs rfl) h

end Sys2Proof.Machine
end

section
/-!
PROOFS. What all commands have in common: their acceptance (R179, R181), the flags of a completion (R184), and what no command changes.
-/

namespace Sys2Proof.Machine

/-! ### The overlap test (R71) -/

/-- Settles O21: two ranges that share a byte share the larger of their start addresses. -/
theorem sharedByteTest : Obligations.SharedByteTest := by
  intro b c
  simp only [Buffer.sharesByte, Buffer.has, decide_eq_true_eq]
  constructor
  · rintro ⟨hb, hc, hbc, hcb⟩
    exact ⟨max b.start c.start, by omega, by omega⟩
  · rintro ⟨a, hab, hac⟩
    omega

theorem sharesByte_eq_false_iff_apart {b c : Buffer} : b.sharesByte c = false ↔ apart b c := by
  rw [← Bool.not_eq_true, sharedByteTest b c, apart, not_exists]

/-! ### Acceptance -/

/-- Settles O20. -/
theorem acceptanceMakesTheEngineBusy : Obligations.AcceptanceMakesTheEngineBusy := by
  rintro s i hidle ⟨hnop, hsetinst, hclear⟩ haccepted
  have hruns : runsAfterAcceptance i = true := by
    cases i with
    | nop => exact absurd rfl hnop
    | setinst inst => exact absurd rfl (hsetinst inst)
    | clear => exact absurd rfl hclear
    | perm | rk | enc | mac | aeadEnc | aeadDec => rfl
  exact ⟨_, exec_of_accepted hruns hidle haccepted, rfl, rfl, rfl⟩

/-! ### The flags of a completion -/

/-- Only a command with a plan can verify a tag, and only AEAD_DEC's plan does, with a matching tag (R168, R184). -/
theorem runningPlan_verify {r : Running} {s : State} {p : Plan} (hp : runningPlan r s = some p) (hv : p.verify = true) :
    r.cmd = .aeadDec ∧ s.tag.toList = macPhaseTag r s := by
  cases hc : r.cmd with
  | nop | perm | rk | setinst | clear => simp [runningPlan, hc] at hp
  | enc =>
    obtain rfl := Option.some.inj ((runningPlan_enc hc).symm.trans hp)
    cases hv
  | mac =>
    obtain rfl := Option.some.inj ((runningPlan_mac hc).symm.trans hp)
    cases hv
  | aeadEnc =>
    obtain rfl := Option.some.inj ((runningPlan_aeadEnc hc).symm.trans hp)
    cases hv
  | aeadDec =>
    obtain rfl := Option.some.inj ((runningPlan_aeadDec hc).symm.trans hp)
    rcases aeadDecPlan_cases r s with ⟨-, ht⟩ | ⟨-, hfalse⟩
    · exact ⟨rfl, ht⟩
    · simp [hfalse] at hv

/-- STATUS says either that there was no error, or which one there was (R184). -/
def statusOfCompletion (st : Status) : Prop :=
  (st.err = false ∧ st.errcode = 0x00) ∨ (st.err = true ∧ st.verify = false ∧ ∃ e : ErrorCode, st.errcode = e.code)

theorem statusOfCompletion_okStatus (verify : Bool) : statusOfCompletion (okStatus verify) := Or.inl ⟨rfl, rfl⟩

theorem statusOfCompletion_errorStatus (e : ErrorCode) : statusOfCompletion (errorStatus e) := Or.inr ⟨rfl, rfl, e, rfl⟩

/-- A DMA command that becomes IDLE has completed, normally or with ERR_BUS (R184, R190). -/
theorem finish_flags {p : Plan} {r : Running} {s : State} (h : (finish p r s).running = none) :
    (finish p r s).intStat = s.intStat ||| intDone ∧ statusOfCompletion (finish p r s).status ∧
    ((finish p r s).status.verify = true → p.verify = true) := by
  rcases finish_cases p r s with ⟨-, hf⟩ | ⟨-, -, hf⟩ | ⟨-, -, hf⟩ | ⟨-, hf⟩ <;> rw [hf] at h ⊢
  · exact ⟨by simp, statusOfCompletion_okStatus _, fun hv => hv⟩
  · exact ⟨by simp, statusOfCompletion_errorStatus _, fun hv => by cases hv⟩
  · exact ⟨by simp, statusOfCompletion_errorStatus _, fun hv => by cases hv⟩
  · cases h

/-- Settles O23, by the completion of each kind of command. -/
theorem completionWritesFlags : Obligations.CompletionWritesFlags := by
  intro i s t h hidle
  cases execResult_of_exec h with
  | nop | setinst | clear | perm | rk => exact ⟨rfl, statusOfCompletion_okStatus _, fun hv => by cases hv⟩
  | refused e => exact ⟨rfl, statusOfCompletion_errorStatus e, fun hv => by cases hv⟩
  | accepted => cases hidle
  | ignored r hr | hung r hr => simp [hr] at hidle
  | dma r p hr hc _ hp =>
    obtain ⟨hdone, hstatus, hverify⟩ := finish_flags hidle
    refine ⟨hdone, hstatus, fun hv => ?_⟩
    obtain ⟨hdec, htag⟩ := runningPlan_verify hp (hverify hv)
    exact ⟨hc.symm.trans hdec, r, hr, htag⟩

/-! ### What no command changes -/

theorem writesOut_iff (i : Instr) : writesOut i = true ↔ i = .enc ∨ i = .aeadEnc ∨ i = .aeadDec := by
  cases i <;> simp [writesOut]

/-- The completion step of a DMA command changes at most the OUT range, and nothing if the command writes no OUT byte (R67). -/
theorem readByte_finish_frame {p : Plan} {r : Running} {s : State} {a : Nat} (hw : Memory.wf s.memory)
    (hout : ∀ bytes, p.out = some bytes → bytes.length = s.inLen.toNat ∧ s.outBuf.has a = false) :
    readByte (finish p r s).memory a = readByte s.memory a := by
  rcases finish_cases p r s with ⟨-, hf⟩ | ⟨-, -, hf⟩ | ⟨-, ho, hf⟩ | ⟨-, hf⟩ <;> rw [hf]
  · rw [complete_memory, zeroizeWork_memory, storeTag_memory]
    cases hp : p.out with
    | none => rfl
    | some bytes =>
      obtain ⟨hlen, ha⟩ := hout bytes hp
      rw [outBuf_has_eq_false_iff, ← hlen] at ha
      rw [storeOut_some_memory, readByte_engineWrite_frame _ hw _ _ _ _ ha]
  · rfl
  · obtain ⟨bytes, hbytes⟩ := Option.ne_none_iff_exists'.mp ho
    exact readByte_spoilOut_frame hw (hout bytes hbytes).2

/-- Settles O25: only a completion step with an OUT buffer touches the DMA space. -/
theorem commandsWriteOnlyOut : Obligations.CommandsWriteOnlyOut := by
  intro i s t a hw h hia
  cases execResult_of_exec h with
  | nop | setinst | clear | refused | accepted | ignored | hung | perm | rk => rfl
  | dma r p hr hc _ hp =>
    refine readByte_finish_frame hw fun bytes ho => ?_
    obtain ⟨hwrites, hlen⟩ := runningPlan_out hp ho
    refine ⟨hlen, outBuf_has_eq_false_iff.mpr ?_⟩
    rw [hc, writesOut_iff] at hwrites
    rcases hia with ⟨henc, haeadEnc, haeadDec⟩ | hbelow | habove
    · simp [henc, haeadEnc, haeadDec] at hwrites
    · omega
    · omega

/-- Only MAC and AEAD_ENC write TAG (R38, R170). -/
theorem runningPlan_tag {r : Running} {s : State} {p : Plan} (hp : runningPlan r s = some p) (hmac : r.cmd ≠ .mac)
    (henc : r.cmd ≠ .aeadEnc) : p.tag = none := by
  cases hc : r.cmd with
  | nop | perm | rk | setinst | clear => simp [runningPlan, hc] at hp
  | mac => exact absurd hc hmac
  | aeadEnc => exact absurd hc henc
  | enc =>
    obtain rfl := Option.some.inj ((runningPlan_enc hc).symm.trans hp)
    rfl
  | aeadDec =>
    obtain rfl := Option.some.inj ((runningPlan_aeadDec hc).symm.trans hp)
    by_cases hd : dmaEnd s.platform (macPhaseAddrs s) = .done
    · by_cases ht : s.tag.toList = macPhaseTag r s
      · rw [aeadDecPlan_of_match hd ht]
      · rw [aeadDecPlan_of_differ hd ht]
    · rw [aeadDecPlan_of_failure hd]

theorem finish_tag {p : Plan} {s : State} (h : p.tag = none) (r : Running) : (finish p r s).tag = s.tag := by
  rcases finish_cases p r s with ⟨-, hf⟩ | ⟨-, -, hf⟩ | ⟨-, -, hf⟩ | ⟨-, hf⟩ <;> simp [hf, h]

/-- A command with a plan is one of the four that use DMA. -/
theorem usesDma_of_runningPlan {r : Running} {s : State} {p : Plan} (hp : runningPlan r s = some p) :
    r.cmd = .enc ∨ r.cmd = .mac ∨ r.cmd = .aeadEnc ∨ r.cmd = .aeadDec := by
  cases hc : r.cmd with
  | nop | perm | rk | setinst | clear => simp [runningPlan, hc] at hp
  | enc | mac | aeadEnc | aeadDec => simp

/-- Settles O26, by the result of each kind of command. -/
theorem registerFrameOfCommands : Obligations.RegisterFrameOfCommands := by
  intro i s t h
  cases execResult_of_exec h with
  | nop | setinst | clear | refused | accepted | ignored | hung | perm | rk => simp_all
  | dma r p hr hc _ hp =>
    obtain ⟨hplatform, hparam, hintEn, hadAddr, hadLen, hinAddr, hinLen, houtAddr, hkey, hnonce, hy, hinputs, hresponse⟩ :=
      finish_keeps p r s
    have huses := usesDma_of_runningPlan hp
    rw [hc] at huses
    refine ⟨hplatform, hintEn, hadAddr, hadLen, hinAddr, hinLen, houtAddr, hinputs, hresponse, fun _ => ⟨hkey, hnonce, hy⟩,
      fun _ => hparam, fun _ hmac henc => finish_tag (runningPlan_tag hp (hc ▸ hmac) (hc ▸ henc)) r, fun hi => ?_, fun hi => ?_⟩
    · rcases hi with rfl | ⟨n, rfl⟩ | ⟨inst, rfl⟩ <;> simp at huses
    · rcases hi with rfl | ⟨inst, rfl⟩ <;> simp at huses

end Sys2Proof.Machine
end

section
/-!
PROOFS. The acceptance checks of the commands with buffers, and what the completion step of a DMA command leaves, raced by a host or not.
-/

namespace Sys2Proof.Machine

/-! ### The checks of a command with buffers (R181) -/

/-- The checks in R181's order: the rounds, then the buffers that have to fit, then those that OUT may share no byte with. -/
def bufferChecks (ranges overlaps : List Buffer) (s : State) : List (Option ErrorCode) :=
  checkRounds s :: (ranges.map (fun b => checkRange b s) ++ overlaps.map (checkDisjoint s.outBuf))

theorem firstError_append (l l' : List (Option ErrorCode)) : firstError (l ++ l') = (firstError l).or (firstError l') := by
  induction l with
  | nil => simp
  | cons c l ih => cases c <;> simp [ih]

/-- Checks of one kind pass together, or report that kind's error. -/
theorem firstError_map {α : Type} {f : α → Option ErrorCode} {P : α → Prop} {e : ErrorCode} (hpass : ∀ b, P b → f b = none)
    (hfail : ∀ b, ¬P b → f b = some e) (l : List α) :
    ((∀ b ∈ l, P b) → firstError (l.map f) = none) ∧ ((¬∀ b ∈ l, P b) → firstError (l.map f) = some e) := by
  induction l with
  | nil => simp
  | cons b l ih =>
    by_cases hb : P b
    · simpa [hpass b hb, hb] using ih
    · simp [hfail b hb, hb]

theorem checkRange_of_not_fits {b : Buffer} {s : State} (h : ¬fits b s) : checkRange b s = some .range := if_neg h

theorem checkDisjoint_of_not_apart {b c : Buffer} (h : ¬apart b c) : checkDisjoint b c = some .overlap := by
  rw [← sharesByte_eq_false_iff_apart, Bool.not_eq_false] at h
  exact if_pos h

theorem firstError_ranges (ranges : List Buffer) (s : State) :
    ((∀ b ∈ ranges, fits b s) → firstError (ranges.map fun b => checkRange b s) = none) ∧
    ((¬∀ b ∈ ranges, fits b s) → firstError (ranges.map fun b => checkRange b s) = some .range) :=
  firstError_map (fun _ => checkRange_eq_none.mpr) (fun _ => checkRange_of_not_fits) ranges

theorem firstError_overlaps (out : Buffer) (overlaps : List Buffer) :
    ((∀ b ∈ overlaps, apart out b) → firstError (overlaps.map (checkDisjoint out)) = none) ∧
    ((¬∀ b ∈ overlaps, apart out b) → firstError (overlaps.map (checkDisjoint out)) = some .overlap) :=
  firstError_map (fun _ h => checkDisjoint_eq_none.mpr (sharesByte_eq_false_iff_apart.mpr h)) (fun _ => checkDisjoint_of_not_apart)
    overlaps

/-- The first kind of check that fails is reported; a command that passes all of them becomes the running one. -/
theorem exec_of_bufferChecks {i : Instr} {ranges overlaps : List Buffer} {s : State} (hidle : s.running = none)
    (hi : runsAfterAcceptance i = true) (hchecks : acceptanceError i s = firstError (bufferChecks ranges overlaps s)) :
    (s.params.legal = false → exec i s = .next (rejectedState 0x02 s)) ∧
    (s.params.legal = true → (¬∀ b ∈ ranges, fits b s) → exec i s = .next (rejectedState 0x03 s)) ∧
    (s.params.legal = true → (∀ b ∈ ranges, fits b s) → (¬∀ b ∈ overlaps, apart s.outBuf b) →
      exec i s = .next (rejectedState 0x04 s)) ∧
    (s.params.legal = true → (∀ b ∈ ranges, fits b s) → (∀ b ∈ overlaps, apart s.outBuf b) →
      exec i s = .next (acceptedState i s)) := by
  obtain ⟨hfit, hunfit⟩ := firstError_ranges ranges s
  obtain ⟨hapart, hoverlap⟩ := firstError_overlaps s.outBuf overlaps
  have hrejected {e : ErrorCode} (h : firstError (bufferChecks ranges overlaps s) = some e) :
      exec i s = .next (rejectedState e.code s) :=
    (exec_eq_rejectedState_iff hi hidle e).mpr (hchecks.trans h)
  refine ⟨fun hl => hrejected (e := .rounds) ?_, fun hl hr => hrejected (e := .range) ?_,
    fun hl hr ho => hrejected (e := .overlap) ?_, fun hl hr ho => ?_⟩
  · rw [bufferChecks, checkRounds_eq_some_rounds.mpr (by simp [hl]), firstError_some]
  · rw [bufferChecks, checkRounds_eq_none.mpr hl, firstError_none, firstError_append, hunfit hr, Option.some_or]
  · rw [bufferChecks, checkRounds_eq_none.mpr hl, firstError_none, firstError_append, hfit hr, hoverlap ho, Option.none_or]
  · refine exec_of_accepted hi hidle (hchecks.trans ?_)
    rw [bufferChecks, checkRounds_eq_none.mpr hl, firstError_none, firstError_append, hfit hr, hapart ho, Option.none_or]

/-! ### The completion step of a DMA command whose transactions are all answered well -/

/-- What every completion without an error makes of the registers (R183, R184). -/
def completedState (verify : Bool) (s : State) : State :=
  { s with
    permState := Vector.replicate 50 0
    subkey := Vector.replicate 34 0
    running := none
    status := { err := false, verify := verify, errcode := 0x00 }
    intStat := s.intStat ||| 0b01 }

theorem finish_of_done {p : Plan} (hd : p.dma = .done) (r : Running) (s : State) :
    finish p r s = { completedState p.verify s with
      memory := (storeOut r p.out s).memory, draws := (storeOut r p.out s).draws, tag := p.tag.getD s.tag } := by
  rcases p with ⟨dma, out, tag, verify⟩
  subst hd
  cases out <;> cases tag <;> rfl

/-- Without a race no choice is drawn (R176). -/
theorem storeOut_draws_of_unraced {r : Running} (h : r.raced = []) (out : Option Bytes) (s : State) :
    (storeOut r out s).draws = s.draws := by
  cases out with
  | none => rfl
  | some bytes => rw [storeOut_some_draws, h, engineWrite_unraced]

theorem finish_of_done_unraced {p : Plan} {r : Running} (hd : p.dma = .done) (h : r.raced = []) (s : State) :
    finish p r s = { completedState p.verify s with memory := (storeOut r p.out s).memory, tag := p.tag.getD s.tag } := by
  rw [finish_of_done hd, storeOut_draws_of_unraced h]
  rfl

/-! ### What OUT holds after it (R218) -/

/-- A byte that the engine writes holds the engine's value, or the host's if a host wrote it. -/
theorem readByte_engineWrite (raced : List Host.Cell) {m : Memory} (hw : Memory.wf m) (a : Nat) (x : Bytes) (d : Nat) {k : Nat}
    (hk : k < x.length) :
    readByte (engineWrite raced m a x d).1 (a + k) = x.getD k 0 ∨
      (heldBefore raced (a + k) ≠ [] ∧ readByte (engineWrite raced m a x d).1 (a + k) = readByte m (a + k)) := by
  induction x generalizing m a d k with
  | nil => simp at hk
  | cons b x ih =>
    rw [engineWrite]
    cases k with
    | zero =>
      simp only [Nat.add_zero, List.getD_cons_zero]
      rw [readByte_engineWrite_frame raced (writeByte_wf _ _ hw) _ _ _ _ (by omega), readByte_writeByte hw, if_pos rfl]
      by_cases hheld : heldBefore raced a = []
      · rw [if_pos hheld]
        exact Or.inl rfl
      · rw [if_neg hheld]
        have hpick : (pick b [readByte m a] d).1 = b ∨ (pick b [readByte m a] d).1 = readByte m a := by
          simpa using pick_mem b [readByte m a] d
        exact hpick.imp_right fun h => ⟨hheld, h⟩
    | succ k =>
      have hnext : a + (k + 1) = a + 1 + k := by omega
      have hrest := ih (writeByte_wf a (if heldBefore raced a = [] then (b, d) else pick b [readByte m a] d).1 hw) (a + 1)
        (if heldBefore raced a = [] then (b, d) else pick b [readByte m a] d).2 (Nat.lt_of_succ_lt_succ hk)
      rw [readByte_writeByte hw, if_neg (by omega : a + 1 + k ≠ a)] at hrest
      rwa [hnext, List.getD_cons_succ]

theorem outBuf_has_iff {s : State} {a : Nat} : s.outBuf.has a = true ↔ s.outAddr.toNat ≤ a ∧ a < s.outAddr.toNat + s.inLen.toNat :=
  decide_eq_true_iff

theorem outHoldsRaced_storeOut {r : Running} {s t : State} {bytes : Bytes} (hw : Memory.wf s.memory)
    (hlen : bytes.length = s.inLen.toNat) (hm : t.memory = (storeOut r (some bytes) s).memory) : outHoldsRaced r s t bytes := by
  intro a
  rw [hm, storeOut_some_memory]
  by_cases ha : s.outBuf.has a = true
  · rw [if_pos ha]
    obtain ⟨hlo, hhi⟩ := outBuf_has_iff.mp ha
    have hplace : s.outAddr.toNat + (a - s.outAddr.toNat) = a := by omega
    have hbyte := readByte_engineWrite r.raced hw s.outAddr.toNat bytes s.draws (k := a - s.outAddr.toNat) (by omega)
    rwa [hplace] at hbyte
  · rw [if_neg ha]
    rw [outBuf_has_iff, ← hlen] at ha
    exact readByte_engineWrite_frame _ hw _ _ _ _ ha

/-- Without a race OUT holds what the engine wrote (R69, R176). -/
theorem outHolds_of_unraced {r : Running} {s t : State} {bytes : Bytes} (h : r.raced = []) (hraced : outHoldsRaced r s t bytes) :
    outHolds s t bytes := by
  intro a
  have ha := hraced a
  rw [h, heldBefore_nil] at ha
  split at ha
  · next hin =>
    rw [if_pos hin]
    exact ha.resolve_right fun hheld => hheld.1 rfl
  · next hnotin => rwa [if_neg hnotin]

theorem outHolds_storeOut {r : Running} {s t : State} {bytes : Bytes} (h : r.raced = []) (hw : Memory.wf s.memory)
    (hlen : bytes.length = s.inLen.toNat) (hm : t.memory = (storeOut r (some bytes) s).memory) : outHolds s t bytes :=
  outHolds_of_unraced h (outHoldsRaced_storeOut hw hlen hm)

/-! ### What the engine read -/

theorem engineRead_inBuf_unraced {r : Running} (h : r.raced = []) (s : State) (j : Nat) :
    engineRead r s.memory s.inBuf.start s.inBuf.len j = inBytes s :=
  engineRead_unraced h _ _ _ _

theorem engineRead_adBuf_unraced {r : Running} (h : r.raced = []) (s : State) (j : Nat) :
    engineRead r s.memory s.adBuf.start s.adBuf.len j = adBytes s :=
  engineRead_unraced h _ _ _ _

theorem macPhaseTag_unraced {r : Running} (h : r.raced = []) (s : State) :
    macPhaseTag r s = isapMac s.params s.key.toList s.nonce.toList (adBytes s) (inBytes s) := by
  rw [macPhaseTag, engineRead_adBuf_unraced h, engineRead_inBuf_unraced h]

/-- ENC of what the engine read of IN fills OUT (R35, R140). -/
theorem isapEnc_engineRead_length (r : Running) (s : State) (j : Nat) :
    (isapEnc s.params s.key.toList s.nonce.toList (engineRead r s.memory s.inBuf.start s.inBuf.len j)).length = s.inLen.toNat := by
  rw [isapEnc_length, engineRead_length]
  rfl

theorem isapEnc_inBytes_length (s : State) :
    (isapEnc s.params s.key.toList s.nonce.toList (inBytes s)).length = s.inLen.toNat := by
  rw [isapEnc_length, inBytes, readBytes_length]
  rfl

/-- BUSY with a command and no hazard since its acceptance (R176). -/
theorem exists_unraced_of_busyWith {i : Instr} {s : State} (h : busyWith i s) :
    ∃ r, s.running = some r ∧ r.cmd = i ∧ r.hung = false ∧ r.raced = [] := by
  obtain ⟨ticket, hr⟩ := h
  exact ⟨_, hr, rfl, rfl, rfl⟩

/-! ### ERR_BUS -/

/-- Without OUT bytes to write, a bus error leaves the DMA space as it is (R194). -/
theorem finish_of_busError_unwritten {p : Plan} (hd : p.dma = .error) (ho : p.out = none) (r : Running) (s : State) :
    finish p r s = busErrorState s := by
  simp only [finish, hd, ho]
  rfl

/-- A running DMA command that meets a bus error changes no byte outside OUT (R193, R194). -/
theorem exec_of_busError {s : State} {r : Running} {p : Plan} (hr : s.running = some r) (hh : r.hung = false)
    (hp : runningPlan r s = some p) (hd : p.dma = .error) :
    ∃ t, exec r.cmd s = .next t ∧ t = { busErrorState s with memory := t.memory, draws := t.draws } ∧
      (Memory.wf s.memory → ∀ a, s.outBuf.has a = false → readByte t.memory a = readByte s.memory a) := by
  obtain ⟨m, d, hf, -, hframe⟩ := finish_of_busError hd r s
  exact ⟨{ busErrorState s with memory := m, draws := d }, by rw [exec_runningPlan hr hh hp, hf], rfl, hframe⟩

end Sys2Proof.Machine
end

section
/-!
PROOFS. PERM and RK (R115, R133).
-/

namespace Sys2Proof.Machine

/-- Byte `k` of STATE after PERM (R115). -/
theorem permResult_getElem (perm : PermSel) (n : Nat) (st : Vector Byte 50) (k : Nat) (hk : k < 50) :
    (permResult perm n st)[k] =
      if k < stateBytes perm then (permute perm (st.toList.take (stateBytes perm)) n).getD k 0 else st[k] := by
  rw [permResult, toReg_getElem]
  split
  · next hlow => rw [List.getD_append _ _ _ _ (by rwa [permute_length])]
  · next hhigh =>
    have hpast : stateBytes perm + (k - stateBytes perm) = k := by omega
    rw [List.getD_append_right _ _ _ _ (by rw [permute_length]; omega), permute_length]
    simp [hpast, hk]

theorem checkPermRounds_eq_rounds {n : Nat} {s : State} (h : n = 0 ∨ rmax s.params.perm < n) :
    checkPermRounds n s = some .rounds := by
  have hillegal : legalRounds s.params.perm n = false := by
    rw [← Bool.not_eq_true, legalRounds_iff]
    omega
  simp [checkPermRounds, hillegal]

/-- Settles O12. -/
theorem permRuns : Obligations.PermRuns := by
  refine ⟨fun w => decodeWord_eq_withFields_iff w (.perm 0), fun s n hidle => ⟨fun hlegal => ?_, fun hillegal => ?_⟩,
    fun s r n hr hc hh => ⟨_, (exec_perm n s).trans (runPhases_complete hr hc hh), rfl, permResult_getElem _ _ _⟩⟩
  · exact exec_of_accepted rfl hidle (checkPermRounds_eq_none.mpr hlegal)
  · exact (exec_eq_rejectedState_iff (i := .perm n) rfl hidle .rounds).mpr (checkPermRounds_eq_rounds hillegal)

/-- Rk gives no more than z bytes (R132). -/
theorem isapRk_length_le (ps : Params) (k y : Bytes) (mode : RkMode) : (isapRk ps k y mode).length ≤ rkBytes ps.perm mode := by
  rw [isapRk]
  exact List.length_take_le _ _

/-- SUBKEY after RK: the output of Rk, then zero bytes (R133). -/
theorem toReg_isapRk_getElem (ps : Params) (key y : Bytes) (mode : RkMode) (k : Nat) (hk : k < 34) :
    (toReg 34 (isapRk ps key y mode))[k] = if k < rkBytes ps.perm mode then (isapRk ps key y mode).getD k 0 else 0 := by
  rw [toReg_getElem]
  split
  · rfl
  · next hpast => exact List.getD_eq_default _ _ (Nat.le_trans (isapRk_length_le ps key y mode) (Nat.le_of_not_lt hpast))

/-- Settles O13. -/
theorem rkRuns : Obligations.RkRuns := by
  refine ⟨fun w => decodeWord_eq_withFields_iff w (.rk .enc), fun s mode hidle => ⟨fun hlegal => ?_, fun hillegal => ?_⟩,
    fun s r mode hr hc hh => ⟨_, (exec_rk mode s).trans (runPhases_complete hr hc hh), rfl, toReg_isapRk_getElem _ _ _ _⟩⟩
  · exact exec_of_accepted rfl hidle (checkRounds_eq_none.mpr hlegal)
  · exact (exec_eq_rejectedState_iff (i := .rk mode) rfl hidle .rounds).mpr (checkRounds_eq_some_rounds.mpr (by simp [hillegal]))

end Sys2Proof.Machine
end

section
/-!
PROOFS. ENC, MAC, AEAD_ENC and AEAD_DEC, from their words to their completion (R142, R155, R166, R168).
-/

namespace Sys2Proof.Machine

theorem decodeWord_eq_iff_of_allOnes {i : Instr} (hm : rowMask i = BitVec.allOnes 32) (hi : ∀ w, i.withFields w = i) (w : Word32) :
    decodeWord w = .ok i ↔ w = rowMatch i := by
  rw [← row_iff_of_allOnes hm, ← decodeWord_eq_withFields_iff, hi]

/-! ### ENC -/

theorem exec_enc_of_done {s : State} {r : Running} (hr : s.running = some r) (hc : r.cmd = .enc) (hh : r.hung = false)
    (hd : answersWell s (encPhaseAddrs s)) : exec .enc s = .next (finish (encPlan r s) r s) ∧ (encPlan r s).dma = .done :=
  ⟨hc ▸ exec_runningPlan hr hh (runningPlan_enc hc), dmaEnd_eq_done.mpr hd⟩

/-- Settles O14. -/
theorem encRuns : Obligations.EncRuns := by
  refine ⟨decodeWord_eq_iff_of_allOnes rfl fun _ => rfl, fun s hidle => ?_, fun s hbusy hd hw => ?_, fun s hbusy hd => ?_⟩
  · simpa [List.forall_mem_cons] using
      exec_of_bufferChecks (i := .enc) (ranges := [s.inBuf, s.outBuf]) (overlaps := [s.inBuf]) hidle rfl rfl
  · obtain ⟨r, hr, hc, hh, hu⟩ := exists_unraced_of_busyWith hbusy
    obtain ⟨hexec, hdone⟩ := exec_enc_of_done hr hc hh hd
    rw [finish_of_done_unraced hdone hu, encPlan, engineRead_inBuf_unraced hu] at hexec
    exact ⟨_, hexec, rfl, outHolds_storeOut hu hw (isapEnc_inBytes_length s) rfl⟩
  · obtain ⟨r, hr, hc, hh, hu⟩ := exists_unraced_of_busyWith hbusy
    exact hc ▸ exec_of_busError hr hh (runningPlan_enc hc) hd

/-! ### MAC -/

/-- MAC, raced or not, writes the tag of what it read (R155, R216). -/
theorem mac_completes {s : State} {r : Running} (hr : s.running = some r) (hc : r.cmd = .mac) (hh : r.hung = false)
    (hd : answersWell s (macPhaseAddrs s)) :
    ∃ t, exec .mac s = .next t ∧ t = { completedState false s with tag := t.tag } ∧ t.tag.toList = macPhaseTag r s := by
  have hexec : exec .mac s = .next (finish (macPlan r s) r s) := hc ▸ exec_runningPlan hr hh (runningPlan_mac hc)
  have hdone : (macPlan r s).dma = .done := dmaEnd_eq_done.mpr hd
  rw [finish_of_done hdone] at hexec
  exact ⟨_, hexec, rfl, toReg_toList (isapMac_length _ _ _ _ _)⟩

/-- Settles O15. -/
theorem macRuns : Obligations.MacRuns := by
  refine ⟨decodeWord_eq_iff_of_allOnes rfl fun _ => rfl, fun s hidle => ?_, fun s hbusy hd => ?_, fun s hbusy hd => ?_⟩
  · simpa [List.forall_mem_cons] using
      exec_of_bufferChecks (i := .mac) (ranges := [s.inBuf, s.adBuf]) (overlaps := []) hidle rfl rfl
  · obtain ⟨r, hr, hc, hh, hu⟩ := exists_unraced_of_busyWith hbusy
    obtain ⟨t, hexec, ht, htag⟩ := mac_completes hr hc hh hd
    rw [macPhaseTag_unraced hu] at htag
    exact ⟨t, hexec, ht, htag⟩
  · obtain ⟨r, hr, hc, hh, hu⟩ := exists_unraced_of_busyWith hbusy
    rw [← finish_of_busError_unwritten (p := macPlan r s) hd rfl r]
    exact hc ▸ exec_runningPlan hr hh (runningPlan_mac hc)

/-! ### AEAD_ENC -/

theorem exec_aeadEnc_of_done {s : State} {r : Running} (hr : s.running = some r) (hc : r.cmd = .aeadEnc) (hh : r.hung = false)
    (hd : answersWell s (encPhaseAddrs s ++ s.adBuf.addrs)) :
    exec .aeadEnc s = .next (finish (aeadEncPlan r s) r s) ∧ (aeadEncPlan r s).dma = .done :=
  ⟨hc ▸ exec_runningPlan hr hh (runningPlan_aeadEnc hc), dmaEnd_eq_done.mpr hd⟩

/-- Settles O16. -/
theorem aeadEncRuns : Obligations.AeadEncRuns := by
  refine ⟨decodeWord_eq_iff_of_allOnes rfl fun _ => rfl, fun s hidle => ?_, fun s hbusy hd hw => ?_, fun s hbusy hd => ?_⟩
  · simpa [List.forall_mem_cons] using exec_of_bufferChecks (i := .aeadEnc) (ranges := [s.inBuf, s.adBuf, s.outBuf])
      (overlaps := [s.inBuf, s.adBuf]) hidle rfl rfl
  · obtain ⟨r, hr, hc, hh, hu⟩ := exists_unraced_of_busyWith hbusy
    obtain ⟨hexec, hdone⟩ := exec_aeadEnc_of_done hr hc hh hd
    rw [finish_of_done_unraced hdone hu, aeadEncPlan, engineRead_inBuf_unraced hu, engineRead_adBuf_unraced hu] at hexec
    exact ⟨_, hexec, rfl, outHolds_storeOut hu hw (isapEnc_inBytes_length s) rfl, toReg_toList (isapMac_length _ _ _ _ _)⟩
  · obtain ⟨r, hr, hc, hh, hu⟩ := exists_unraced_of_busyWith hbusy
    exact hc ▸ exec_of_busError hr hh (runningPlan_aeadEnc hc) hd

/-! ### AEAD_DEC -/

theorem exec_aeadDec_eq_finish {s : State} {r : Running} (hr : s.running = some r) (hc : r.cmd = .aeadDec) (hh : r.hung = false) :
    exec .aeadDec s = .next (finish (aeadDecPlan r s) r s) :=
  hc ▸ exec_runningPlan hr hh (runningPlan_aeadDec hc)

/-- A tag that differs, raced or not: nothing is written (R170). -/
theorem exec_aeadDec_of_differ {s : State} {r : Running} (hr : s.running = some r) (hc : r.cmd = .aeadDec) (hh : r.hung = false)
    (hd : answersWell s (macPhaseAddrs s)) (ht : s.tag.toList ≠ macPhaseTag r s) :
    exec .aeadDec s = .next (completedState false s) := by
  rw [exec_aeadDec_eq_finish hr hc hh, aeadDecPlan_of_differ (dmaEnd_eq_done.mpr hd) ht, finish_of_done rfl]
  rfl

/-- Settles O17. -/
theorem aeadDecRuns : Obligations.AeadDecRuns := by
  refine ⟨decodeWord_eq_iff_of_allOnes rfl fun _ => rfl, fun s hidle => ?_, fun s hbusy hmac => ⟨fun ht => ?_, fun ht => ?_⟩,
    fun s hbusy hd => ?_⟩
  · simpa [List.forall_mem_cons] using exec_of_bufferChecks (i := .aeadDec) (ranges := [s.inBuf, s.adBuf, s.outBuf])
      (overlaps := [s.inBuf, s.adBuf]) hidle rfl rfl
  · obtain ⟨r, hr, hc, hh, hu⟩ := exists_unraced_of_busyWith hbusy
    rw [← macPhaseTag_unraced hu] at ht
    have hplan := aeadDecPlan_of_match (dmaEnd_eq_done.mpr hmac) ht
    refine ⟨fun hd hw => ?_, fun hd => ?_⟩
    · have hexec := exec_aeadDec_eq_finish hr hc hh
      rw [hplan, finish_of_done_unraced (dmaEnd_eq_done.mpr hd) hu, engineRead_inBuf_unraced hu] at hexec
      exact ⟨_, hexec, rfl, outHolds_storeOut hu hw (isapEnc_inBytes_length s) rfl⟩
    · exact hc ▸ exec_of_busError hr hh (runningPlan_aeadDec hc) (by rwa [hplan])
  · obtain ⟨r, hr, hc, hh, hu⟩ := exists_unraced_of_busyWith hbusy
    rw [← macPhaseTag_unraced hu] at ht
    exact exec_aeadDec_of_differ hr hc hh hmac ht
  · obtain ⟨r, hr, hc, hh, hu⟩ := exists_unraced_of_busyWith hbusy
    have hplan := aeadDecPlan_of_failure (r := r) (s := s) (by simp [hd])
    rw [exec_aeadDec_eq_finish hr hc hh, hplan, finish_of_busError_unwritten hd rfl]

end Sys2Proof.Machine
end

section
/-!
PROOFS. The completion of a command that a host raced (R216, R218).
-/

namespace Sys2Proof.Machine

/-- Settles O46: the values a read can have are those at its moments, and MAC's tag is the tag of its reads. -/
theorem engineReadSeesHeldValues : Obligations.EngineReadSeesHeldValues := by
  refine ⟨fun r m a n j k hk => ?_, fun s r hr hc hh hd => mac_completes hr hc hh hd⟩
  rw [engineRead_getD r m a n j k hk]
  have hmem := heldAfter_mem (a + k) (readByte m (a + k)) r.raced (Config.readMoment r.ticket (j + k))
  refine ⟨hmem, fun hheld => ?_, rfl, fun v hv => ?_⟩
  · rw [hheld] at hmem
    exact List.mem_singleton.mp hmem
  · obtain ⟨n, -, hn⟩ := exists_heldAfter hv
    exact ⟨n, hn⟩

/-- Settles O49: each plan's OUT bytes are stored byte by byte, by `outHoldsRaced_storeOut`. -/
theorem outWriteRace : Obligations.OutWriteRace := by
  refine ⟨fun raced m a d k x hw hk => readByte_engineWrite raced hw a x d hk, fun s r hr hc hh hd hw => ?_,
    fun s r hr hc hh hd hw => ?_, fun s r hr hc hh hmac => ⟨fun ht hd hw => ?_, exec_aeadDec_of_differ hr hc hh hmac⟩⟩
  · obtain ⟨hexec, hdone⟩ := exec_enc_of_done hr hc hh hd
    rw [finish_of_done hdone] at hexec
    exact ⟨_, hexec, rfl, outHoldsRaced_storeOut hw (isapEnc_engineRead_length r s 0) rfl⟩
  · obtain ⟨hexec, hdone⟩ := exec_aeadEnc_of_done hr hc hh hd
    rw [finish_of_done hdone] at hexec
    exact ⟨_, hexec, rfl, outHoldsRaced_storeOut hw (isapEnc_engineRead_length r s 0) rfl, toReg_toList (isapMac_length _ _ _ _ _)⟩
  · have hexec := exec_aeadDec_eq_finish hr hc hh
    rw [aeadDecPlan_of_match (dmaEnd_eq_done.mpr hmac) ht, finish_of_done (dmaEnd_eq_done.mpr hd)] at hexec
    exact ⟨_, hexec, rfl, outHoldsRaced_storeOut hw (isapEnc_engineRead_length r s _) rfl⟩

end Sys2Proof.Machine
end

section
/-!
PROOFS. What R172 says of the AEAD: lengths, keystream independence, and the round trip.
-/

namespace Sys2Proof.Machine

/-- A keystream that is long enough for both cancels out of the difference of two encryptions. -/
theorem xorBytes_xorBytes_cancel {x y k : Bytes} (hxy : x.length = y.length) (hk : y.length ≤ k.length) :
    xorBytes (xorBytes x k) (xorBytes y k) = xorBytes x y := by
  refine List.ext_getElem (by simp [hxy, hk]) fun i h h' => ?_
  have hi : i < k.length := by
    rw [xorBytes_length] at h'
    omega
  simp only [xorBytes, List.getElem_zipWith]
  rw [BitVec.xor_assoc, BitVec.xor_comm k[i], BitVec.xor_assoc, BitVec.xor_self, BitVec.xor_zero]

/-- Settles O58: messages of equal length meet the same keystream. -/
theorem keystreamIndependence : Obligations.KeystreamIndependence := by
  refine fun ps k nonce => ⟨isapEnc_length ps k nonce, isapMac_length ps k nonce, fun m₁ m₂ hlen => ?_⟩
  rw [isapEnc, isapEnc, hlen]
  exact xorBytes_xorBytes_cancel hlen (keystream_length_ge ps k nonce m₂.length)

/-- Reading OUT gives the bytes that OUT holds. -/
theorem readBytes_of_outHolds {s t : State} {bytes : Bytes} (h : outHolds s t bytes) (hlen : bytes.length = s.inLen.toNat) :
    readBytes t.memory s.outBuf.start s.outBuf.len = bytes := by
  refine List.ext_getElem ((readBytes_length _ _ _).trans hlen.symm) fun k hk hk' => ?_
  have hin : k < s.inLen.toNat := by omega
  have hhas : s.outBuf.has (s.outBuf.start + k) = true :=
    outBuf_has_iff.mpr ⟨Nat.le_add_right _ _, Nat.add_lt_add_left hin _⟩
  have hbyte := h (s.outBuf.start + k)
  rw [if_pos hhas, Nat.add_sub_cancel_left,
    ← readBytes_getD t.memory s.outBuf.start s.outBuf.len k 0 hin, List.getD_eq_getElem _ _ hk, List.getD_eq_getElem _ _ hk'] at hbyte
  exact hbyte

/-- Settles O59: the ciphertext that AEAD_DEC reads is the one that AEAD_ENC made, its tag is the tag of it, and Enc undoes itself. -/
theorem aeadDecryptsWhatAeadEncrypted : Obligations.AeadDecryptsWhatAeadEncrypted := by
  intro s t u hs hsd hsw hst hu hud huw hkey hnonce hparam htag had hin
  obtain ⟨t', hst', -, hout, htag'⟩ := aeadEncRuns.2.2.1 s hs hsd hsw
  obtain rfl : t' = t := Host.Outcome.next.inj (hst'.symm.trans hst)
  have hcipher : inBytes u = isapEnc s.params s.key.toList s.nonce.toList (inBytes s) :=
    hin.trans (readBytes_of_outHolds hout (isapEnc_inBytes_length s))
  have hparams : u.params = s.params := congrArg paramsOf hparam
  have hmatch : u.tag.toList = isapMac u.params u.key.toList u.nonce.toList (adBytes u) (inBytes u) := by
    rw [htag, htag', had, hcipher, hparams, hkey, hnonce]
  obtain ⟨hmac, henc⟩ := List.forall_mem_append.mp hud
  obtain ⟨v, huv, hv, hplain⟩ := ((aeadDecRuns.2.2.1 u hu hmac).1 hmatch).1 henc huw
  refine ⟨v, huv, by rw [hv], ?_⟩
  rw [readBytes_of_outHolds hplain (isapEnc_inBytes_length u), hcipher, hparams, hkey, hnonce]
  exact encIsItsOwnInverse _ _ _ _

end Sys2Proof.Machine
end

section
/-!
PROOFS. Reset, and where a step stops (R66, R210, R211).
-/

namespace Sys2Proof.Machine

/-! ### Reset -/

/-- A reset changes no byte outside the OUT range of the command it abandons (R211). -/
theorem readByte_abandonOut_frame {s : State} (h : Memory.wf s.memory) {a : Nat} (ha : s.outBuf.has a = false) :
    readByte (abandonOut s).memory a = readByte s.memory a := by
  rcases abandonOut_cases s with hkept | ⟨r, -, -, hspoiled⟩
  · rw [hkept]
  · rw [hspoiled, readByte_spoilOut_frame h ha]

/-- A command without an OUT buffer leaves nothing behind (R211). -/
theorem abandonOut_of_writesNoOut {s : State} {r : Running} (hr : s.running = some r) (h : writesOut r.cmd = false) :
    abandonOut s = s := by
  simp [abandonOut, hr, h]

theorem act_rst (s : State) : act .rst s = .next (resetEngine s) := rfl

/-- Settles O39. -/
theorem resetAbandonsTheCommand : Obligations.ResetAbandonsTheCommand := by
  intro s rest hin
  refine ⟨resetEngine { s with inputs := rest }, by rw [step_cons hin, act_rst], rfl, fun hidle => ?_, fun r hr hw => ?_,
    fun hwf a ha => readByte_abandonOut_frame (s := { s with inputs := rest }) hwf ha⟩
  · rw [resetEngine_memory, abandonOut_of_idle (s := { s with inputs := rest }) hidle]
  · rw [resetEngine_memory, abandonOut_of_writesNoOut (s := { s with inputs := rest }) hr hw]

/-! ### Where a step stops -/

theorem hostDmaRead_of_outside {addr : Word64} {s : State} (h : 2 ^ s.platform.addrW.val ≤ addr.toNat) :
    hostDmaRead addr s = .fault .outsideDmaSpace := if_pos h

theorem hostDmaWrite_of_outside {addr : Word64} {v : Byte} {s : State} (h : 2 ^ s.platform.addrW.val ≤ addr.toNat) :
    hostDmaWrite addr v s = .fault .outsideDmaSpace := if_pos h

theorem hostDmaRead_of_inside {addr : Word64} {s : State} (h : addr.toNat < 2 ^ s.platform.addrW.val) :
    hostDmaRead addr s = .next { s with
      response := .okay ((dmaByteSeen s addr.toNat).1.setWidth 64), draws := (dmaByteSeen s addr.toNat).2 } :=
  if_neg (Nat.not_le.mpr h)

theorem hostDmaWrite_of_inside {addr : Word64} {s : State} (h : addr.toNat < 2 ^ s.platform.addrW.val) (v : Byte) :
    hostDmaWrite addr v s = .next { s with
      memory := writeByte s.memory addr.toNat v, running := s.running.map (noteRace s.memory addr.toNat), response := .okay 0 } :=
  if_neg (Nat.not_le.mpr h)

theorem hostWrite_goesOn (addr data : Word64) (size : Nat) (s : State) : goesOn (hostWrite presentWord addr size data s) := by
  rcases hostWrite_cases (rfl : hostWrite presentWord addr size data s = _) with ⟨resp, h⟩ | ⟨w, -, h⟩ | ⟨a, d, h, -⟩
  · exact ⟨_, h⟩
  · rw [h]
    exact presentWord_goesOn w _
  · exact ⟨_, h⟩

theorem writeWithEngine_goesOn (addr data : Word64) (size : Nat) (s : State) : goesOn (writeWithEngine addr size data s) := by
  obtain ⟨t, ht⟩ := hostWrite_goesOn addr data size s
  simp only [writeWithEngine, ht]
  split
  · exact engineStep_goesOn t
  · exact ⟨t, rfl⟩

/-- An action stops the machine only if it is an access to a DMA address that does not exist. -/
theorem act_goesOn_or_outside (e : Input) (s : State) :
    goesOn (act e s) ∨ ∃ addr : Word64, 2 ^ s.platform.addrW.val ≤ addr.toNat ∧ act e s = .fault .outsideDmaSpace ∧
      (e = .dmaRead addr ∨ ∃ v, e = .dmaWrite addr v) := by
  cases e with
  | read | rst => exact Or.inl ⟨_, rfl⟩
  | write addr size data => exact Or.inl (hostWrite_goesOn addr data size s)
  | writeWithEngine addr size data => exact Or.inl (writeWithEngine_goesOn addr data size s)
  | engine => exact Or.inl (engineStep_goesOn s)
  | dmaRead addr =>
    rcases Nat.lt_or_ge addr.toNat (2 ^ s.platform.addrW.val) with hin | hout
    · exact Or.inl ⟨_, hostDmaRead_of_inside hin⟩
    · exact Or.inr ⟨addr, hout, hostDmaRead_of_outside hout, Or.inl rfl⟩
  | dmaWrite addr v =>
    rcases Nat.lt_or_ge addr.toNat (2 ^ s.platform.addrW.val) with hin | hout
    · exact Or.inl ⟨_, hostDmaWrite_of_inside hin v⟩
    · exact Or.inr ⟨addr, hout, hostDmaWrite_of_outside hout, Or.inr ⟨v, rfl⟩⟩

theorem step_goesOn_or_outside (s : State) : goesOn (step s) ∨
    ∃ (addr : Word64) (rest : List Input), 2 ^ s.platform.addrW.val ≤ addr.toNat ∧ step s = .fault .outsideDmaSpace ∧
      (s.inputs = .dmaRead addr :: rest ∨ ∃ v, s.inputs = .dmaWrite addr v :: rest) := by
  cases hin : s.inputs with
  | nil =>
    rw [step_nil hin]
    exact Or.inl (engineStep_goesOn s)
  | cons e rest =>
    rw [step_cons hin]
    rcases act_goesOn_or_outside e { s with inputs := rest } with hgo | ⟨addr, hout, hfault, he⟩
    · exact Or.inl hgo
    · exact Or.inr ⟨addr, rest, hout, hfault, by simpa using he⟩

/-- Settles O42. -/
theorem stepStopsOnlyOutsideDmaSpace : Obligations.StepStopsOnlyOutsideDmaSpace := by
  refine ⟨step_goesOn_or_outside, fun s addr v rest hout hin => ?_, fun s hw => ?_⟩
  · rcases hin with hin | hin <;> rw [step_cons hin]
    · exact hostDmaRead_of_outside (s := { s with inputs := rest }) hout
    · exact hostDmaWrite_of_outside (s := { s with inputs := rest }) hout
  · refine (step_goesOn_or_outside s).resolve_right ?_
    rintro ⟨addr, -, hout, -⟩
    rw [hw] at hout
    exact Nat.not_lt.mpr hout addr.isLt

end Sys2Proof.Machine
end

section
/-!
PROOFS. What a step can do while a command runs, said once, and what follows from it (R43, R180, R189, R31).
-/

namespace Sys2Proof.Machine

/-! ### A step of the BUSY engine -/

/-- Nothing but an interrupt register and the answer has changed, beside the pending actions: what a write of the aperture can do while
BUSY (R30, R31, R180). -/
def onlyAnswered (s t : State) : Prop :=
  t = { s with intEn := t.intEn, intStat := t.intStat, inputs := t.inputs, response := t.response }

/-- The command still runs, and no register but the interrupt registers has changed. -/
def stillRunning (r : Running) (s t : State) : Prop :=
  ∃ r', r'.cmd = r.cmd ∧ r'.hung = r.hung ∧ t = { s with
    intEn := t.intEn, intStat := t.intStat, running := some r', memory := t.memory, inputs := t.inputs, response := t.response
    draws := t.draws }

theorem running_of_onlyAnswered {s t : State} (h : onlyAnswered s t) : t.running = s.running := by rw [h]

theorem stillRunning_of_onlyAnswered {s t : State} {r : Running} (hr : s.running = some r) (h : onlyAnswered s t) :
    stillRunning r s t := by
  refine ⟨r, rfl, rfl, ?_⟩
  rw [h, ← hr]

theorem writeReg_of_busy {s : State} (hbusy : s.busy = true) (a : Access) (d : Word64) : onlyAnswered s (writeReg a d s) := by
  rcases writeReg_cases a d s with ⟨v, h⟩ | h | ⟨-, h⟩ | ⟨-, h⟩ | ⟨hidle, -⟩
  case inr.inr.inr.inr => simp [hbusy] at hidle
  all_goals
    rw [h]
    rfl

theorem hostWrite_of_busy {present : Word32 → State → Host.Outcome State Fault Refusal} {addr data : Word64} {size : Nat}
    {s t : State} (hbusy : s.busy = true) (h : hostWrite present addr size data s = .next t) : onlyAnswered s t := by
  rcases hostWrite_cases h with ⟨resp, ht⟩ | ⟨w, hidle, -⟩ | ⟨a, d, ht, -⟩
  · obtain rfl := Host.Outcome.next.inj ht
    rfl
  · simp [hbusy] at hidle
  · obtain rfl := Host.Outcome.next.inj ht
    have hw := writeReg_of_busy (s := { s with response := .okay 0 }) hbusy a d
    rw [onlyAnswered] at hw ⊢
    rw [hw]

/-- While BUSY, an action other than reset leaves the command running, or ends with its engine step, possibly after an answered write. -/
theorem act_of_busy {e : Input} {s t : State} {r : Running} (hr : s.running = some r) (he : e ≠ .rst) (h : act e s = .next t) :
    stillRunning r s t ∨ ∃ u, onlyAnswered s u ∧ exec r.cmd u = .next t := by
  have hbusy : s.busy = true := by simp [State.busy, hr]
  cases e with
  | read addr size =>
    obtain rfl := Host.Outcome.next.inj h
    obtain ⟨resp, hread⟩ := hostRead_eq addr size s
    exact Or.inl (stillRunning_of_onlyAnswered hr (by rw [hread]; rfl))
  | write addr size data => exact Or.inl (stillRunning_of_onlyAnswered hr (hostWrite_of_busy hbusy h))
  | writeWithEngine addr size data =>
    obtain ⟨u, hu⟩ := hostWrite_goesOn addr data size s
    have hanswered := hostWrite_of_busy hbusy hu
    have hru : u.running = some r := (running_of_onlyAnswered hanswered).trans hr
    have hstep : engineStep u = .next t := by simpa only [act, writeWithEngine, hu, hbusy, if_true] using h
    exact Or.inr ⟨u, hanswered, by rwa [engineStep_of_busy hru] at hstep⟩
  | dmaRead addr =>
    rw [act] at h
    unfold hostDmaRead at h
    split at h
    · cases h
    · obtain rfl := Host.Outcome.next.inj h
      exact Or.inl ⟨r, rfl, rfl, by rw [← hr]⟩
  | dmaWrite addr v => exact Or.inl ⟨noteRace s.memory addr.toNat r, rfl, rfl, by rw [hostDmaWrite_eq hr h]⟩
  | engine =>
    rw [act_engine, engineStep_of_busy hr] at h
    exact Or.inr ⟨s, rfl, h⟩
  | rst => exact absurd rfl he

theorem step_of_busy {s t : State} {r : Running} (hr : s.running = some r) (hrst : ∀ rest, s.inputs ≠ .rst :: rest)
    (h : step s = .next t) : stillRunning r s t ∨ ∃ u, onlyAnswered s u ∧ exec r.cmd u = .next t := by
  cases hin : s.inputs with
  | nil =>
    rw [step_nil hin, engineStep_of_busy hr] at h
    exact Or.inr ⟨s, rfl, h⟩
  | cons e rest =>
    have he : e ≠ .rst := fun he => hrst rest (he ▸ hin)
    rw [step_cons hin] at h
    exact act_of_busy (s := { s with inputs := rest }) hr he h

/-! ### The registers a running command reads and writes -/

/-- PARAM, the buffer registers, KEY, NONCE and Y are the same. -/
def inputsKept (s t : State) : Prop :=
  t.param = s.param ∧ t.adAddr = s.adAddr ∧ t.adLen = s.adLen ∧ t.inAddr = s.inAddr ∧ t.inLen = s.inLen ∧
    t.outAddr = s.outAddr ∧ t.key = s.key ∧ t.nonce = s.nonce ∧ t.y = s.y

/-- TAG, SUBKEY, STATE and STATUS are the same. -/
def resultsKept (s t : State) : Prop :=
  t.tag = s.tag ∧ t.subkey = s.subkey ∧ t.permState = s.permState ∧ t.status = s.status

/-- The engine's step while BUSY keeps the inputs, and the results too unless it completes the command. -/
theorem exec_of_busy_keeps {s t : State} {r : Running} {i : Instr} (hr : s.running = some r) (h : exec i s = .next t) :
    inputsKept s t ∧ (t.running ≠ none → resultsKept s t) := by
  cases execResult_of_exec h with
  | nop _ hidle | setinst _ _ hidle | clear _ hidle | refused _ hidle | accepted _ hidle => simp [hr] at hidle
  | ignored | hung => simp [inputsKept, resultsKept]
  | perm | rk => exact ⟨by simp [inputsKept], fun hrun => absurd rfl hrun⟩
  | dma r p =>
    refine ⟨?_, fun hrun => ?_⟩
    · have hkeeps := finish_keeps p r s
      simp [inputsKept, hkeeps]
    · rcases finish_cases p r s with ⟨-, hf⟩ | ⟨-, -, hf⟩ | ⟨-, -, hf⟩ | ⟨-, hf⟩ <;> rw [hf] at hrun ⊢
      · exact absurd rfl hrun
      · exact absurd rfl hrun
      · exact absurd rfl hrun
      · exact ⟨rfl, rfl, rfl, rfl⟩

/-- Settles O43. -/
theorem runningCommandInputsAreFrozen : Obligations.RunningCommandInputsAreFrozen := by
  intro s t hbusy hrst h
  obtain ⟨r, hr⟩ := Option.ne_none_iff_exists'.mp hbusy
  rcases step_of_busy hr hrst h with ⟨r', -, -, ht⟩ | ⟨u, hu, hexec⟩
  · rw [ht]
    exact ⟨⟨rfl, rfl, rfl, rfl, rfl, rfl, rfl, rfl, rfl⟩, fun _ => ⟨rfl, rfl, rfl, rfl⟩⟩
  · obtain ⟨hinputs, hresults⟩ := exec_of_busy_keeps ((running_of_onlyAnswered hu).trans hr) hexec
    rw [hu] at hinputs hresults
    exact ⟨hinputs, hresults⟩

/-! ### The set of INT_STAT wins -/

/-- Settles O34: the completion comes after the write, and every completion sets DONE. -/
theorem engineSetWins : Obligations.EngineSetWins := by
  intro s t addr data size rest hbusy hin h hidle
  obtain ⟨r, hr⟩ := Option.ne_none_iff_exists'.mp hbusy
  rcases step_of_busy hr (by simp [hin]) h with ⟨r', -, -, ht⟩ | ⟨u, -, hexec⟩
  · rw [ht] at hidle
    cases hidle
  · rw [(completionWritesFlags r.cmd u t hexec hidle).1]
    simp

/-! ### A command that hangs, and one that completes (R189) -/

theorem finish_of_silent {p : Plan} (hd : p.dma = .silent) (r : Running) (s : State) :
    finish p r s = { s with running := some { r with hung := true } } := by
  simp only [finish, hd]

theorem exec_of_silent {s : State} {r : Running} {p : Plan} (hr : s.running = some r) (hh : r.hung = false)
    (hp : runningPlan r s = some p) (hd : p.dma = .silent) : exec r.cmd s = .next { s with running := some { r with hung := true } } := by
  rw [exec_runningPlan hr hh hp, finish_of_silent hd]

/-- A plan does not read the pending actions. -/
theorem runningPlan_inputs (r : Running) (s : State) (rest : List Input) : runningPlan r { s with inputs := rest } = runningPlan r s := by
  cases hc : r.cmd <;> simp only [runningPlan, hc] <;> rfl

/-- The first address that does not answer well decides, and this one is silent (R189). -/
theorem dmaEnd_eq_silent {s : State} {before after : List Nat} {a : Nat} (hbefore : answersWell s before)
    (herr : busErrorAt s.platform a = false) (hsilent : silentAt s.platform a = true) :
    dmaEnd s.platform (before ++ a :: after) = .silent := by
  induction before with
  | nil => simp [dmaEnd, herr, hsilent]
  | cons b before ih =>
    obtain ⟨⟨hb, hb'⟩, hrest⟩ := List.forall_mem_cons.mp hbefore
    simpa [dmaEnd, hb, hb'] using ih hrest

/-- A hung command stays hung at the engine's step. -/
theorem exec_of_hung {s t : State} {r : Running} {i : Instr} (hr : s.running = some r) (hh : r.hung = true)
    (h : exec i s = .next t) : t.running = some r := by
  have hunhung {r' : Running} (hr' : s.running = some r') (hh' : r'.hung = false) : False := by
    obtain rfl : r' = r := Option.some.inj (hr'.symm.trans hr)
    simp [hh] at hh'
  cases execResult_of_exec h with
  | nop _ hidle | setinst _ _ hidle | clear _ hidle | refused _ hidle | accepted _ hidle => simp [hr] at hidle
  | ignored | hung => exact hr
  | perm r' _ hr' _ hh' | rk r' _ hr' _ hh' | dma r' _ hr' _ hh' => exact (hunhung hr' hh').elim

/-- The transactions of each command up to a silent address leave its plan unanswered (R79, R189). -/
theorem runningPlan_silent {s : State} {r : Running} {before after : List Nat} {a : Nat} (hbefore : answersWell s before)
    (herr : busErrorAt s.platform a = false) (hsilent : silentAt s.platform a = true)
    (horder : (r.cmd = .enc ∧ encPhaseAddrs s = before ++ a :: after) ∨
      ((r.cmd = .mac ∨ r.cmd = .aeadDec) ∧ macPhaseAddrs s = before ++ a :: after) ∨
      (r.cmd = .aeadEnc ∧ encPhaseAddrs s ++ s.adBuf.addrs = before ++ a :: after) ∨
      (r.cmd = .aeadDec ∧ answersWell s (macPhaseAddrs s) ∧ encPhaseAddrs s = before ++ a :: after ∧
        s.tag.toList = macPhaseTag r s)) :
    ∃ p, runningPlan r s = some p ∧ p.dma = .silent := by
  have hend : dmaEnd s.platform (before ++ a :: after) = .silent := dmaEnd_eq_silent hbefore herr hsilent
  rcases horder with ⟨hc, haddrs⟩ | ⟨hc | hc, haddrs⟩ | ⟨hc, haddrs⟩ | ⟨hc, hmac, haddrs, htag⟩ <;> rw [← haddrs] at hend
  · exact ⟨_, runningPlan_enc hc, hend⟩
  · exact ⟨_, runningPlan_mac hc, hend⟩
  · refine ⟨_, runningPlan_aeadDec hc, ?_⟩
    rw [aeadDecPlan_of_failure (by simp [hend]), hend]
  · exact ⟨_, runningPlan_aeadEnc hc, hend⟩
  · refine ⟨_, runningPlan_aeadDec hc, ?_⟩
    rw [aeadDecPlan_of_match (dmaEnd_eq_done.mpr hmac) htag, hend]

/-- Settles O44. -/
theorem hungCommandStaysBusy : Obligations.HungCommandStaysBusy := by
  refine ⟨fun s r p hr hh hp hd => ⟨exec_of_silent hr hh hp hd, fun hin => ?_, fun rest hin => ?_⟩,
    fun s r before after a hr hh hbefore herr hsilent horder => ?_, fun s t r hr hh hrst h => ?_⟩
  · rw [step_nil hin, engineStep_of_busy hr, exec_of_silent hr hh hp hd]
  · have hr' : State.running { s with inputs := rest } = some r := hr
    rw [step_cons hin, act_engine, engineStep_of_busy hr',
      exec_of_silent hr' hh ((runningPlan_inputs r s rest).trans hp) hd]
  · obtain ⟨p, hp, hd⟩ := runningPlan_silent hbefore herr hsilent horder
    exact exec_of_silent hr hh hp hd
  · rcases step_of_busy hr hrst h with ⟨r', hc, hh', ht⟩ | ⟨u, hu, hexec⟩
    · exact ⟨r', by rw [ht], hc, hh'.trans hh⟩
    · exact ⟨r, exec_of_hung ((running_of_onlyAnswered hu).trans hr) hh hexec, rfl, hh⟩

/-- Where every address answers, no sequence of transactions waits for ever. -/
theorem dmaEnd_ne_silent {pl : Platform} (h : pl.noResponse = []) (l : List Nat) : dmaEnd pl l ≠ .silent := by
  have hanswer (a : Nat) : silentAt pl a = false := by simp [silentAt, inRanges, h]
  induction l with
  | nil => simp [dmaEnd]
  | cons a l ih => cases he : busErrorAt pl a <;> simp [dmaEnd, he, hanswer, ih]

theorem runningPlan_dma_ne_silent {r : Running} {s : State} {p : Plan} (h : s.platform.noResponse = [])
    (hp : runningPlan r s = some p) : p.dma ≠ .silent := by
  rcases usesDma_of_runningPlan hp with hc | hc | hc | hc
  · obtain rfl := Option.some.inj ((runningPlan_enc hc).symm.trans hp)
    exact dmaEnd_ne_silent h _
  · obtain rfl := Option.some.inj ((runningPlan_mac hc).symm.trans hp)
    exact dmaEnd_ne_silent h _
  · obtain rfl := Option.some.inj ((runningPlan_aeadEnc hc).symm.trans hp)
    exact dmaEnd_ne_silent h _
  · obtain rfl := Option.some.inj ((runningPlan_aeadDec hc).symm.trans hp)
    by_cases hd : dmaEnd s.platform (macPhaseAddrs s) = .done
    · by_cases ht : s.tag.toList = macPhaseTag r s
      · rw [aeadDecPlan_of_match hd ht]
        exact dmaEnd_ne_silent h _
      · simp [aeadDecPlan_of_differ hd ht]
    · rw [aeadDecPlan_of_failure hd]
      exact dmaEnd_ne_silent h _

/-- An accepted command becomes IDLE at the engine's step when no address is silent. -/
theorem exec_completes {s t : State} {r : Running} (hruns : runsAfterAcceptance r.cmd = true) (hr : s.running = some r)
    (hh : r.hung = false) (hanswer : s.platform.noResponse = []) (h : exec r.cmd s = .next t) : t.running = none := by
  cases hc : r.cmd with
  | nop | setinst | clear => simp [hc, runsAfterAcceptance] at hruns
  | perm n =>
    rw [hc, exec_perm, runPhases_complete hr hc hh] at h
    rw [← Host.Outcome.next.inj h, complete_running]
  | rk mode =>
    rw [hc, exec_rk, runPhases_complete hr hc hh] at h
    rw [← Host.Outcome.next.inj h, complete_running]
  | enc | mac | aeadEnc | aeadDec =>
    obtain ⟨p, hp⟩ : ∃ p, runningPlan r s = some p := by simp [runningPlan, hc]
    rw [exec_runningPlan hr hh hp] at h
    rw [← Host.Outcome.next.inj h]
    rcases finish_cases p r s with ⟨-, hf⟩ | ⟨-, -, hf⟩ | ⟨-, -, hf⟩ | ⟨hsilent, -⟩
    · rw [hf, complete_running]
    · rw [hf, completeError_running]
    · rw [hf, completeError_running]
    · exact absurd hsilent (runningPlan_dma_ne_silent hanswer hp)

/-- Settles O45. -/
theorem acceptedCommandCompletes : Obligations.AcceptedCommandCompletes := by
  intro s r hinv hr hh hin hanswer
  obtain ⟨hruns, -, -⟩ := hinv.running r hr
  obtain ⟨t, ht⟩ := exec_goesOn r.cmd s
  have hidle := exec_completes hruns hr hh hanswer ht
  refine ⟨t, by rw [step_nil hin, engineStep_of_busy hr, ht], hidle, ?_⟩
  rw [(completionWritesFlags r.cmd s t ht hidle).1]
  simp

end Sys2Proof.Machine
end

section
/-!
PROOFS. A host's accesses to the DMA space, and what they see and leave of a running command (R216, R217).
-/

namespace Sys2Proof.Machine

/-! ### What a host reads -/

theorem dmaByteSeen_of_idle {s : State} (hidle : s.running = none) (a : Nat) : dmaByteSeen s a = (readByte s.memory a, s.draws) := by
  simp only [dmaByteSeen, hidle]

/-- Outside OUT, and where the command writes no OUT byte, a host sees the present value (R217). -/
theorem dmaByteSeen_of_unwritten {s : State} {r : Running} {a : Nat} (hr : s.running = some r)
    (h : s.outBuf.has a = false ∨ runningPlan r s = none ∨ ∃ p, runningPlan r s = some p ∧ p.out = none) :
    dmaByteSeen s a = (readByte s.memory a, s.draws) := by
  simp only [dmaByteSeen, hr]
  rcases h with hout | hplan | ⟨p, hplan, hunwritten⟩
  · cases runningPlan r s <;> simp [hout]
  · simp only [hplan]
  · simp only [hplan, outByteSeen, hunwritten]
    split <;> rfl

theorem dmaByteSeen_of_outByte {s : State} {r : Running} {p : Plan} {a : Nat} (hr : s.running = some r)
    (hp : runningPlan r s = some p) (ha : s.outBuf.has a = true) : dmaByteSeen s a = outByteSeen r p s a := by
  simp only [dmaByteSeen, hr, hp, ha, if_true]

/-- With one other candidate, the parity of the free choice decides. -/
theorem pick_pair (x y : Byte) (d : Nat) : (pick x [y] d).1 = if Config.freeChoice d % 2 = 0 then x else y := by
  rcases Nat.mod_two_eq_zero_or_one (Config.freeChoice d) with h | h <;> simp [pick, h]

/-! ### What a host writes -/

theorem heldBefore_noteRace (m : Memory) (a : Nat) (r : Running) (b : Nat) :
    heldBefore (noteRace m a r).raced b = if b = a then readByte m b :: heldBefore r.raced b else heldBefore r.raced b := by
  rw [noteRace, heldBefore_cons]
  by_cases hb : b = a
  · subst hb
    rfl
  · rw [if_neg hb, if_neg fun h => hb h.symm]

/-- Settles O47. -/
theorem hostWriteIsRemembered : Obligations.HostWriteIsRemembered := by
  refine ⟨fun s r addr v hr hin hw => ?_, fun s addr v hidle hin hw => ?_, fun s addr hidle hin => ?_⟩
  · refine ⟨_, noteRace s.memory addr.toNat r, hostDmaWrite_of_inside hin v, ?_, rfl, readByte_writeByte hw _ _,
      heldBefore_noteRace _ _ _⟩
    rw [hr]
    rfl
  · have hrecord : s.running.map (noteRace s.memory addr.toNat) = s.running := by
      rw [hidle]
      rfl
    refine ⟨_, hostDmaWrite_of_inside hin v, ?_, readByte_writeByte hw _ _⟩
    rw [hrecord]
  · rw [hostDmaRead_of_inside hin, dmaByteSeen_of_idle hidle]

/-! ### An OUT byte that is settled (R217) -/

/-- A command whose DMA is answered well comes to every OUT byte it writes (R79). -/
theorem outIssued_of_done {s : State} {r : Running} {p : Plan} {a : Nat} {bytes : Bytes} (hp : runningPlan r s = some p)
    (ho : p.out = some bytes) (hd : p.dma = .done) (ha : s.outBuf.has a = true) : outIssued s a = true := by
  have hphase : dmaEnd s.platform (encPhaseAddrs s) = .done := by
    rcases usesDma_of_runningPlan hp with hc | hc | hc | hc
    · obtain rfl := Option.some.inj ((runningPlan_enc hc).symm.trans hp)
      exact hd
    · obtain rfl := Option.some.inj ((runningPlan_mac hc).symm.trans hp)
      cases ho
    · obtain rfl := Option.some.inj ((runningPlan_aeadEnc hc).symm.trans hp)
      exact dmaEnd_eq_done.mpr fun b hb => dmaEnd_eq_done.mp hd b (List.mem_append_left _ hb)
    · obtain rfl := Option.some.inj ((runningPlan_aeadDec hc).symm.trans hp)
      rcases aeadDecPlan_cases r s with ⟨hmac, ht⟩ | ⟨hnone, -⟩
      · rwa [aeadDecPlan_of_match hmac ht] at hd
      · simp [hnone] at ho
  rw [outIssued, issued_of_done hphase, List.contains_iff_mem]
  exact mem_encAddrs_out (rateBytes_pos _) rfl ha

/-- Byte `k` of Enc of a buffer read is fixed once read `j + k` is made (R144, R217). -/
theorem isapEnc_engineRead_noteRace_getD (ps : Params) (key nonce : Bytes) {r : Running} {m : Memory} (hw : Memory.wf m) (b : Nat)
    (v : Byte) (a n j k : Nat) (hk : k < n) (hd : readDone r (j + k) = true) :
    (isapEnc ps key nonce (engineRead (noteRace m b r) (writeByte m b v) a n j)).getD k 0 =
      (isapEnc ps key nonce (engineRead r m a n j)).getD k 0 :=
  isapEnc_getD_congr ps key nonce k (by simpa using hk) (by simp) (engineRead_noteRace_getD hw b v a n j k hk hd)

/-- The tag of a Mac phase whose reads are all made is fixed, and with it the verdict (R170, R217). -/
theorem macPhaseTag_noteRace {s t : State} {r : Running} {b : Nat} {v : Byte} (hw : Memory.wf s.memory)
    (hd : ∀ j < s.adBuf.len + s.inBuf.len, readDone r j = true)
    (ht : t = { s with memory := writeByte s.memory b v, running := t.running, response := t.response }) :
    macPhaseTag (noteRace s.memory b r) t = macPhaseTag r s := by
  have had := engineRead_noteRace hw b v s.adBuf.start s.adBuf.len 0 fun k hk => hd (0 + k) (by omega)
  have hin := engineRead_noteRace hw b v s.inBuf.start s.inBuf.len s.adBuf.len fun k hk => hd (s.adBuf.len + k) (by omega)
  rw [ht, macPhaseTag, macPhaseTag, ← had, ← hin]
  rfl

/-- The plans of a command before and after a host write agree on how the DMA ends, on the verdict, and on OUT byte `k`. -/
def plansAgree (p p' : Plan) (k : Nat) : Prop :=
  p'.dma = p.dma ∧ p'.verify = p.verify ∧ p'.out.isSome = p.out.isSome ∧
    ∀ bytes bytes', p.out = some bytes → p'.out = some bytes' → bytes'.getD k 0 = bytes.getD k 0

theorem plansAgree_of_out {p p' : Plan} {k : Nat} {x x' : Bytes} (hdma : p'.dma = p.dma) (hverify : p'.verify = p.verify)
    (ho : p.out = some x) (ho' : p'.out = some x') (hk : x'.getD k 0 = x.getD k 0) : plansAgree p p' k := by
  refine ⟨hdma, hverify, by rw [ho, ho']; rfl, fun bytes bytes' hb hb' => ?_⟩
  obtain rfl := Option.some.inj (ho.symm.trans hb)
  obtain rfl := Option.some.inj (ho'.symm.trans hb')
  exact hk

/-- A host write leaves the plan of a command as it is at a settled byte. -/
theorem runningPlan_noteRace {s t : State} {r : Running} {p : Plan} {b k : Nat} {v : Byte} (hw : Memory.wf s.memory)
    (hp : runningPlan r s = some p) (hk : k < s.inLen.toNat) (hsettled : outSettled r s k = true)
    (ht : t = { s with memory := writeByte s.memory b v, running := t.running, response := t.response }) :
    ∃ p', runningPlan (noteRace s.memory b r) t = some p' ∧ plansAgree p p' k := by
  obtain ⟨hmay, hread⟩ : mayHaveWritten r s = true ∧ readDone r (readForOut r s k) = true := by simpa [outSettled] using hsettled
  have hlen : k < s.inBuf.len := hk
  rcases usesDma_of_runningPlan hp with hc | hc | hc | hc
  · obtain rfl := Option.some.inj ((runningPlan_enc hc).symm.trans hp)
    refine ⟨_, runningPlan_enc hc, ?_⟩
    rw [readForOut, hc] at hread
    rw [ht]
    exact plansAgree_of_out rfl rfl rfl rfl
      (isapEnc_engineRead_noteRace_getD _ _ _ hw b v _ _ 0 k hlen (by rwa [Nat.zero_add]))
  · simp [mayHaveWritten, hc] at hmay
  · obtain rfl := Option.some.inj ((runningPlan_aeadEnc hc).symm.trans hp)
    refine ⟨_, runningPlan_aeadEnc hc, ?_⟩
    rw [readForOut, hc] at hread
    rw [ht]
    exact plansAgree_of_out rfl rfl rfl rfl
      (isapEnc_engineRead_noteRace_getD _ _ _ hw b v _ _ 0 k hlen (by rwa [Nat.zero_add]))
  · obtain rfl := Option.some.inj ((runningPlan_aeadDec hc).symm.trans hp)
    refine ⟨_, runningPlan_aeadDec hc, ?_⟩
    rw [readForOut, hc] at hread
    rw [mayHaveWritten, hc] at hmay
    have hreads : ∀ j < s.adBuf.len + s.inBuf.len, readDone r j = true := by simpa using hmay
    have htag := macPhaseTag_noteRace hw hreads ht
    have hsame : t.tag = s.tag ∧ dmaEnd t.platform (macPhaseAddrs t) = dmaEnd s.platform (macPhaseAddrs s) := by
      rw [ht]
      exact ⟨rfl, rfl⟩
    obtain ⟨hsameTag, hsameEnd⟩ := hsame
    by_cases hd : dmaEnd s.platform (macPhaseAddrs s) = .done
    · by_cases hmatch : s.tag.toList = macPhaseTag r s
      · rw [aeadDecPlan_of_match hd hmatch, aeadDecPlan_of_match (hsameEnd.trans hd) (by rw [hsameTag, htag, hmatch]), ht]
        exact plansAgree_of_out rfl rfl rfl rfl (isapEnc_engineRead_noteRace_getD _ _ _ hw b v _ _ _ k hlen hread)
      · rw [aeadDecPlan_of_differ hd hmatch, aeadDecPlan_of_differ (hsameEnd.trans hd) (by rwa [hsameTag, htag])]
        exact ⟨rfl, rfl, rfl, fun _ _ ho => by cases ho⟩
    · rw [aeadDecPlan_of_failure hd, aeadDecPlan_of_failure (by rwa [hsameEnd]), hsameEnd]
      exact ⟨rfl, rfl, rfl, fun _ _ ho => by cases ho⟩

/-- Settles O48. -/
theorem outReadRace : Obligations.OutReadRace := by
  refine ⟨fun s r addr hr hin h => ?_, fun s r p bytes addr hr hp ho ha hin => ?_, fun s t r p addr v k hr hp hw hk hsettled h => ?_⟩
  · rw [hostDmaRead_of_inside hin, dmaByteSeen_of_unwritten hr h]
  · refine ⟨(outByteSeen r p s addr.toNat).1, (outByteSeen r p s addr.toNat).2, ?_, ?_, fun hissued hsettled => ?_,
      fun hd => outIssued_of_done hp ho hd ha⟩
    · rw [hostDmaRead_of_inside hin, dmaByteSeen_of_outByte hr hp ha]
    · rcases outByteSeen_cases r p s addr.toNat with ⟨hseen, -⟩ | ⟨x, hx, hissued, hsettled, hseen⟩ <;> rw [hseen]
      · exact Or.inl rfl
      · obtain rfl := Option.some.inj (hx.symm.trans ho)
        rw [pick_pair]
        split
        · exact Or.inl rfl
        · exact Or.inr ⟨hissued, hsettled, rfl⟩
    · simp only [outByteSeen, ho, hissued, hsettled, Bool.and_self, if_true, pick_pair]
  · have ht := hostDmaWrite_eq hr h
    obtain ⟨p', hp', hagree⟩ := runningPlan_noteRace (t := t) (b := addr.toNat) (v := v) hw hp hk hsettled (by rw [ht])
    exact ⟨noteRace s.memory addr.toNat r, p', by rw [ht], hp', outSettled_noteRace (by rw [ht]) (by rw [ht]) hsettled, hagree⟩

end Sys2Proof.Machine
end

section
/-!
PROOFS. The register map (R22) and the registers as byte strings and words (R44).
-/

namespace Sys2Proof.Machine

/-! ### The register map (R22) -/

theorem regAt_eq_id_iff (k : Nat) : regAt k = .id ↔ k = 0 := by
  simp only [regAt, ite_eq_iff, reduceCtorEq, and_false, or_false, and_true]

theorem regAt_eq_status_iff (k : Nat) : regAt k = .status ↔ k = 2 := by
  simp only [regAt, ite_eq_iff, reduceCtorEq, and_false, false_or, or_false, and_true]
  omega

theorem regAt_eq_key_iff (k w : Nat) : regAt k = .key w ↔ k = 12 + w ∧ w < 2 := by
  simp only [regAt, ite_eq_iff, reduceCtorEq, Reg.key.injEq, and_false, false_or, or_false]
  omega

theorem regAt_eq_nonce_iff (k w : Nat) : regAt k = .nonce w ↔ k = 14 + w ∧ w < 2 := by
  simp only [regAt, ite_eq_iff, reduceCtorEq, Reg.nonce.injEq, and_false, false_or, or_false]
  omega

theorem regAt_eq_tag_iff (k w : Nat) : regAt k = .tag w ↔ k = 16 + w ∧ w < 2 := by
  simp only [regAt, ite_eq_iff, reduceCtorEq, Reg.tag.injEq, and_false, false_or, or_false]
  omega

theorem regAt_eq_y_iff (k w : Nat) : regAt k = .y w ↔ k = 18 + w ∧ w < 2 := by
  simp only [regAt, ite_eq_iff, reduceCtorEq, Reg.y.injEq, and_false, false_or, or_false]
  omega

theorem regAt_eq_subkey_iff (k w : Nat) : regAt k = .subkey w ↔ k = 20 + w ∧ w < 5 := by
  simp only [regAt, ite_eq_iff, reduceCtorEq, Reg.subkey.injEq, and_false, false_or, or_false]
  omega

theorem regAt_eq_permState_iff (k w : Nat) : regAt k = .permState w ↔ k = 32 + w ∧ w < 7 := by
  simp only [regAt, ite_eq_iff, reduceCtorEq, Reg.permState.injEq, and_false, false_or, or_false]
  omega

/-- The place of a register in the map: its offset divided by 8; 64, which is no place, for the reserved ones. -/
def Reg.place : Reg → Nat
  | .id => 0
  | .cmd => 1
  | .status => 2
  | .param => 3
  | .intEn => 4
  | .intStat => 5
  | .adAddr => 6
  | .adLen => 7
  | .inAddr => 8
  | .inLen => 9
  | .outAddr => 10
  | .key w => 12 + w
  | .nonce w => 14 + w
  | .tag w => 16 + w
  | .y w => 18 + w
  | .subkey w => 20 + w
  | .permState w => 32 + w
  | .reserved => 64

/-- Every register has one place in the map. -/
theorem place_regAt {k : Nat} (h : regAt k ≠ .reserved) : (regAt k).place = k := by
  have hmap : ∀ k < 39, regAt k ≠ .reserved → (regAt k).place = k := by decide
  have hk : k < 39 := by
    rw [Ne, regAt_eq_reserved_iff] at h
    omega
  exact hmap k hk h

theorem regAt_ne_of_ne {j k : Nat} (hne : j ≠ k) (hk : regAt k ≠ .reserved) : regAt j ≠ regAt k := by
  intro h
  exact hne (by rw [← place_regAt hk, ← h, place_regAt (h ▸ hk)])

/-- The registers that a host may write while IDLE and that then hold the value: those that read back, and KEY (R22, R36). -/
def storesWrites (r : Reg) : Prop := readsBack r = true ∨ ∃ w, r = .key w

theorem readsBack_regAt_iff {k : Nat} (hk : k < 64) :
    readsBack (regAt k) = true ↔ k = 3 ∨ k = 4 ∨ (6 ≤ k ∧ k ≤ 10) ∨ (14 ≤ k ∧ k ≤ 19) ∨ (32 ≤ k ∧ k ≤ 38) := by
  decide +revert

theorem exists_regAt_eq_key_iff (k : Nat) : (∃ w, regAt k = .key w) ↔ k = 12 ∨ k = 13 := by
  simp only [regAt_eq_key_iff]
  constructor
  · rintro ⟨w, hk, hw⟩
    omega
  · intro hk
    exact ⟨k - 12, by omega, by omega⟩

theorem exists_regAt_eq_subkey_iff (k : Nat) : (∃ w, regAt k = .subkey w) ↔ 20 ≤ k ∧ k ≤ 24 := by
  simp only [regAt_eq_subkey_iff]
  constructor
  · rintro ⟨w, hk, hw⟩
    omega
  · rintro ⟨hlo, hhi⟩
    exact ⟨k - 20, by omega, by omega⟩

/-- The widths of R22's map. -/
theorem implemented_regAt {k : Nat} (hk : k < 64) (h : storesWrites (regAt k)) :
    (regAt k).implemented =
      if k = 3 then 0x0000001F1F1F1F01 else if k = 4 then 0x3 else if k = 38 then 0xFFFF else 0xFFFFFFFFFFFFFFFF := by
  have hmap : ∀ k < 64, readsBack (regAt k) = true → (regAt k).implemented =
      if k = 3 then 0x0000001F1F1F1F01 else if k = 4 then 0x3 else if k = 38 then 0xFFFF else 0xFFFFFFFFFFFFFFFF := by decide
  rcases h with hreads | hkey
  · exact hmap k hk hreads
  · rcases (exists_regAt_eq_key_iff k).mp hkey with rfl | rfl <;> rfl

/-! ### Byte strings in registers (R44) -/

theorem setWidth_ushiftRight_eq_extractLsb' (v : Word64) (n : Nat) : (v >>> n).setWidth 8 = v.extractLsb' n 8 := by
  refine BitVec.eq_of_getLsbD_eq fun i hi => ?_
  simp [hi]

/-- Two words with the same eight bytes are the same. -/
theorem eq_of_bytes {v w : Word64} (h : ∀ j < 8, v.extractLsb' (8 * j) 8 = w.extractLsb' (8 * j) 8) : v = w := by
  refine BitVec.eq_of_getLsbD_eq fun i hi => ?_
  have hbit := congrArg (fun b : Byte => b.getLsbD (i % 8)) (h (i / 8) (by omega))
  have hlow : i % 8 < 8 := Nat.mod_lt _ (by decide)
  have hplace : 8 * (i / 8) + i % 8 = i := Nat.div_add_mod i 8
  simpa [hlow, hplace] using hbit

theorem slice_getD (x : Bytes) (off : Nat) {n k : Nat} (h : k < n) : (slice x off n).getD k 0 = x.getD (off + k) 0 := by
  simp [slice, h]

/-- Byte `j` of word `w` of a string is the string's byte `8w + j` (R44). -/
theorem extractLsb'_regWord (x : Bytes) (w : Nat) {j : Nat} (hj : j < 8) :
    (regWord x w).extractLsb' (8 * j) 8 = x.getD (8 * w + j) 0 := by
  have hbytes : leBytes (leNat (slice x (8 * w) 8)) 8 = slice x (8 * w) 8 := by
    simpa using leBytes_leNat (slice x (8 * w) 8)
  have hlt : leNat (slice x (8 * w) 8) < 2 ^ 64 := by simpa using leNat_lt (slice x (8 * w) 8)
  apply BitVec.eq_of_toNat_eq
  rw [← slice_getD x (8 * w) hj, ← hbytes, leBytes_getD _ hj, regWord, BitVec.extractLsb'_toNat, BitVec.toNat_ofNat,
    Nat.mod_eq_of_lt hlt]

theorem setRegWord_getElem {n : Nat} (x : Vector Byte n) (w : Nat) (v : Word64) (i : Nat) (hi : i < n) :
    (setRegWord x w v)[i] = if i / 8 = w then v.extractLsb' (8 * (i % 8)) 8 else x[i] := by
  simp [setRegWord, setWidth_ushiftRight_eq_extractLsb']

/-- The word that was set reads as set, if it has no byte beyond the string. -/
theorem regWord_setRegWord {n : Nat} (x : Vector Byte n) (w : Nat) (v : Word64)
    (h : ∀ j < 8, n ≤ 8 * w + j → v.extractLsb' (8 * j) 8 = 0) : regWord (setRegWord x w v).toList w = v := by
  refine eq_of_bytes fun j hj => ?_
  rw [extractLsb'_regWord _ _ hj]
  by_cases hin : 8 * w + j < n
  · have hdiv : (8 * w + j) / 8 = w := by omega
    have hmod : (8 * w + j) % 8 = j := by omega
    simp [hin, setRegWord_getElem, hdiv, hmod]
  · rw [List.getD_eq_default _ _ (by simpa using hin), h j hj (Nat.le_of_not_lt hin)]

theorem regWord_setRegWord_other {n : Nat} (x : Vector Byte n) {w w' : Nat} (v : Word64) (h : w' ≠ w) :
    regWord (setRegWord x w v).toList w' = regWord x.toList w' := by
  refine eq_of_bytes fun j hj => ?_
  rw [extractLsb'_regWord _ _ hj, extractLsb'_regWord _ _ hj]
  have hdiv : (8 * w' + j) / 8 = w' := by omega
  by_cases hin : 8 * w' + j < n
  · simp [hin, setRegWord_getElem, hdiv, h]
  · rw [List.getD_eq_default _ _ (by simpa using hin), List.getD_eq_default _ _ (by simpa using hin)]

/-! ### What setting a register stores -/

/-- Setting one register leaves every other as it is (R74). -/
theorem stored_set_other {r r' : Reg} (h : r' ≠ r) (v : Word64) (s : State) : r'.stored (r.set v s) = r'.stored s := by
  cases r with
  | id | cmd | status | intStat | subkey | reserved => rfl
  | param | intEn | adAddr | adLen | inAddr | inLen | outAddr =>
    cases r' <;> simp_all [Reg.stored, Reg.set, State.statusWord, State.busy]
  | key w | nonce w | tag w | y w | permState w =>
    cases r' <;> simp_all [Reg.stored, Reg.set, State.statusWord, State.busy, regWord_setRegWord_other]

/-- The low bits of a word, cut off and put back. -/
theorem setWidth_setWidth_and_low (v : Word64) (n : Nat) :
    ((v &&& (BitVec.allOnes n).setWidth 64).setWidth n).setWidth 64 = v &&& (BitVec.allOnes n).setWidth 64 := by
  refine BitVec.eq_of_getLsbD_eq fun i hi => ?_
  by_cases hlow : i < n <;> simp [hi, hlow]

/-- STATE6 has two implemented bytes (R41). -/
theorem permState_high_bytes : ∀ j < 8, 2 ≤ j → (Reg.implemented (.permState 6)).extractLsb' (8 * j) 8 = 0#8 := by decide

/-- A register that stores writes holds the implemented bits of what it is set to (R23). -/
theorem stored_set_same {k : Nat} (h : storesWrites (regAt k)) (v : Word64) (s : State) :
    (regAt k).stored ((regAt k).set (v &&& (regAt k).implemented) s) = v &&& (regAt k).implemented := by
  have hfull {n : Nat} (w : Nat) (hw : 8 * w + 8 ≤ n) (x : Vector Byte n) (u : Word64) :
      regWord (setRegWord x w u).toList w = u :=
    regWord_setRegWord x w u fun j hj hpast => by omega
  cases hr : regAt k with
  | id | cmd | status | intStat | subkey | reserved => simp [storesWrites, hr, readsBack] at h
  | param | adAddr | adLen | inAddr | inLen | outAddr => rfl
  | intEn => exact setWidth_setWidth_and_low v 2
  | key w => exact hfull w (by have := (regAt_eq_key_iff k w).mp hr; omega) s.key _
  | nonce w => exact hfull w (by have := (regAt_eq_nonce_iff k w).mp hr; omega) s.nonce _
  | tag w => exact hfull w (by have := (regAt_eq_tag_iff k w).mp hr; omega) s.tag _
  | y w => exact hfull w (by have := (regAt_eq_y_iff k w).mp hr; omega) s.y _
  | permState w =>
    obtain ⟨-, hw⟩ := (regAt_eq_permState_iff k w).mp hr
    refine regWord_setRegWord s.permState w _ fun j hj hpast => ?_
    have hlast : w = 6 ∧ 2 ≤ j := by omega
    obtain ⟨rfl, hj2⟩ := hlast
    rw [BitVec.extractLsb'_and, permState_high_bytes j hj hj2]
    exact BitVec.and_zero

end Sys2Proof.Machine
end

section
/-!
PROOFS. What a host access does, by its offset: the answer of a read, and the effect of a write while IDLE and while BUSY
(R23, R72, R73, R180).
-/

namespace Sys2Proof.Machine

/-! ### The two sizes of an access -/

/-- How far a half of a register lies from its bit 0. -/
def halfShift (high : Bool) : Nat := if high then 32 else 0

/-- The bits of a half of a register. -/
def halfLanes (high : Bool) : Word64 := if high then 0xFFFFFFFF00000000 else 0x00000000FFFFFFFF

/-- An 8-byte access at offset 8k. -/
theorem accessAt_whole {off k : Nat} (h : off = 8 * k) :
    accessAt off 8 = some { reg := regAt k, shift := 0, lanes := 0xFFFFFFFFFFFFFFFF } := by
  have hk : off / 8 = k := by omega
  rw [accessAt_eight (by omega), hk]

/-- A 4-byte access at offset 8k or 8k + 4. -/
theorem accessAt_half {off k : Nat} {high : Bool} (h : off = 8 * k + if high then 4 else 0) :
    accessAt off 4 = some { reg := regAt k, shift := halfShift high, lanes := halfLanes high } := by
  cases high with
  | false =>
    have hk : off / 8 = k := by simp only [Bool.false_eq_true, if_false] at h; omega
    have hmod : off % 8 = 0 := by simp only [Bool.false_eq_true, if_false] at h; omega
    rw [accessAt_four (by omega), hk, hmod]
    rfl
  | true =>
    have hk : off / 8 = k := by simp only [if_true] at h; omega
    have hmod : off % 8 = 4 := by simp only [if_true] at h; omega
    rw [accessAt_four (by omega), hk, hmod]
    rfl

/-- The access of either size at offset 8k begins at bit 0 and reaches the low half at least. -/
theorem accessAt_low {off k size : Nat} (h : off = 8 * k) (hsize : size = 4 ∨ size = 8) :
    ∃ a, accessAt off size = some a ∧ a.reg = regAt k ∧ a.shift = 0 ∧ ∀ j < 32, a.lanes.getLsbD j = true := by
  have hhalf : ∀ j < 32, (halfLanes false).getLsbD j = true := by decide
  have hwhole : ∀ j < 32, (0xFFFFFFFFFFFFFFFF : Word64).getLsbD j = true := by decide
  rcases hsize with rfl | rfl
  · exact ⟨_, accessAt_half (high := false) h, rfl, rfl, hhalf⟩
  · exact ⟨_, accessAt_whole h, rfl, rfl, hwhole⟩

theorem reg_of_accessAt {off size : Nat} {a : Access} (h : accessAt off size = some a) : a.reg = regAt (off / 8) := by
  unfold accessAt at h
  split_ifs at h <;> obtain rfl := Option.some.inj h <;> rfl

/-! ### Reads -/

theorem hostRead_whole {s : State} {addr : Word64} {k : Nat} (hin : inAperture s.platform addr = true)
    (hoff : apertureOffset addr = 8 * k) : (hostRead addr 8 s).response = .okay ((regAt k).visible s) := by
  have hall : (regAt k).visible s &&& 0xFFFFFFFFFFFFFFFF = (regAt k).visible s := BitVec.and_allOnes
  rw [hostRead_of_access hin (accessAt_whole hoff)]
  simp only [hall, BitVec.ushiftRight_zero]

/-- A half of a word, shifted to bit 0. -/
theorem and_halfLanes_ushiftRight (v : Word64) (high : Bool) :
    (v &&& halfLanes high) >>> halfShift high = (v >>> halfShift high) &&& 0xFFFFFFFF := by
  rw [BitVec.ushiftRight_and_distrib]
  cases high <;> rfl

theorem hostRead_half {s : State} {addr : Word64} {k : Nat} {high : Bool} (hin : inAperture s.platform addr = true)
    (hoff : apertureOffset addr = 8 * k + if high then 4 else 0) :
    (hostRead addr 4 s).response = .okay (((regAt k).visible s >>> halfShift high) &&& 0xFFFFFFFF) := by
  rw [hostRead_of_access hin (accessAt_half hoff)]
  simp only [and_halfLanes_ushiftRight]

/-! ### Writes while IDLE -/

/-- Setting a register changes neither STATUS, the mode and the DMA space nor what lies outside the engine. -/
theorem set_keeps (r : Reg) (v : Word64) (s : State) :
    (r.set v s).status = s.status ∧ (r.set v s).running = s.running ∧ (r.set v s).memory = s.memory ∧
    (r.set v s).platform = s.platform ∧ (r.set v s).inputs = s.inputs ∧ (r.set v s).draws = s.draws ∧
    (r.set v s).response = s.response := by
  cases r <;> simp [Reg.set]

/-- While IDLE a write sets the register, INT_STAT apart, to the bits that the access reaches (R23, R73). -/
theorem writeReg_of_idle {a : Access} {s : State} (hidle : s.running = none) (h : a.reg ≠ .intStat) (d : Word64) :
    writeReg a d s = a.reg.set (mergeWrite (a.reg.stored s) d a.lanes a.reg.implemented) s := by
  have hbusy : ¬s.busy = true := by simp [State.busy, hidle]
  unfold writeReg
  split
  · next hreg => rw [hreg]
  · next hreg => exact absurd hreg h
  · rw [if_neg hbusy]

theorem hostWrite_of_idle {s : State} {addr data : Word64} {size : Nat} {a : Access} (hidle : s.running = none)
    (hin : inAperture s.platform addr = true) (ha : accessAt (apertureOffset addr) size = some a) (hcmd : a.reg ≠ .cmd)
    (hstat : a.reg ≠ .intStat) :
    hostWrite presentWord addr size data s =
      .next (a.reg.set (mergeWrite (a.reg.stored s) (data <<< a.shift) a.lanes a.reg.implemented) { s with response := .okay 0 }) := by
  rw [hostWrite_of_access hin ha fun h => hcmd h.1, writeReg_of_idle (s := { s with response := .okay 0 }) hidle hstat]
  cases a.reg <;> rfl

theorem storesWrites_frame {r : Reg} (h : storesWrites r) : r ≠ .cmd ∧ r ≠ .intStat ∧ r ≠ .reserved := by
  refine ⟨?_, ?_, ?_⟩ <;> rintro rfl <;> simp [storesWrites, readsBack] at h

/-- What a write leaves when it sets the register at offset 8k alone (R74). -/
theorem onlyRegisterChanged_set {k : Nat} (h : storesWrites (regAt k)) (v : Word64) (s : State) :
    onlyRegisterChanged k s ((regAt k).set v { s with response := .okay 0 }) := by
  obtain ⟨-, -, hres⟩ := storesWrites_frame h
  refine ⟨fun j _ hne => ?_, set_keeps _ _ _⟩
  rw [stored_set_other (regAt_ne_of_ne hne hres)]
  cases regAt j <;> rfl

/-- A write of a register that stores writes leaves there the bits it reached, and changes no other register (R23, R73, R74). -/
theorem write_of_storesWrites {s : State} {addr data : Word64} {size k : Nat} {a : Access} (hidle : s.running = none)
    (hin : inAperture s.platform addr = true) (ha : accessAt (apertureOffset addr) size = some a) (hreg : a.reg = regAt k)
    (h : storesWrites (regAt k)) :
    ∃ t, hostWrite presentWord addr size data s = .next t ∧
      t = (regAt k).set (mergeWrite ((regAt k).stored s) (data <<< a.shift) a.lanes (regAt k).implemented)
        { s with response := .okay 0 } ∧
      (regAt k).stored t = mergeWrite ((regAt k).stored s) (data <<< a.shift) a.lanes (regAt k).implemented ∧
      onlyRegisterChanged k s t := by
  obtain ⟨hcmd, hstat, -⟩ := storesWrites_frame h
  have hwrite := hostWrite_of_idle (data := data) hidle hin ha (hreg ▸ hcmd) (hreg ▸ hstat)
  rw [hreg] at hwrite
  exact ⟨_, hwrite, rfl, stored_set_same h _ _, onlyRegisterChanged_set h _ s⟩

/-- The registers that a host cannot write, CMD apart (R23). -/
def isReadOnly (r : Reg) : Prop := r = .id ∨ r = .status ∨ ∃ w, r = .subkey w

theorem hostWrite_of_readOnly {s : State} {addr data : Word64} {size : Nat} {a : Access} (hidle : s.running = none)
    (hin : inAperture s.platform addr = true) (ha : accessAt (apertureOffset addr) size = some a) (h : isReadOnly a.reg) :
    hostWrite presentWord addr size data s = .next { s with response := .okay 0 } := by
  have hother : a.reg ≠ .cmd ∧ a.reg ≠ .intStat := by
    rcases h with hreg | hreg | ⟨w, hreg⟩ <;> simp [hreg]
  rw [hostWrite_of_idle hidle hin ha hother.1 hother.2]
  rcases h with hreg | hreg | ⟨w, hreg⟩ <;> rw [hreg] <;> rfl

/-! ### An 8-byte write -/

theorem mergeWrite_whole (old data implemented : Word64) : mergeWrite old data 0xFFFFFFFFFFFFFFFF implemented = data &&& implemented := by
  have hold : old &&& ~~~0xFFFFFFFFFFFFFFFF = 0#64 := by simp
  have hdata : data &&& 0xFFFFFFFFFFFFFFFF = data := BitVec.and_allOnes
  rw [mergeWrite, hold, hdata, BitVec.zero_or]

theorem visible_of_readsBack {k : Nat} {s : State} (hidle : s.running = none) (h : readsBack (regAt k) = true) :
    (regAt k).visible s = (regAt k).stored s := by
  cases hr : regAt k with
  | key | subkey => simp [hr, readsBack] at h
  | permState w => simp [Reg.visible, State.busy, hidle]
  | _ => rfl

/-- A write of word `w` of KEY sets the bytes 8w to 8w + 7 (R36). -/
theorem key_of_write {w k : Nat} (hk : k = 12 + w) (hw : w < 2) (data : Word64) (s : State) (i : Nat) (hi : i < 16) :
    ((regAt k).set (data &&& (regAt k).implemented) { s with response := .okay 0 }).key[i] =
      if i / 8 = w then data.extractLsb' (8 * (i % 8)) 8 else s.key[i] := by
  have hall : data &&& Reg.implemented (.key w) = data := BitVec.and_allOnes
  rw [(regAt_eq_key_iff k w).mpr ⟨hk, hw⟩, hall]
  exact setRegWord_getElem s.key w data i hi

/-- Settles O29: an 8-byte write is a write of all bits of the register at its offset. -/
theorem writtenRegisterReadsBack : Obligations.WrittenRegisterReadsBack := by
  intro s addr data k hidle hin hoff
  have hk : k < 64 := by
    have hlt : apertureOffset addr < 512 := (addr.extractLsb' 0 9).isLt
    omega
  have ha := accessAt_whole hoff
  refine ⟨fun h => ?_, readsBack_regAt_iff hk, exists_regAt_eq_key_iff k, regAt_eq_id_iff k, regAt_eq_status_iff k,
    exists_regAt_eq_subkey_iff k, implemented_regAt hk, hostWrite_of_readOnly hidle hin ha⟩
  obtain ⟨t, hwrite, ht, hstored, honly⟩ := write_of_storesWrites (data := data) hidle hin ha rfl h
  rw [mergeWrite_whole, BitVec.shiftLeft_zero] at hstored ht
  refine ⟨t, hwrite, hstored, fun hreads => ?_, honly, fun w hw hkey i hi => ?_⟩
  · obtain ⟨-, -, hrun, -, hplatform, -⟩ := honly
    rw [hostRead_whole (hplatform ▸ hin) hoff, visible_of_readsBack (hrun.trans hidle) hreads, hstored]
  · rw [ht]
    exact key_of_write (by omega) hw data s i hi

/-! ### A 4-byte write -/

/-- The bits written to the high half stay there. -/
theorem shiftLeft_and_halfLanes (data : Word64) : (data <<< 32) &&& halfLanes true = data <<< 32 := by
  have hlanes : halfLanes true = BitVec.allOnes 64 <<< 32 := by decide
  rw [hlanes, ← BitVec.shiftLeft_and_distrib, BitVec.and_allOnes]

theorem mergeWrite_half (old data implemented : Word64) (high : Bool) :
    mergeWrite old (data <<< halfShift high) (halfLanes high) implemented =
      (if high then (old &&& 0x00000000FFFFFFFF) ||| (data <<< 32)
        else (old &&& 0xFFFFFFFF00000000) ||| (data &&& 0xFFFFFFFF)) &&& implemented := by
  have hlow : ~~~halfLanes true = 0x00000000FFFFFFFF := by decide
  have hlanes : halfLanes false = 0xFFFFFFFF := rfl
  cases high with
  | false => simp [mergeWrite, halfShift, hlanes]
  | true => simp [mergeWrite, halfShift, hlow, shiftLeft_and_halfLanes]

/-- A write of the high half of CMD presents no word (R25). -/
theorem hostWrite_of_cmd_high {s : State} {addr data : Word64} {size : Nat} {a : Access} (hidle : s.running = none)
    (hin : inAperture s.platform addr = true) (ha : accessAt (apertureOffset addr) size = some a) (hcmd : a.reg = .cmd)
    (hshift : a.shift ≠ 0) : hostWrite presentWord addr size data s = .next { s with response := .okay 0 } := by
  have hpresent : a.reg = .cmd ∧ State.busy { s with response := .okay 0 } = false := ⟨hcmd, by simp [State.busy, hidle]⟩
  simp only [hostWrite, hin, ha, if_true, if_pos hpresent, if_neg hshift]

/-- Settles O30. -/
theorem halfAccessReachesHalf : Obligations.HalfAccessReachesHalf := by
  intro s addr data k high hin hoff
  have ha := accessAt_half hoff
  refine ⟨hostRead_half hin hoff, fun hidle h => ?_, fun hidle h => ?_⟩
  · obtain ⟨t, hwrite, -, hstored, honly⟩ := write_of_storesWrites (data := data) hidle hin ha rfl h
    exact ⟨t, hwrite, hstored.trans (mergeWrite_half _ _ _ _), honly⟩
  · rcases h with hid | hstatus | hsubkey | ⟨hcmd, rfl⟩
    · exact hostWrite_of_readOnly hidle hin ha (Or.inl hid)
    · exact hostWrite_of_readOnly hidle hin ha (Or.inr (Or.inl hstatus))
    · exact hostWrite_of_readOnly hidle hin ha (Or.inr (Or.inr hsubkey))
    · exact hostWrite_of_cmd_high hidle hin ha hcmd (by simp [halfShift])

/-! ### A write while BUSY (R180) -/

theorem writeReg_of_busy_other {a : Access} {s : State} (hbusy : s.busy = true) (hen : a.reg ≠ .intEn) (hstat : a.reg ≠ .intStat)
    (d : Word64) : writeReg a d s = if a.lanes &&& a.reg.implemented = 0 then s else setOverrun s := by
  unfold writeReg
  split
  · next hreg => exact absurd hreg hen
  · next hreg => exact absurd hreg hstat
  · rw [if_pos hbusy]

/-- Settles O32. -/
theorem busyWriteIsIgnored : Obligations.BusyWriteIsIgnored := by
  intro s addr data size rest a hbusy hin hap ha hen hstat
  have hb : State.busy { s with inputs := rest, response := .okay 0 } = true := Option.isSome_iff_ne_none.mpr hbusy
  have hstep : step s = .next (writeReg a (data <<< a.shift) { s with inputs := rest, response := .okay 0 }) := by
    rw [step_cons hin, act_write]
    refine hostWrite_of_access (s := { s with inputs := rest }) hap ha fun h => ?_
    exact absurd (Bool.eq_false_iff.mp h.2) (not_not_intro hb)
  rw [hstep, writeReg_of_busy_other hb hen hstat]
  refine ⟨fun h => ?_, fun h => ?_⟩
  · rw [if_neg h]
    rfl
  · rw [if_pos h]

/-! ### INT_EN and INT_STAT (R30, R31) -/

/-- In every mode a write of INT_STAT clears the bits written 1, and one of INT_EN merges the bits written. -/
theorem hostWrite_intStat {s : State} {addr data : Word64} {size : Nat} {a : Access} (hin : inAperture s.platform addr = true)
    (ha : accessAt (apertureOffset addr) size = some a) (hreg : a.reg = .intStat) :
    hostWrite presentWord addr size data s = .next { s with
      response := .okay 0, intStat := clearOnes s.intStat (((data <<< a.shift) &&& a.lanes).setWidth 2) } := by
  rw [hostWrite_of_access hin ha (by simp [hreg])]
  simp only [writeReg, hreg]

theorem hostWrite_intEn {s : State} {addr data : Word64} {size : Nat} {a : Access} (hin : inAperture s.platform addr = true)
    (ha : accessAt (apertureOffset addr) size = some a) (hreg : a.reg = .intEn) :
    hostWrite presentWord addr size data s = .next { s with
      response := .okay 0
      intEn := (mergeWrite (s.intEn.setWidth 64) (data <<< a.shift) a.lanes (Reg.implemented .intEn)).setWidth 2 } := by
  rw [hostWrite_of_access hin ha (by simp [hreg])]
  simp only [writeReg, hreg]
  rfl

theorem getLsbD_clearOnes (old : BitVec 2) (written lanes : Word64) {j : Nat} (hj : j < 2) :
    (clearOnes old ((written &&& lanes).setWidth 2)).getLsbD j = (old.getLsbD j && !(written.getLsbD j && lanes.getLsbD j)) := by
  simp [clearOnes, hj, -BitVec.getLsbD_eq_getElem]

theorem getLsbD_mergeWrite_intEn (old : BitVec 2) (written lanes : Word64) {j : Nat} (hj : j < 2) :
    ((mergeWrite (old.setWidth 64) written lanes (Reg.implemented .intEn)).setWidth 2).getLsbD j =
      if lanes.getLsbD j then written.getLsbD j else old.getLsbD j := by
  have himpl : ∀ j < 2, (Reg.implemented .intEn).getLsbD j = true := by decide
  cases hlane : lanes.getLsbD j <;> simp [mergeWrite, hj, -BitVec.getLsbD_eq_getElem, hlane, himpl j hj]

/-- Settles O33: both registers lie in the low half of their words. -/
theorem interruptRegistersWritable : Obligations.InterruptRegistersWritable := by
  intro s addr data size hin hsize
  refine ⟨fun hoff => ?_, fun hoff => ?_, fun hoff => ?_⟩
  · obtain ⟨a, ha, hreg, hshift, hlanes⟩ := accessAt_low (k := 5) hoff hsize
    refine ⟨_, hostWrite_intStat hin ha hreg, rfl, fun j hj => ?_⟩
    rw [getLsbD_clearOnes _ _ _ hj, hlanes j (by omega), hshift, BitVec.shiftLeft_zero, Bool.and_true]
  · obtain ⟨a, ha, hreg, hshift, hlanes⟩ := accessAt_low (k := 4) hoff hsize
    refine ⟨_, hostWrite_intEn hin ha hreg, rfl, fun j hj => ?_⟩
    rw [getLsbD_mergeWrite_intEn _ _ _ hj, hlanes j (by omega), hshift, BitVec.shiftLeft_zero, if_pos rfl]
  · have hlanes : ∀ j < 2, (halfLanes true).getLsbD j = false := by decide
    rcases hoff with hoff | hoff
    · have hkept : (mergeWrite (s.intEn.setWidth 64) (data <<< halfShift true) (halfLanes true) (Reg.implemented .intEn)).setWidth 2 =
          s.intEn := BitVec.eq_of_getLsbD_eq fun j hj => by
        rw [getLsbD_mergeWrite_intEn _ _ _ hj, hlanes j hj, if_neg Bool.false_ne_true]
      rw [hostWrite_intEn hin (accessAt_half (k := 4) (high := true) hoff) rfl, hkept]
    · have hkept : clearOnes s.intStat (((data <<< halfShift true) &&& halfLanes true).setWidth 2) = s.intStat :=
        BitVec.eq_of_getLsbD_eq fun j hj => by
          rw [getLsbD_clearOnes _ _ _ hj, hlanes j hj, Bool.and_false, Bool.not_false, Bool.and_true]
      rw [hostWrite_intStat hin (accessAt_half (k := 5) (high := true) hoff) rfl, hkept]

end Sys2Proof.Machine
end

section
/-!
PROOFS. What a host can read of the aperture, and what no read tells (R25, R26, R36, R43, R74).
-/

namespace Sys2Proof.Machine

/-! ### STATUS (R26) -/

theorem getLsbD_flagBit (b : Bool) {place i : Nat} (hi : i < 64) : (flagBit b place).getLsbD i = (b && decide (i = place)) := by
  cases b with
  | false => simp [flagBit]
  | true =>
    have hbit : (BitVec.twoPow 64 place).getLsbD i = (decide (place < 64) && decide (place = i)) := BitVec.getLsbD_twoPow place i
    rw [Bool.true_and, flagBit, if_pos rfl, ← BitVec.twoPow, hbit]
    by_cases h : place = i
    · simp [h, hi]
    · simp [h, Ne.symm h]

/-- STATUS bit by bit (R26). -/
theorem getLsbD_statusWord (s : State) {i : Nat} (hi : i < 64) :
    s.statusWord.getLsbD i =
      (s.busy && decide (i = 0) || s.status.err && decide (i = 1) || s.status.verify && decide (i = 2) ||
        !decide (i < 8) && s.status.errcode.getLsbD (i - 8)) := by
  have hwide : i - 8 < 64 := by omega
  simp [State.statusWord, -BitVec.getLsbD_eq_getElem, getLsbD_flagBit _ hi, hi, hwide]

theorem extractLsb'_statusWord (s : State) : s.statusWord.extractLsb' 8 8 = s.status.errcode := by
  refine BitVec.eq_of_getLsbD_eq fun i hi => ?_
  have hlow : ¬8 + i < 8 := by omega
  have h0 : 8 + i ≠ 0 := by omega
  have h1 : 8 + i ≠ 1 := by omega
  have h2 : 8 + i ≠ 2 := by omega
  rw [BitVec.getLsbD_extractLsb', getLsbD_statusWord s (by omega)]
  simp [hi, h1, h2, -BitVec.getLsbD_eq_getElem]

/-- The bits of STATUS that hold nothing read 0 (R26). -/
theorem getLsbD_statusWord_unused (s : State) {b : Nat} (h2 : 2 < b) (hb : b < 8 ∨ 16 ≤ b) : s.statusWord.getLsbD b = false := by
  rcases Nat.lt_or_ge b 64 with hlt | hge
  · have hne : b ≠ 0 ∧ b ≠ 1 ∧ b ≠ 2 := by omega
    obtain ⟨h0, h1, h2⟩ := hne
    rw [getLsbD_statusWord s hlt]
    rcases hb with hlow | hhigh
    · simp [h0, h1, h2, hlow]
    · have hpast : s.status.errcode.getLsbD (b - 8) = false := BitVec.getLsbD_of_ge _ _ (by omega)
      simp [h0, h1, h2, hpast]
  · exact BitVec.getLsbD_of_ge _ _ hge

/-- An access that reaches the low half reads all of STATUS. -/
theorem statusWord_and_lanes (s : State) {lanes : Word64} (hlanes : ∀ j < 32, lanes.getLsbD j = true) :
    s.statusWord &&& lanes = s.statusWord := by
  refine BitVec.eq_of_getLsbD_eq fun i hi => ?_
  rw [BitVec.getLsbD_and]
  rcases Nat.lt_or_ge i 32 with hlow | hhigh
  · rw [hlanes i hlow, Bool.and_true]
  · rw [getLsbD_statusWord_unused s (by omega) (by omega), Bool.false_and]

theorem hostRead_status {s : State} {addr : Word64} {size : Nat} (hin : inAperture s.platform addr = true)
    (hoff : apertureOffset addr = 0x010) (hsize : size = 4 ∨ size = 8) : (hostRead addr size s).response = .okay s.statusWord := by
  obtain ⟨a, ha, hreg, hshift, hlanes⟩ := accessAt_low (k := 2) hoff hsize
  have hvisible : a.reg.visible s = s.statusWord := by
    rw [hreg]
    rfl
  rw [hostRead_of_access hin ha]
  simp only [hvisible, hshift, statusWord_and_lanes s hlanes, BitVec.ushiftRight_zero]

/-- A read changes nothing but the answer (R74). -/
theorem hostRead_eq_response (addr : Word64) (size : Nat) (s : State) :
    hostRead addr size s = { s with response := (hostRead addr size s).response } := by
  obtain ⟨resp, h⟩ := hostRead_eq addr size s
  rw [h]

/-- Two states that agree on the platform and on what every register shows answer every read alike. -/
theorem hostRead_response_congr {s t : State} (hplatform : t.platform = s.platform) (h : ∀ r : Reg, r.visible t = r.visible s)
    (addr : Word64) (size : Nat) : (hostRead addr size t).response = (hostRead addr size s).response := by
  unfold hostRead
  rw [hplatform]
  split
  · split
    · rfl
    · simp only [h]
  · rfl

/-- The answer does not depend on the pending actions. -/
theorem hostRead_inputs (addr : Word64) (size : Nat) (s : State) (rest : List Input) :
    (hostRead addr size { s with inputs := rest }).response = (hostRead addr size s).response :=
  hostRead_response_congr (s := s) (t := { s with inputs := rest }) rfl (fun r => by cases r <;> rfl) addr size

/-- Settles O28. -/
theorem readsHaveNoSideEffect : Obligations.ReadsHaveNoSideEffect := by
  intro s addr size data v rest
  refine ⟨fun h => ?_, fun h => by rw [step_cons h, act_write], fun h => by rw [step_cons h]; rfl,
    fun h => by rw [step_cons h]; rfl, fun hin hoff hsize => ?_, fun hin => ?_⟩
  · rw [step_cons h, act_read, hostRead_eq_response, hostRead_inputs]
  · refine ⟨s.statusWord, hostRead_status hin hoff hsize, ?_, ?_, ?_, extractLsb'_statusWord s,
      fun b h2 hb => getLsbD_statusWord_unused s h2 hb⟩
    · simp [getLsbD_statusWord, State.busy, -BitVec.getLsbD_eq_getElem]
    · simp [getLsbD_statusWord, -BitVec.getLsbD_eq_getElem]
    · simp [getLsbD_statusWord, -BitVec.getLsbD_eq_getElem]
  · refine ⟨hostRead_whole (k := 0) hin, hostRead_whole (k := 1) hin, hostRead_whole (k := 3) hin, hostRead_whole (k := 4) hin,
      hostRead_whole (k := 5) hin, hostRead_whole (k := 6) hin, hostRead_whole (k := 7) hin, hostRead_whole (k := 8) hin,
      hostRead_whole (k := 9) hin, hostRead_whole (k := 10) hin, fun h => ?_⟩
    exact h.elim (hostRead_whole (k := 12) hin) (hostRead_whole (k := 13) hin)

/-! ### What no read tells -/

/-- A register that shows 0 is read as 0, by either size of access. -/
theorem hostRead_of_visible_zero {s : State} {addr : Word64} {size : Nat} {a : Access} (hin : inAperture s.platform addr = true)
    (ha : accessAt (apertureOffset addr) size = some a) (h : a.reg.visible s = 0) : (hostRead addr size s).response = .okay 0 := by
  rw [hostRead_of_access hin ha]
  simp [h]

/-- Settles O37: what a register shows does not depend on KEY. -/
theorem keyIsNotReadable : Obligations.KeyIsNotReadable := by
  refine ⟨fun s key addr size => hostRead_response_congr (s := s) (t := { s with key := key }) rfl (fun r => ?_) addr size,
    fun s addr size a hin ha h => ?_⟩
  · cases r <;> rfl
  · rcases h with ⟨w, hreg⟩ | hreg <;> exact hostRead_of_visible_zero hin ha (by rw [hreg]; rfl)

/-- STATE and SUBKEY show nothing while BUSY (R43). -/
theorem visible_of_busy {s : State} (hbusy : s.busy = true) {r : Reg} (h : (∃ w, r = .permState w) ∨ ∃ w, r = .subkey w) :
    r.visible s = 0 := by
  rcases h with ⟨w, rfl⟩ | ⟨w, rfl⟩ <;> exact if_pos hbusy

/-- While BUSY no register shows STATE or SUBKEY (R43). -/
theorem visible_eq_of_busy {s : State} (hbusy : s.busy = true) (ps : Vector Byte 50) (sk : Vector Byte 34) (r : Reg) :
    r.visible { s with permState := ps, subkey := sk } = r.visible s := by
  have hbusy' : State.busy { s with permState := ps, subkey := sk } = true := hbusy
  cases r with
  | subkey w => rw [visible_of_busy hbusy (Or.inr ⟨w, rfl⟩), visible_of_busy hbusy' (Or.inr ⟨w, rfl⟩)]
  | permState w => rw [visible_of_busy hbusy (Or.inl ⟨w, rfl⟩), visible_of_busy hbusy' (Or.inl ⟨w, rfl⟩)]
  | _ => rfl

/-- Settles O36. -/
theorem busyReadsHideTheState : Obligations.BusyReadsHideTheState := by
  refine ⟨fun s ps sk addr size hbusy =>
      hostRead_response_congr (s := s) (t := { s with permState := ps, subkey := sk }) rfl (fun r => ?_) addr size,
    fun s addr size a hbusy hin ha => ?_, fun s addr k hin hoff => ?_⟩
  · exact visible_eq_of_busy (Option.isSome_iff_ne_none.mpr hbusy) ps sk r
  · have hb : s.busy = true := Option.isSome_iff_ne_none.mpr hbusy
    refine ⟨fun h => hostRead_of_visible_zero hin ha (visible_of_busy hb h), fun h => ?_, fun hstate hsubkey hstatus => ?_⟩
    · refine hostRead_of_visible_zero hin ha (visible_of_busy hb ?_)
      rw [reg_of_accessAt ha]
      rcases h with ⟨hlo, hhi⟩ | ⟨hlo, hhi⟩
      · exact Or.inr ((exists_regAt_eq_subkey_iff _).mpr (by omega))
      · exact Or.inl ⟨apertureOffset addr / 8 - 32, (regAt_eq_permState_iff _ _).mpr (by omega)⟩
    · rw [hostRead_of_access hin ha, hostRead_of_access (s := { s with running := none }) hin ha]
      have hsame : a.reg.visible { s with running := none } = a.reg.visible s := by
        cases hr : a.reg <;> simp_all [Reg.visible, Reg.stored]
      simp only [hsame]
  · refine ⟨(regAt k).visible s, hostRead_whole hin hoff, fun j hj => ⟨fun w hw h => ?_, fun w hw h => ?_, fun w hw h => ?_,
      fun hidle w hw h => ?_, fun hidle w hw h => ?_⟩⟩
    · rw [(regAt_eq_nonce_iff k w).mpr (by omega)]
      exact extractLsb'_regWord _ w hj
    · rw [(regAt_eq_tag_iff k w).mpr (by omega)]
      exact extractLsb'_regWord _ w hj
    · rw [(regAt_eq_y_iff k w).mpr (by omega)]
      exact extractLsb'_regWord _ w hj
    · rw [(regAt_eq_subkey_iff k w).mpr (by omega), Reg.visible, if_neg (by simp [State.busy, hidle])]
      exact extractLsb'_regWord _ w hj
    · rw [(regAt_eq_permState_iff k w).mpr (by omega), Reg.visible, if_neg (by simp [State.busy, hidle])]
      exact extractLsb'_regWord _ w hj

end Sys2Proof.Machine
end

section
/-!
PROOFS. The lanes of a XOR of byte strings, and where the two single-bit changes of the ISAP functions land (R130, R154);
the ρ offsets (R109).
-/

namespace Sys2Proof.Machine

/-- Settles O54 on the table of R109. -/
theorem rhoOffsetsFollowTheRecurrence : Obligations.RhoOffsetsFollowTheRecurrence := by
  unfold Obligations.RhoOffsetsFollowTheRecurrence
  decide

/-! ### XOR of byte strings and of the numbers they hold -/

/-- A byte and what lies above it are XORed separately. -/
theorem xor_low_byte (b c : Byte) (m n : Nat) :
    (b ^^^ c).toNat + 256 * (m ^^^ n) = (b.toNat + 256 * m) ^^^ (c.toNat + 256 * n) := by
  have hb := b.isLt
  have hc := c.isLt
  have hlow : ((b.toNat + 256 * m) ^^^ (c.toNat + 256 * n)) % 2 ^ 8 = (b ^^^ c).toNat := by
    rw [Nat.xor_mod_two_pow, BitVec.toNat_xor]
    congr 1 <;> omega
  have hhigh : ((b.toNat + 256 * m) ^^^ (c.toNat + 256 * n)) / 2 ^ 8 = m ^^^ n := by
    rw [Nat.xor_div_two_pow]
    congr 1 <;> omega
  have hsplit := Nat.mod_add_div ((b.toNat + 256 * m) ^^^ (c.toNat + 256 * n)) (2 ^ 8)
  rw [hlow, hhigh] at hsplit
  exact hsplit

theorem leNat_xorBytes {x y : Bytes} (h : x.length = y.length) : leNat (xorBytes x y) = leNat x ^^^ leNat y := by
  induction x generalizing y with
  | nil =>
    obtain rfl : y = [] := List.length_eq_zero_iff.mp h.symm
    rfl
  | cons b x ih =>
    cases y with
    | nil => simp at h
    | cons c y =>
      have hrest := ih (by simpa using h)
      rw [xorBytes, List.zipWith_cons_cons, leNat, leNat, leNat, ← xorBytes, hrest]
      exact xor_low_byte b c _ _

theorem xorBytes_reverse {x y : Bytes} (h : x.length = y.length) : (xorBytes x y).reverse = xorBytes x.reverse y.reverse :=
  List.reverse_zipWith h

theorem beNat_xorBytes {x y : Bytes} (h : x.length = y.length) : beNat (xorBytes x y) = beNat x ^^^ beNat y := by
  rw [beNat, beNat, beNat, xorBytes_reverse h, leNat_xorBytes (by simpa using h)]

theorem slice_xorBytes {x y : Bytes} (h : x.length = y.length) (off n : Nat) :
    slice (xorBytes x y) off n = xorBytes (slice x off n) (slice y off n) := by
  refine List.ext_getElem (by simp) fun k hk _ => ?_
  simp only [slice, xorBytes, List.getElem_map, List.getElem_range, List.getElem_zipWith]
  rw [← xorBytes]
  rcases Nat.lt_or_ge (off + k) x.length with hin | hpast
  · exact xorBytes_getD _ hin (h ▸ hin)
  · have hy : y.length ≤ off + k := h ▸ hpast
    simp [hpast, hy]

/-! ### XOR of byte states and of their lanes (R60, R62) -/

theorem asconLane_xorBytes {x y : Bytes} (h : x.length = y.length) (j : Nat) :
    asconLane (xorBytes x y) j = asconLane x j ^^^ asconLane y j := by
  rw [asconLane, slice_xorBytes h, beNat_xorBytes (by simp), BitVec.ofNat_xor]
  rfl

theorem bytesToLanesA_xorBytes {x y : Bytes} (h : x.length = y.length) :
    bytesToLanesA (xorBytes x y) =
      { x0 := (bytesToLanesA x).x0 ^^^ (bytesToLanesA y).x0
        x1 := (bytesToLanesA x).x1 ^^^ (bytesToLanesA y).x1
        x2 := (bytesToLanesA x).x2 ^^^ (bytesToLanesA y).x2
        x3 := (bytesToLanesA x).x3 ^^^ (bytesToLanesA y).x3
        x4 := (bytesToLanesA x).x4 ^^^ (bytesToLanesA y).x4 } := by
  simp only [bytesToLanesA, asconLane_xorBytes h]

theorem bytesToLanesK_xorBytes {x y : Bytes} (h : x.length = y.length) (i : Nat) (hi : i < 25) :
    (bytesToLanesK (xorBytes x y))[i] = (bytesToLanesK x)[i] ^^^ (bytesToLanesK y)[i] := by
  rw [bytesToLanesK_getElem, bytesToLanesK_getElem, bytesToLanesK_getElem, slice_xorBytes h, leNat_xorBytes (by simp), BitVec.ofNat_xor]

/-- A byte state XORed with one whose lanes are all zero but lane `i`. -/
theorem bytesToLanesK_xorBytes_lane {x y : Bytes} (h : x.length = y.length) (i : Nat) (hi : i < 25) (v : Lane16)
    (hy : bytesToLanesK y = (Vector.replicate 25 0).set i v) :
    bytesToLanesK (xorBytes x y) = (bytesToLanesK x).set i ((bytesToLanesK x)[i] ^^^ v) := by
  refine Vector.ext fun j hj => ?_
  rw [bytesToLanesK_xorBytes h, hy]
  by_cases hij : i = j
  · subst hij
    simp
  · simp [hij]

/-! ### An absorbed bit of Y and the domain separator -/

theorem xorBytes_zeros (x : Bytes) : xorBytes x (zeros x.length) = x := by
  refine List.ext_getElem (by simp) fun i _ _ => ?_
  simp [xorBytes, zeros]

/-- The byte string whose only bit is the one an absorbed bit goes to (R130). -/
def absorbMask (bit : Bool) (n : Nat) : Bytes := (if bit then 0x80 else 0x00) :: zeros (n - 1)

theorem absorbBit_eq_xorBytes {x : Bytes} (h : x ≠ []) (bit : Bool) : absorbBit x bit = xorBytes x (absorbMask bit x.length) := by
  cases x with
  | nil => exact absurd rfl h
  | cons b rest =>
    have hrest := xorBytes_zeros rest
    rw [xorBytes] at hrest
    rw [absorbBit, absorbMask, xorBytes, List.zipWith_cons_cons, List.length_cons, Nat.add_sub_cancel, hrest]

theorem bytesToLanesA_absorbMask (bit : Bool) : bytesToLanesA (absorbMask bit 40) =
    { x0 := if bit then 0x8000000000000000 else 0, x1 := 0, x2 := 0, x3 := 0, x4 := 0 } := by
  cases bit <;> decide

theorem bytesToLanesK_absorbMask (bit : Bool) :
    bytesToLanesK (absorbMask bit 50) = (Vector.replicate 25 0).set 0 (if bit then 0x0080 else 0) := by
  cases bit <;> decide

/-- Settles O55: the XORed string has one lane that is not zero. -/
theorem absorbedBitInLanes : Obligations.AbsorbedBitInLanes := by
  have hne {x : Bytes} {n : Nat} (h : x.length = n + 1) : x ≠ [] := List.ne_nil_of_length_eq_add_one h
  refine ⟨fun x bit h => ?_, fun x bit h => ?_⟩
  · rw [absorbBit_eq_xorBytes (hne h), h, bytesToLanesA_xorBytes (by simp [h, absorbMask]), bytesToLanesA_absorbMask]
    simp
  · rw [absorbBit_eq_xorBytes (hne h), h]
    exact bytesToLanesK_xorBytes_lane (by simp [h, absorbMask]) 0 (by decide) _ (bytesToLanesK_absorbMask bit)

/-- The byte string whose only bit is the domain separator (R154). -/
def separatorMask (n : Nat) : Bytes := zeros (n - 1) ++ [0x01]

theorem bytesToLanesA_separatorMask :
    bytesToLanesA (separatorMask 40) = { x0 := 0, x1 := 0, x2 := 0, x3 := 0, x4 := 1 } := by decide

theorem bytesToLanesK_separatorMask : bytesToLanesK (separatorMask 50) = (Vector.replicate 25 0).set 24 0x0100 := by decide

theorem separate_eq_xorBytes {ps : Params} {x : Bytes} (h : x.length = stateBytes ps.perm) :
    separate ps x = xorBytes x (separatorMask x.length) := by
  have hne : x ≠ [] := by
    have hsize := sixteen_le_stateBytes ps.perm
    rintro rfl
    simp only [List.length_nil] at h
    omega
  obtain ⟨init, b, rfl⟩ := List.eq_nil_or_concat x |>.resolve_left hne
  have hlast : stateBytes ps.perm - 1 = init.length := by
    rw [← h]
    simp
  have hinit := xorBytes_zeros init
  rw [xorBytes] at hinit
  rw [separate, hlast, separatorMask, xorBytes]
  simp [List.zipWith_append, hinit]

/-- Settles O56: the XORed string has one lane that is not zero. -/
theorem separatorInLanes : Obligations.SeparatorInLanes := by
  refine ⟨fun ps x hperm h => ?_, fun ps x hperm h => ?_⟩
  · rw [separate_eq_xorBytes (by rw [h, hperm]; rfl), h, bytesToLanesA_xorBytes (by simp [h, separatorMask]),
      bytesToLanesA_separatorMask]
    simp
  · rw [separate_eq_xorBytes (by rw [h, hperm]; rfl), h]
    exact bytesToLanesK_xorBytes_lane (by simp [h, separatorMask]) 24 (by decide) _ bytesToLanesK_separatorMask

end Sys2Proof.Machine
end
